-- ==== Sys2Proof/Word.lean ====
section
/-! DEFINITION. The word types of PHE-1 and the byte order of a word (20_memory.md R53). -/

namespace Sys2Proof

/-- A 32-bit register or command word: bit 0 is the least significant bit (00_scope.md R9). -/
abbrev Word := BitVec 32

/-- A 256-bit data register (10_state.md R25 to R28, R33). -/
abbrev Word256 := BitVec 256

/-- A byte, as a host that sees the bus as bytes sees it (20_memory.md R53). -/
abbrev Byte := BitVec 8

end Sys2Proof
end

