-- ==== Sys2Proof/Syntax.lean ====
section
/-! DEFINITION. The commands of PHE-1: one constructor per row of spec/opcode_table.json (30_encoding.md R83, R84). -/

namespace Sys2Proof

/-- A command with its operand fields (30_encoding.md R83).
One-bit fields are Bool. The other fields are unsigned numbers, and `Instr.wf` says which fit their width. -/
inductive Instr where
  /-- NOP, format F0 (45_control.md R200). -/
  | nop
  /-- WRAP, format FS: `S` selects two's complement (41_scalar_reduce.md R101). -/
  | wrap (signed : Bool)
  /-- PADD, format F0 (42_point_adder.md R124). -/
  | padd
  /-- BUILD_TABLE, format F0 (43_generator_table.md R143). -/
  | buildTable
  /-- TBL_READ, format FL: generator, window and value index (43_generator_table.md R145). -/
  | tblRead (g w v : Nat)
  /-- FS_TO_POINT, format FG: `S` and the generator (44_hash_core.md R173). -/
  | fsToPoint (signed : Bool) (g : Nat)
  /-- HASH_INIT, format F0 (44_hash_core.md R163). -/
  | hashInit
  /-- ABSORB_BYTE, format FB: the input byte (44_hash_core.md R167). -/
  | absorbByte (imm8 : Nat)
  /-- ABSORB_TRIPLE, format FT: data bits a and b, sign bit c (44_hash_core.md R168). -/
  | absorbTriple (a b c : Bool)
  /-- HASH_FINISH, format F0 (44_hash_core.md R170). -/
  | hashFinish
deriving DecidableEq, Repr

end Sys2Proof
end

