-- ==== Sys2Proof/WellFormed.lean ====
section
/-! DEFINITION. Which commands have operands that fit their fields (30_encoding.md R83, R88). -/

namespace Sys2Proof

/-- Every field value fits its width (30_encoding.md R83). Generators 5 to 7 do fit, and raise BAD_GEN when performed. -/
def Instr.wf : Instr → Bool
  | .nop => true
  | .wrap _ => true
  | .padd => true
  | .buildTable => true
  | .tblRead g w v => decide (g < 8) && decide (w < 32) && decide (v < 256)
  | .fsToPoint _ g => decide (g < 8)
  | .hashInit => true
  | .absorbByte imm8 => decide (imm8 < 256)
  | .absorbTriple _ _ _ => true
  | .hashFinish => true

end Sys2Proof
end

