-- ==== Sys2Proof/Decode.lean ====
section
/-! DEFINITION. The decoder, from the mask and match columns of the opcode map (30_encoding.md R83 to R87), and the
encoder (30_encoding.md R88). -/

namespace Sys2Proof

/-- The ten rows of the opcode map (30_encoding.md R84). -/
inductive Row where
  | nop | wrap | padd | buildTable | tblRead | fsToPoint | hashInit | absorbByte | absorbTriple | hashFinish
deriving DecidableEq, Repr

/-- Why a word is ILLEGAL (30_encoding.md R86, R87). The engine treats both alike. -/
inductive Illegal where
  /-- The opcode is one of `0x0A` to `0xFF` (R86). -/
  | reservedOpcode
  /-- The opcode is mapped and a reserved bit is set (R87). -/
  | reservedBit
deriving DecidableEq, Repr

namespace Row

/-- The rows in the order of the map. -/
def all : List Row :=
  [.nop, .wrap, .padd, .buildTable, .tblRead, .fsToPoint, .hashInit, .absorbByte, .absorbTriple, .hashFinish]

/-- The column "match" of 30_encoding.md R84. -/
def pattern : Row → Word
  | nop => 0x00000000#32
  | wrap => 0x00000001#32
  | padd => 0x00000002#32
  | buildTable => 0x00000003#32
  | tblRead => 0x00000004#32
  | fsToPoint => 0x00000005#32
  | hashInit => 0x00000006#32
  | absorbByte => 0x00000007#32
  | absorbTriple => 0x00000008#32
  | hashFinish => 0x00000009#32

/-- The column "mask" of 30_encoding.md R84. -/
def mask : Row → Word
  | nop => 0xFFFFFFFF#32
  | wrap => 0xFFFFFEFF#32
  | padd => 0xFFFFFFFF#32
  | buildTable => 0xFFFFFFFF#32
  | tblRead => 0x00E08FFF#32
  | fsToPoint => 0xFFFF8EFF#32
  | hashInit => 0xFFFFFFFF#32
  | absorbByte => 0xFFFF00FF#32
  | absorbTriple => 0xFFFFF8FF#32
  | hashFinish => 0xFFFFFFFF#32

/-- A word is the row's command exactly when this holds (30_encoding.md R84). -/
def fits (r : Row) (w : Word) : Bool := w &&& r.mask == r.pattern

end Row

/-- `w[hi:lo]` as an unsigned number (00_scope.md R9). -/
def field (w : Word) (hi lo : Nat) : Nat := (w.extractLsb' lo (hi + 1 - lo)).toNat

/-- The fields of a row's format taken from the word (30_encoding.md R83). -/
def Row.instr (w : Word) : Row → Instr
  | nop => .nop
  | wrap => .wrap (w.getLsbD 8)
  | padd => .padd
  | buildTable => .buildTable
  | tblRead => .tblRead (field w 14 12) (field w 20 16) (field w 31 24)
  | fsToPoint => .fsToPoint (w.getLsbD 8) (field w 14 12)
  | hashInit => .hashInit
  | absorbByte => .absorbByte (field w 15 8)
  | absorbTriple => .absorbTriple (w.getLsbD 8) (w.getLsbD 9) (w.getLsbD 10)
  | hashFinish => .hashFinish

/-- `decode` of 30_encoding.md R85, total on 32-bit words: the first row that fits, or ILLEGAL with the reason. -/
def decode (w : Word) : Except Illegal Instr :=
  match Row.all.find? (fun r => r.fits w) with
  | some r => .ok (r.instr w)
  | none => .error (if field w 7 0 ≤ 9 then .reservedBit else .reservedOpcode)

/-- A one-bit field as a word. -/
def bit (b : Bool) : Word := if b then 1#32 else 0#32

/-- The word of a command (30_encoding.md R88); the rule states it for commands whose fields fit their widths. -/
def encode : Instr → Word
  | .nop => 0x00000000#32
  | .wrap s => (bit s <<< 8) ||| 0x01#32
  | .padd => 0x00000002#32
  | .buildTable => 0x00000003#32
  | .tblRead g w v =>
      (BitVec.ofNat 32 v <<< 24) ||| (BitVec.ofNat 32 w <<< 16) ||| (BitVec.ofNat 32 g <<< 12) ||| 0x04#32
  | .fsToPoint s g => (BitVec.ofNat 32 g <<< 12) ||| (bit s <<< 8) ||| 0x05#32
  | .hashInit => 0x00000006#32
  | .absorbByte imm8 => (BitVec.ofNat 32 imm8 <<< 8) ||| 0x07#32
  | .absorbTriple a b c => (bit c <<< 10) ||| (bit b <<< 9) ||| (bit a <<< 8) ||| 0x08#32
  | .hashFinish => 0x00000009#32

/-- The host's question about a table row: the instruction whose `nbits` bits are `w`, every bit above them 0. A command
is one 32-bit word, so it is the word itself (30_encoding.md R81). -/
def wordOfTable (nbits w : Nat) : Word := BitVec.ofNat 32 (w % 2 ^ nbits)

/-- The command the decoder reads from a table word (none where the word is ILLEGAL). -/
def decodeTableWord (nbits w : Nat) : Option Instr :=
  match decode (wordOfTable nbits w) with
  | .ok i => some i
  | .error _ => none

end Sys2Proof
end

