-- ==== Sys2Proof/Config.lean ====
section
/-! DEFINITION. What the spec fixes for the hardware, the parameters it leaves open, and the free values of the
model (00_scope.md R6 to R8, R11). -/

namespace Sys2Proof

/-- A point in affine form: a pair of integers, canonical when both lie in `[0, P)` (00_scope.md R11,
42_point_adder.md R121). -/
structure Point where
  x : Nat
  y : Nat
deriving DecidableEq, Repr, Inhabited

/-- The table memory in the source's own shape (20_memory.md R56): one row per generator, each a sequence of windows,
each window a sequence of points. -/
abbrev Table := List (List (List Point))

namespace Config

/-- The base-field modulus, the one curve constant the source gives (00_scope.md R6). -/
def P : Nat := 21888242871839275222246405745257275088548364400416034343698204186575808495617

/-- The twisted Edwards coefficient a, read from the curve equation (00_scope.md R6, 90_conflicts.md C6). -/
def A : Int := -1

/-- Number of generators, windows per generator, points per window (00_scope.md R6). -/
def numGens : Nat := 5
def numWindows : Nat := 32
def windowSize : Nat := 256

/-- Triples per chunk and the capacity in triples and bits (00_scope.md R6). -/
def chunkTriples : Nat := 62
def maxTriples : Nat := 310
def maxBits : Nat := 930

/-- The parameters that 00_scope.md R6 leaves open.
The two proof fields are PARAM_OK of R7 as far as it constrains them, and the alignment of BASE (log 2, DEDUCED).
The field defaults exist only so that Lean can see that the type has a member (log 2): no definition of the model reads
them, and nothing is known of `Config.params` but its type. -/
structure Params where
  /-- The curve coefficient d, any integer: it is only ever used mod `P`. -/
  D : Int := 0
  /-- The scalar-field modulus n. -/
  N : Nat := 2
  /-- The five base generators, pairs of integers with no range of their own (R7: validated by BUILD_TABLE). -/
  gen : Vector (Int × Int) 5 := Vector.replicate 5 (0, 1)
  /-- The physical base address of the register window. -/
  base : Nat := 0
  N_ok : 2 ≤ N ∧ N < 2 ^ 256 := by decide
  base_ok : base % 4 = 0 := by decide
deriving DecidableEq, Repr, Inhabited

/-- D_NONSQUARE of 00_scope.md R8: `D` is a quadratic non-residue mod `P`. An optional hypothesis, no part of the type. -/
def Params.DNonsquare (p : Params) : Prop := ¬ ∃ r : Int, r * r % P = p.D % P

/-- The parameters of the machine that leaves reset: uninterpreted, so that nothing can lean on a value of D, N, GEN or
BASE (92_eei_decisions.md D2, D3, D4; log 2). -/
opaque params : Params

/-- The content of the table after a failed build, unspecified (93_implementation_defined.md U1): uninterpreted, applied
to a counter of State so that each failure has a content of its own (log 9). -/
opaque freeTable : Nat → Table

end Config
end Sys2Proof
end

