-- ==== Sys2Proof/Machine/Field.lean ====
section
/-! DEFINITION. The base field and the point adder, edwards_point_adder (00_scope.md R11, R12, 42_point_adder.md R120 to
R123). -/

namespace Sys2Proof.Machine

open Sys2Proof Config

/-- `b ^ e * acc mod m` by repeated squaring over the `fuel` low bits of the exponent. -/
def powMod (m : Nat) : (fuel b e acc : Nat) → Nat
  | 0, _, _, acc => acc
  | fuel + 1, b, e, acc => powMod m fuel (b * b % m) (e / 2) (if e % 2 = 1 then acc * b % m else acc)

/-- `inv_P(z)` for `z mod P ≠ 0`, computed as `z ^ (P - 2) mod P`; any method gives this value (42_point_adder.md R120;
log 11). The exponent has 254 bits. -/
def invP (z : Int) : Int := powMod P 254 (z % P).toNat (P - 2) 1

/-- The identity point ID_PT (00_scope.md R10, R11). -/
def idPt : Point := ⟨0, 1⟩

/-- The curve equation in the base field, for any two integers (00_scope.md R11). -/
def onCurve (p : Params) (x y : Int) : Bool :=
  (-x * x + y * y - 1 - p.D * x * x * y * y) % P == 0

/-- `PointAdd` of 42_point_adder.md R122, with `none` for NoInverse (R123; log 12). -/
def pointAdd (p : Params) (a b : Point) : Option Point :=
  let x1 : Int := a.x
  let y1 : Int := a.y
  let x2 : Int := b.x
  let y2 : Int := b.y
  let t := p.D * x1 * x2 * y1 * y2 % P
  let dx := (1 + t) % P
  let dy := (1 - t) % P
  if dx = 0 ∨ dy = 0 then none
  else some {
    x := ((x1 * y2 + y1 * x2) * invP dx % P).toNat
    y := ((y1 * y2 - A * x1 * x2) * invP dy % P).toNat }

/-- `e` plus `n` times `step`, by repeated addition (00_scope.md R12). -/
def addTimes (p : Params) (step : Point) : Nat → Point → Option Point
  | 0, e => some e
  | n + 1, e => (pointAdd p e step).bind (addTimes p step n)

end Sys2Proof.Machine
end

