-- ==== Sys2Proof/Machine/State.lean ====
section
/-! DEFINITION. The state of the engine (10_state.md R20 to R40), what stands beside it in the model, the reasons a step
can stop, and the state right after reset. -/

namespace Sys2Proof.Machine

open Sys2Proof

/-- TSTATE (10_state.md R35). The encoding 3 never occurs (R22, U16), so it has no constructor. -/
inductive TState where
  | empty | ready | broken
deriving DecidableEq, Repr

/-- HSTATE (10_state.md R34). -/
inductive HState where
  | idle | absorb | done | failed
deriving DecidableEq, Repr

/-- The result codes 0 to 11 (60_exceptions.md R210). The values 12 to 15 are never written, so they have no
constructor. -/
inductive Code where
  | ok | illegalCmd | tableNotReady | tableState | invalidCurvePoint | inputTooLong | badState | bitAlign | badGen
  | operandRange | notOnCurve | noInverse
deriving DecidableEq, Repr

/-- The session registers (10_state.md R27 to R33). -/
structure Session where
  /-- ACC, 256-bit two's complement (R27). -/
  acc : Word256
  /-- CUR, 256-bit unsigned (R28). -/
  cur : Word256
  /-- GEN_IDX (R29). -/
  genIdx : BitVec 3
  /-- REM (R30). -/
  rem : BitVec 6
  /-- BITCNT and BITBUF (R31). -/
  bitcnt : BitVec 2
  bitbuf : BitVec 2
  /-- TRIPLES (R32). -/
  triples : BitVec 9
  /-- HRES_X and HRES_Y (R33). -/
  hresX : Word256
  hresY : Word256
deriving DecidableEq, Repr

/-- The source's initial values, which reset and HASH_INIT share (10_state.md R40, 44_hash_core.md R163). -/
def Session.fresh : Session where
  acc := 0
  cur := 1
  genIdx := 0
  rem := 62
  bitcnt := 0
  bitbuf := 0
  triples := 0
  hresX := 0
  hresY := 1

/-- One host access (20_memory.md R54): a byte address, a size in bytes, and the value written. Only aligned accesses of
four bytes exist; the size is here so that the others can be refused. -/
inductive Access where
  | read (addr size : Nat)
  | write (addr size : Nat) (value : Word)
deriving DecidableEq, Repr

/-- One thing that happens outside the engine's own step (log 3). -/
inductive Input where
  /-- The host performs an access (00_scope.md R13). -/
  | access (a : Access)
  /-- The engine gets its turn (45_control.md R201). -/
  | engine
  /-- The line RST is asserted (true) or released (false) (70_reset_and_hazards.md R240). -/
  | reset (asserted : Bool)
deriving DecidableEq, Repr

/-- Everything the spec gives the machine (10_state.md R20), and after it the model's own fields.
ID is hard-wired and stands in the window's read operation. STATUS and HSTAT are packed views of the fields below. -/
structure State where
  /-- BUSY and PENDING (R36). -/
  busy : Bool
  pending : Word
  /-- TSTATE, HSTATE (R35, R34). -/
  tstate : TState
  hstate : HState
  /-- ERR (R39) and OVR (R22). -/
  err : Code
  ovr : Bool
  /-- The operand registers (R25). -/
  opaX : Word256
  opaY : Word256
  opbX : Word256
  opbY : Word256
  /-- The result registers (R26). -/
  resX : Word256
  resY : Word256
  /-- ACC, CUR, GEN_IDX, REM, BITCNT, BITBUF, TRIPLES, HRES_X, HRES_Y (R27 to R33). -/
  session : Session
  /-- TABLE (R37). -/
  table : Table
  /-- MODEL'S OWN: the level of the input line RST (log 15). -/
  rst : Bool
  /-- MODEL'S OWN: the parameters of 00_scope.md R6, which no step changes (log 1). -/
  cfg : Config.Params
  /-- MODEL'S OWN: what happens next outside the engine, first entry first (log 3). -/
  inputs : List Input
  /-- MODEL'S OWN: the values the host's reads have returned, newest first (log 4). -/
  busReads : List Word
  /-- MODEL'S OWN: how many free table contents have been used (log 9). -/
  freeCount : Nat
deriving DecidableEq, Repr

/-- Why a step stops with a fault. -/
inductive Fault where
  /-- Raised by a host access whose address lies outside the 512-byte register window (20_memory.md R50): no register of
  the engine stands there. Safe: the model stops where the platform would go elsewhere (log 6). -/
  | outsideWindow
deriving DecidableEq, Repr

/-- Why a step is refused. -/
inductive Refusal where
  /-- Raised by exec's arm of a command that has no meaning yet: no arm of this model. Safe. -/
  | notModelled (mnemonic : String)
  /-- Raised by a host access that is not an aligned 32-bit one: 20_memory.md R54 gives it no step. Safe (log 5). -/
  | notAlignedWord
  /-- Raised by a host access while RST is asserted: 70_reset_and_hazards.md R242 gives it no step. Safe (log 5). -/
  | windowInReset
deriving DecidableEq, Repr

/-- The three outcomes of a step. -/
abbrev Result := Host.Outcome State Fault Refusal

/-- The machine right after reset, RST released (10_state.md R40). PENDING, `table` and the model's own fields have the
values that logs 2, 3, 4, 7, 8, 9 and 15 name. -/
def State.reset : State where
  busy := false
  pending := 0
  tstate := .empty
  hstate := .idle
  err := .ok
  ovr := false
  opaX := 0
  opaY := 0
  opbX := 0
  opbY := 0
  resX := 0
  resY := 0
  session := Session.fresh
  table := []
  rst := false
  cfg := Config.params
  inputs := []
  busReads := []
  freeCount := 0

end Sys2Proof.Machine
end

