-- ==== Sys2Proof/Machine/Flags.lean ====
section
/-! DEFINITION. The packed views STATUS and HSTAT and the field encodings in them (10_state.md R22, R23, R31, R38). The
engine has no arithmetic flags (R38). -/

namespace Sys2Proof.Machine

open Sys2Proof

/-- TSTATE as `STATUS[2:1]` (10_state.md R22). -/
def TState.bits : TState → BitVec 2
  | empty => 0
  | ready => 1
  | broken => 2

/-- HSTATE as `STATUS[5:4]` (10_state.md R22). -/
def HState.bits : HState → BitVec 2
  | idle => 0
  | absorb => 1
  | done => 2
  | failed => 3

/-- A result code as `STATUS[11:8]` (60_exceptions.md R210). -/
def Code.bits : Code → BitVec 4
  | ok => 0
  | illegalCmd => 1
  | tableNotReady => 2
  | tableState => 3
  | invalidCurvePoint => 4
  | inputTooLong => 5
  | badState => 6
  | bitAlign => 7
  | badGen => 8
  | operandRange => 9
  | notOnCurve => 10
  | noInverse => 11

/-- STATUS (10_state.md R22), most significant field first. -/
def State.status (s : State) : Word :=
  0#19 ++ BitVec.ofBool s.ovr ++ s.err.bits ++ 0#2 ++ s.hstate.bits ++ 0#1 ++ s.tstate.bits ++ BitVec.ofBool s.busy

/-- Bit `i` of BITBUF: a bit at an index not below BITCNT reads 0 (10_state.md R31; log 16). -/
def Session.bufBit (u : Session) (i : Nat) : Bool := decide (i < u.bitcnt.toNat) && u.bitbuf.getLsbD i

/-- HSTAT (10_state.md R23), most significant field first. -/
def Session.hstat (u : Session) : Word :=
  0#10 ++ u.triples ++ BitVec.ofBool (u.bufBit 1) ++ BitVec.ofBool (u.bufBit 0) ++ u.bitcnt ++ u.rem ++ u.genIdx

end Sys2Proof.Machine
end

