-- ==== Sys2Proof/Machine/Operands.lean ====
section
/-! DEFINITION. The operand and result forms of the commands, and the word view of a 256-bit register (30_encoding.md R83,
20_memory.md R52, R53). -/

namespace Sys2Proof.Machine

open Sys2Proof Config

/-- A 256-bit operand read as the field `S` selects: two's complement `sval` or unsigned `uval` (30_encoding.md R83,
00_scope.md R9). -/
def scalarOperand (signed : Bool) (x : Word256) : Int := if signed then x.toInt else x.toNat

/-- The point operand `(uval(OPA_X), uval(OPA_Y))` (42_point_adder.md R124). -/
def State.opA (s : State) : Point := ⟨s.opaX.toNat, s.opaY.toNat⟩

/-- The point operand `(uval(OPB_X), uval(OPB_Y))` (42_point_adder.md R124). -/
def State.opB (s : State) : Point := ⟨s.opbX.toNat, s.opbY.toNat⟩

/-- Both coordinates lie in `[0, P)` (42_point_adder.md R121). -/
def canonical (a : Point) : Bool := decide (a.x < P) && decide (a.y < P)

/-- `(RES_X, RES_Y) <- (zext_256(x), zext_256(y))` (42_point_adder.md R124). -/
def State.setResult (s : State) (a : Point) : State :=
  { s with resX := BitVec.ofNat 256 a.x, resY := BitVec.ofNat 256 a.y }

/-- The point in `HRES_X`, `HRES_Y` (10_state.md R33). -/
def Session.hres (u : Session) : Point := ⟨u.hresX.toNat, u.hresY.toNat⟩

/-- `(HRES_X, HRES_Y) <- a`. -/
def Session.setHres (u : Session) (a : Point) : Session :=
  { u with hresX := BitVec.ofNat 256 a.x, hresY := BitVec.ofNat 256 a.y }

/-- Word `k` of a 256-bit register: `X[32*k+31 : 32*k]` (20_memory.md R52). -/
def wordOf (x : Word256) (k : Nat) : Word := x.extractLsb' (32 * k) 32

/-- A 256-bit register with word `k` replaced and the other seven kept (20_memory.md R52). -/
def withWord (x : Word256) (k : Nat) (v : Word) : Word256 :=
  (x &&& ~~~ ((BitVec.allOnes 32).setWidth 256 <<< (32 * k))) ||| (v.setWidth 256 <<< (32 * k))

/-- Byte `j` of a word, at address `+j` for a host that sees the bus as bytes (20_memory.md R53). -/
def byteOf (v : Word) (j : Nat) : Byte := v.extractLsb' (8 * j) 8

/-- The 32 bytes of a 256-bit register, least significant byte first (20_memory.md R52, R53). -/
def bytesOf (x : Word256) : List Byte := (List.range 32).map fun i => byteOf (wordOf x (i / 4)) (i % 4)

/-- The digest's wire encoding (20_memory.md R67): the bytes of HRES_X, then those of HRES_Y. -/
def State.digestBytes (s : State) : List Byte := bytesOf s.session.hresX ++ bytesOf s.session.hresY

end Sys2Proof.Machine
end

