-- ==== Sys2Proof/Machine/Scalar.lean ====
section
/-! DEFINITION. scalar_field_reduce and the byte windows of a scalar (41_scalar_reduce.md R100, 20_memory.md R57). -/

namespace Sys2Proof.Machine

open Sys2Proof Config

/-- `wrapFs(x) = x mod N`, the Euclidean residue (41_scalar_reduce.md R100, R104). -/
def wrapFs (p : Params) (x : Int) : Nat := (x % p.N).toNat

/-- Byte `w` of `le32bytes(s)`: `s[8*w+7 : 8*w]` (20_memory.md R57). -/
def windowByte (s w : Nat) : Nat := s / 2 ^ (8 * w) % 256

/-- `le32bytes(s)`, the least significant byte first (20_memory.md R57). -/
def le32bytes (s : Nat) : List Nat := (List.range 32).map (windowByte s)

/-- The source's own algorithm of 41_scalar_reduce.md R100, `fuel` bounding the rounds of its while loop. The engine
does not run it: it is here so that its agreement with `wrapFs` can be stated. -/
def wrapFsSource (p : Params) : (fuel : Nat) → Int → Int
  | 0, x => x
  | fuel + 1, x => if x < 0 then wrapFsSource p fuel (x + p.N) else if x ≥ p.N then x % p.N else x

end Sys2Proof.Machine
end

