-- ==== Sys2Proof/Machine/Ops.lean ====
section
/-! DEFINITION. The operations the commands share: ending a command (60_exceptions.md R210, R212), the table memory
(20_memory.md R56, 43_generator_table.md R141, R142), the triple step, the flush, `fsToPoint` and the failure of a session
(44_hash_core.md R165, R166, R169, R172). -/

namespace Sys2Proof.Machine

open Sys2Proof Config

/-! ### Ending a command

The engine has no traps (60_exceptions.md R214): what an exception is on another machine is here a result code, and this
is the one operation that records it. -/

/-- `raise <Code>`: the command ends with `ERR <- Code` and nothing further is done (00_scope.md R10, 60_exceptions.md
R212). -/
def raise (c : Code) (s : State) : State := { s with err := c }

/-- `complete`: the command ends with `ERR <- OK` (00_scope.md R10). -/
def complete (s : State) : State := { s with err := .ok }

/-! ### The table memory -/

/-- What an entry that nothing has written reads as (log 8). No rule reads one. -/
def unwritten : Point := ⟨0, 0⟩

/-- `TableRead(g, w, v)` (20_memory.md R56). -/
def tableRead (t : Table) (g w v : Nat) : Point := ((t.getD g []).getD w []).getD v unwritten

/-- The entries of one window from entry `e` on, `n` more after it: each is the one before plus `step`
(43_generator_table.md R142). -/
def windowFrom (p : Params) (step : Point) : Nat → Point → Option (List Point)
  | 0, e => some [e]
  | n + 1, e => (pointAdd p e step).bind fun e' => (windowFrom p step n e').map (e :: ·)

/-- One window: entry 0 is the identity and 255 entries follow (43_generator_table.md R142). -/
def buildWindow (p : Params) (step : Point) : Option (List Point) := windowFrom p step (windowSize - 1) idPt

/-- `256 * step`: `step` added to itself 256 times (43_generator_table.md R142, 00_scope.md R12; log 10). -/
def advance (p : Params) (step : Point) : Option Point := addTimes p step windowSize idPt

/-- `n` windows from the unit step `step` on; the step advances after each of them (43_generator_table.md R142). -/
def buildWindows (p : Params) : Nat → Point → Option (List (List Point))
  | 0, _ => some []
  | n + 1, step =>
    (buildWindow p step).bind fun win =>
      (advance p step).bind fun step' => (buildWindows p n step').map (win :: ·)

/-- The rows of the generators in order, `none` when an addition meets NoInverse (43_generator_table.md R142). -/
def buildRows (p : Params) : List Point → Option Table
  | [] => some []
  | g :: gs => (buildWindows p numWindows g).bind fun row => (buildRows p gs).map (row :: ·)

/-- The check of one generator: canonical coordinates, on the curve (43_generator_table.md R141). -/
def validGenerator (p : Params) (g : Int × Int) : Bool :=
  decide (0 ≤ g.1 ∧ g.1 < P) && decide (0 ≤ g.2 ∧ g.2 < P) && onCurve p g.1 g.2

/-- Every generator passes its check (43_generator_table.md R141). -/
def validGenerators (p : Params) : Bool := p.gen.toList.all (validGenerator p)

/-- The generators as points, for validated generators. -/
def generators (p : Params) : List Point := p.gen.toList.map fun g => ⟨g.1.toNat, g.2.toNat⟩

/-- The construction of 43_generator_table.md R142 over the five generators. -/
def buildTable (p : Params) : Option Table := buildRows p (generators p)

/-- `TSTATE <- BROKEN` with a code: the content of the table is unspecified from here on, so it is a free value
(43_generator_table.md R143, 93_implementation_defined.md U1; log 9). -/
def breakTable (c : Code) (s : State) : State :=
  raise c { s with tstate := .broken, table := freeTable s.freeCount, freeCount := s.freeCount + 1 }

/-! ### The hash core -/

/-- `fsToPoint(s, g)` of 44_hash_core.md R172: the sum of 32 window lookups, `none` for NoInverse. -/
def fsToPoint (p : Params) (t : Table) (s : Int) (g : Nat) : Option Point :=
  (List.range numWindows).foldlM
    (fun pt w => pointAdd p pt (tableRead t g w (windowByte (wrapFs p s) w))) idPt

/-- `flush()` of 44_hash_core.md R166, `none` for NO_INVERSE. -/
def flush (p : Params) (t : Table) (u : Session) : Option Session :=
  (fsToPoint p t u.acc.toInt u.genIdx.toNat).bind fun pt =>
    (pointAdd p u.hres pt).map fun h =>
      { u.setHres h with genIdx := u.genIdx + 1, rem := 62, acc := 0, cur := 1 }

/-- Steps 1 to 5 of `step_triple`: the contribution `tmp` of a triple at step scalar `cur`, the sign applied last
(44_hash_core.md R165). -/
def tripleTerm (a b c : Bool) (cur : Int) : Int :=
  let tmp := cur
  let tmp := if a then tmp + cur else tmp
  let cur := 2 * cur
  let tmp := if b then tmp + cur else tmp
  if c then -tmp else tmp

/-- The register updates of `step_triple(a, b, c)`, in exact integers (44_hash_core.md R165, 41_scalar_reduce.md R103); the
registers hold the exact values on every session (10_state.md R41; log 13). -/
def Session.addTriple (a b c : Bool) (u : Session) : Session :=
  let cur : Int := u.cur.toNat
  { u with
    acc := BitVec.ofInt 256 (u.acc.toInt + tripleTerm a b c cur)
    cur := BitVec.ofInt 256 (8 * (2 * cur))
    rem := u.rem - 1
    triples := u.triples + 1 }

/-- `step_triple(a, b, c)` of 44_hash_core.md R165: the updates, and a flush when the chunk is full. -/
def stepTriple (p : Params) (t : Table) (a b c : Bool) (u : Session) : Option Session :=
  if (u.addTriple a b c).rem = 0 then flush p t (u.addTriple a b c) else some (u.addTriple a b c)

/-- `BITBUF <- 0; BITCNT <- 0` (44_hash_core.md R167, R170). -/
def Session.clearBits (u : Session) : Session := { u with bitbuf := 0, bitcnt := 0 }

/-- `BITBUF[BITCNT] <- bit; BITCNT <- BITCNT + 1` (44_hash_core.md R167). -/
def Session.pushBit (u : Session) (b : Bool) : Session :=
  { u with
    bitbuf := if b then u.bitbuf ||| (1#2 <<< u.bitcnt.toNat) else u.bitbuf &&& ~~~ (1#2 <<< u.bitcnt.toNat)
    bitcnt := u.bitcnt + 1 }

/-- One round of ABSORB_BYTE's loop (44_hash_core.md R167). -/
def absorbBit (p : Params) (t : Table) (u : Session) (b : Bool) : Option Session :=
  if u.bitcnt = 2 then (stepTriple p t (u.bufBit 0) (u.bufBit 1) b u).map Session.clearBits
  else some (u.pushBit b)

/-- The eight bits of a byte, bit 0 first (44_hash_core.md R160). -/
def bitsOfByte (m : Nat) : List Bool := (List.range 8).map m.testBit

/-- ABSORB_BYTE's loop over the eight bits (44_hash_core.md R167). -/
def absorbBits (p : Params) (t : Table) (imm8 : Nat) (u : Session) : Option Session :=
  (bitsOfByte imm8).foldlM (absorbBit p t) u

/-- HASH_FINISH's padding of the pending bits to one triple (44_hash_core.md R170). -/
def padTriple (p : Params) (t : Table) (u : Session) : Option Session :=
  if u.bitcnt ≠ 0 then (stepTriple p t (u.bufBit 0) (u.bufBit 1) false u).map Session.clearBits else some u

/-- HASH_FINISH's flush of a chunk that the input ended in (44_hash_core.md R171). -/
def finalFlush (p : Params) (t : Table) (u : Session) : Option Session :=
  if u.rem ≠ 62 then flush p t u else some u

/-- `3*TRIPLES + BITCNT`, the bits absorbed in the session (10_state.md R32). -/
def Session.bitsAbsorbed (u : Session) : Nat := 3 * u.triples.toNat + u.bitcnt.toNat

/-- `fail_session(code)` of 44_hash_core.md R169. Its argument is the state before the command, so every session register
but HRES keeps the value it had there. -/
def failSession (c : Code) (s : State) : State :=
  raise c { s with session := { s.session with hresX := 0, hresY := 0 }, hstate := .failed }

end Sys2Proof.Machine
end

