-- ==== Sys2Proof/Machine/Control.lean ====
section
/-! DEFINITION. Control: NOP and the handling of an illegal word (45_control.md). -/

namespace Sys2Proof.Machine

/-- NOP (45_control.md R200): report success, which clears the code of the previous command. -/
def execNop (s : State) : Result := .next (complete s)

/-- A word that decodes to ILLEGAL (45_control.md R202): ILLEGAL_CMD and no other effect. -/
def performIllegal (s : State) : Result := .next (raise .illegalCmd s)

end Sys2Proof.Machine
end

