-- ==== Sys2Proof/Machine/GeneratorTable.lean ====
section
/-! DEFINITION. The generator table: BUILD_TABLE and TBL_READ (43_generator_table.md R143, R145). -/

namespace Sys2Proof.Machine

/-- BUILD_TABLE (43_generator_table.md R143): once per reset, all generators validated before the construction. -/
def execBuildTable (s : State) : Result :=
  .next <|
    if s.tstate ≠ .empty then raise .tableState s
    else if ¬ validGenerators s.cfg then breakTable .invalidCurvePoint s
    else match buildTable s.cfg with
      | none => breakTable .noInverse s
      | some t => complete { s with table := t, tstate := .ready }

/-- TBL_READ (43_generator_table.md R145): copies `TABLE[G][W][V]` into RES. -/
def execTblRead (g w v : Nat) (s : State) : Result :=
  .next <|
    if s.tstate ≠ .ready then raise .tableNotReady s
    else if g > 4 then raise .badGen s
    else complete (s.setResult (tableRead s.table g w v))

end Sys2Proof.Machine
end

