-- ==== Sys2Proof/Machine/HashCore.lean ====
section
/-! DEFINITION. The hash core's commands (44_hash_core.md R163, R167, R168, R170, R173). -/

namespace Sys2Proof.Machine

open Sys2Proof Config

/-- FS_TO_POINT (44_hash_core.md R173): the session registers are not touched. -/
def execFsToPoint (signed : Bool) (g : Nat) (s : State) : Result :=
  .next <|
    if s.tstate ≠ .ready then raise .tableNotReady s
    else if g > 4 then raise .badGen s
    else match fsToPoint s.cfg s.table (scalarOperand signed s.opaX) g with
      | none => raise .noInverse s
      | some pt => complete (s.setResult pt)

/-- HASH_INIT (44_hash_core.md R163): a fresh session from any HSTATE. -/
def execHashInit (s : State) : Result :=
  .next <|
    if s.tstate ≠ .ready then raise .tableNotReady s
    else complete { s with session := Session.fresh, hstate := .absorb }

/-- ABSORB_BYTE (44_hash_core.md R167): the capacity check of R164 stands before any bit is processed. -/
def execAbsorbByte (imm8 : Nat) (s : State) : Result :=
  .next <|
    if s.hstate ≠ .absorb then raise .badState s
    else if s.session.bitsAbsorbed + 8 > maxBits then failSession .inputTooLong s
    else match absorbBits s.cfg s.table imm8 s.session with
      | none => failSession .noInverse s
      | some u => complete { s with session := u }

/-- ABSORB_TRIPLE (44_hash_core.md R168). -/
def execAbsorbTriple (a b c : Bool) (s : State) : Result :=
  .next <|
    if s.hstate ≠ .absorb then raise .badState s
    else if s.session.bitcnt ≠ 0 then raise .bitAlign s
    else if 3 * s.session.triples.toNat + 3 > maxBits then failSession .inputTooLong s
    else match stepTriple s.cfg s.table a b c s.session with
      | none => failSession .noInverse s
      | some u => complete { s with session := u }

/-- HASH_FINISH (44_hash_core.md R170): pad, flush an unfinished chunk, present the digest. -/
def execHashFinish (s : State) : Result :=
  .next <|
    if s.hstate ≠ .absorb then raise .badState s
    else match (padTriple s.cfg s.table s.session).bind (finalFlush s.cfg s.table) with
      | none => failSession .noInverse s
      | some u => complete { s with session := u, hstate := .done }

end Sys2Proof.Machine
end

