-- ==== Sys2Proof/Machine/PointAdder.lean ====
section
/-! DEFINITION. edwards_point_adder: the PADD command (42_point_adder.md R124). -/

namespace Sys2Proof.Machine

/-- PADD (42_point_adder.md R124), its codes in the order of 60_exceptions.md R213. -/
def execPadd (s : State) : Result :=
  .next <|
    if ¬ (canonical s.opA ∧ canonical s.opB) then raise .operandRange s
    else if ¬ onCurve s.cfg s.opA.x s.opA.y then raise .notOnCurve s
    else if ¬ onCurve s.cfg s.opB.x s.opB.y then raise .notOnCurve s
    else match pointAdd s.cfg s.opA s.opB with
      | none => raise .noInverse s
      | some r => complete (s.setResult r)

end Sys2Proof.Machine
end

