-- ==== Sys2Proof/Machine/ScalarReduce.lean ====
section
/-! DEFINITION. scalar_field_reduce: the WRAP command (41_scalar_reduce.md R101). -/

namespace Sys2Proof.Machine

/-- WRAP (41_scalar_reduce.md R101): `RES_X <- wrapFs(OPA_X)`, RES_Y unchanged, in every table and session state. -/
def execWrap (signed : Bool) (s : State) : Result :=
  .next (complete { s with resX := BitVec.ofNat 256 (wrapFs s.cfg (scalarOperand signed s.opaX)) })

end Sys2Proof.Machine
end

