-- ==== Sys2Proof/Machine/Dispatch.lean ====
section
/-! DEFINITION. The meaning of every command: one arm per constructor of Instr. -/

namespace Sys2Proof.Machine

open Sys2Proof

def exec (i : Instr) (s : State) : Host.Outcome State Fault Refusal :=
  match i with
  | .nop => Sys2Proof.Machine.execNop s
  | .wrap signed => Sys2Proof.Machine.execWrap signed s
  | .padd => Sys2Proof.Machine.execPadd s
  | .buildTable => Sys2Proof.Machine.execBuildTable s
  | .tblRead g w v => Sys2Proof.Machine.execTblRead g w v s
  | .fsToPoint signed g => Sys2Proof.Machine.execFsToPoint signed g s
  | .hashInit => Sys2Proof.Machine.execHashInit s
  | .absorbByte imm8 => Sys2Proof.Machine.execAbsorbByte imm8 s
  | .absorbTriple a b c => Sys2Proof.Machine.execAbsorbTriple a b c s
  | .hashFinish => Sys2Proof.Machine.execHashFinish s

end Sys2Proof.Machine
end

