-- ==== Sys2Proof/Machine/Window.lean ====
section
/-! DEFINITION. The register window: its map and the host's reads and writes (20_memory.md R50 to R55, R58, R63,
30_encoding.md R80). -/

namespace Sys2Proof.Machine

open Sys2Proof

/-- The ID register's hard-wired value (10_state.md R21). -/
def idValue : Word := 0x50484501#32

/-- The 256-bit registers of the window (20_memory.md R51). -/
inductive DataReg where
  | opaX | opaY | opbX | opbY | resX | resY | acc | cur | hresX | hresY
deriving DecidableEq, Repr

/-- The first byte offset of a 256-bit register (20_memory.md R51). -/
def DataReg.offset : DataReg → Nat
  | opaX => 0x020
  | opaY => 0x040
  | opbX => 0x060
  | opbY => 0x080
  | resX => 0x0A0
  | resY => 0x0C0
  | acc => 0x0E0
  | cur => 0x100
  | hresX => 0x120
  | hresY => 0x140

/-- The 256-bit registers in address order. -/
def DataReg.all : List DataReg := [opaX, opaY, opbX, opbY, resX, resY, acc, cur, hresX, hresY]

/-- What stands at an aligned offset of the window (20_memory.md R51). -/
inductive Slot where
  | id | cmd | status | hstat
  | word (r : DataReg) (k : Nat)
  | reserved
deriving DecidableEq, Repr

/-- The window map (20_memory.md R51). -/
def slotAt (off : Nat) : Slot :=
  if off = 0x000 then .id
  else if off = 0x004 then .cmd
  else if off = 0x008 then .status
  else if off = 0x00C then .hstat
  else match DataReg.all.find? (fun r => decide (r.offset ≤ off) && decide (off < r.offset + 32)) with
    | some r => .word r ((off - r.offset) / 4)
    | none => .reserved

/-- A 256-bit register's value. -/
def State.dataReg (s : State) : DataReg → Word256
  | .opaX => s.opaX
  | .opaY => s.opaY
  | .opbX => s.opbX
  | .opbY => s.opbY
  | .resX => s.resX
  | .resY => s.resY
  | .acc => s.session.acc
  | .cur => s.session.cur
  | .hresX => s.session.hresX
  | .hresY => s.session.hresY

/-- The value an aligned read of the window returns (20_memory.md R51, R52, R55). -/
def State.readSlot (s : State) : Slot → Word
  | .id => idValue
  | .cmd => 0
  | .status => s.status
  | .hstat => s.session.hstat
  | .word r k => wordOf (s.dataReg r) k
  | .reserved => 0

/-- A write of a word of an operand register; a write of a read-only register is ignored (20_memory.md R52, R55). -/
def State.writeData (s : State) (k : Nat) (v : Word) : DataReg → State
  | .opaX => { s with opaX := withWord s.opaX k v }
  | .opaY => { s with opaY := withWord s.opaY k v }
  | .opbX => { s with opbX := withWord s.opbX k v }
  | .opbY => { s with opbY := withWord s.opbY k v }
  | .resX | .resY | .acc | .cur | .hresX | .hresY => s

/-- The registers the host may write (20_memory.md R51). -/
def DataReg.isOperand : DataReg → Bool
  | opaX | opaY | opbX | opbY => true
  | resX | resY | acc | cur | hresX | hresY => false

/-- The write is dropped and OVR is set (20_memory.md R63). -/
def State.dropWrite (s : State) : State := { s with ovr := true }

/-- The effect of an aligned write of the window (20_memory.md R52, R55, R58, R63, 30_encoding.md R80, 10_state.md R22). -/
def State.writeSlot (s : State) (v : Word) : Slot → State
  | .cmd => if s.busy then s.dropWrite else { s with pending := v, busy := true }
  | .status => if v.getLsbD 12 then { s with ovr := false } else s
  | .word r k => if r.isOperand ∧ s.busy then s.dropWrite else s.writeData k v r
  | .id | .hstat | .reserved => s

/-- The window's size in bytes (20_memory.md R50). -/
def windowBytes : Nat := 512

/-- An access is a 32-bit one at a multiple of 4 (20_memory.md R54). -/
def alignedWord (addr size : Nat) : Bool := decide (size = 4) && decide (addr % 4 = 0)

/-- The address lies in the register window (20_memory.md R50). -/
def State.inWindow (s : State) (addr : Nat) : Bool :=
  decide (s.cfg.base ≤ addr) && decide (addr < s.cfg.base + windowBytes)

/-- One host access, with the window responding (20_memory.md R51 to R55). A read's value goes to the host. -/
def hostAccess (a : Access) (s : State) : Result :=
  match a with
  | .read addr size =>
    if ¬ alignedWord addr size then .refused .notAlignedWord
    else if ¬ s.inWindow addr then .fault .outsideWindow
    else .next { s with busReads := s.readSlot (slotAt (addr - s.cfg.base)) :: s.busReads }
  | .write addr size v =>
    if ¬ alignedWord addr size then .refused .notAlignedWord
    else if ¬ s.inWindow addr then .fault .outsideWindow
    else .next (s.writeSlot v (slotAt (addr - s.cfg.base)))

end Sys2Proof.Machine
end

