-- ==== Sys2Proof/Machine/Engine.lean ====
section
/-! DEFINITION. The engine's completion step, the reset input and the host's turn (45_control.md R201, R202,
70_reset_and_hazards.md R240 to R242). -/

namespace Sys2Proof.Machine

open Sys2Proof

/-- `BUSY <- 0` at the end of the completion step (45_control.md R201). -/
def clearBusy : Result → Result
  | .next s => .next { s with busy := false }
  | .fault r => .fault r
  | .refused r => .refused r

/-- The completion step: decode PENDING, perform the command, clear BUSY (45_control.md R201, R202). The code is written
by the command's own meaning. -/
def completion (s : State) : Result :=
  match decode s.pending with
  | .ok i => clearBusy (exec i s)
  | .error _ => clearBusy (performIllegal s)

/-- Every piece of the engine's state at its reset value, with the line RST at the given level; the parameters, the
remaining inputs and what the host has read are not the engine's state (70_reset_and_hazards.md R240; log 15). -/
def State.toReset (s : State) (asserted : Bool) : State :=
  { State.reset with
    rst := asserted, cfg := s.cfg, inputs := s.inputs, busReads := s.busReads, freeCount := s.freeCount }

/-- The engine's turn: while RST is asserted the state is the reset state, otherwise the completion step when BUSY = 1
(45_control.md R201), otherwise the engine is idle and keeps all state (60_exceptions.md R225). -/
def engineTurn (s : State) : Result :=
  if s.rst then .next (s.toReset true) else if s.busy then completion s else .next s

/-- One entry of `inputs` happens (log 3). While RST is asserted the window does not respond (70_reset_and_hazards.md
R242). -/
def perform (i : Input) (s : State) : Result :=
  match i with
  | .engine => engineTurn s
  | .reset asserted => .next (s.toReset asserted)
  | .access a => if s.rst then .refused .windowInReset else hostAccess a s

end Sys2Proof.Machine
end

