-- ==== Sys2Proof/Machine/Step.lean ====
section
/-! DEFINITION. One step of the machine, and how a command is put where the next step runs it. -/

namespace Sys2Proof.Machine

open Sys2Proof

/-- One step: the next entry of `inputs` happens; with none left the engine has its turn, so that a pending command is
always completed (45_control.md R201; log 3). -/
def step (s : State) : Host.Outcome State Fault Refusal :=
  match s.inputs with
  | [] => engineTurn s
  | i :: rest => perform i { s with inputs := rest }

/-- `s` with the command word where the next step performs it (log 14): the word is pending (30_encoding.md R80), RST is
released, and the engine has the next turn. -/
def State.withFetchWord (s : State) (nbits w : Nat) : State :=
  { s with pending := wordOfTable nbits w, busy := true, rst := false, inputs := .engine :: s.inputs }

end Sys2Proof.Machine
end

