-- ==== Sys2Proof/Machine/Asm.lean ====
section
/-! DEFINITION. The assembly syntax (30_encoding.md R89): a host-side tool, over lists of characters. -/

namespace Sys2Proof.Machine.Asm

open Sys2Proof

/-- A letter in lower case; mnemonics are case-insensitive (30_encoding.md R89). -/
def lower (c : Char) : Char := if 'A' ≤ c ∧ c ≤ 'Z' then Char.ofNat (c.toNat + 32) else c

/-- A digit's value in a base up to 16. -/
def digit (base : Nat) (c : Char) : Option Nat :=
  let d : Option Nat :=
    if '0' ≤ c ∧ c ≤ '9' then some (c.toNat - 48)
    else if 'a' ≤ c ∧ c ≤ 'f' then some (c.toNat - 87) else none
  d.filter (· < base)

/-- The value of a non-empty digit string. -/
def digits (base : Nat) (cs : List Char) : Option Nat :=
  if cs = [] then none else cs.foldlM (fun n c => (digit base c).map (base * n + ·)) 0

/-- A number, decimal or `0x` hexadecimal (30_encoding.md R89). -/
def number : List Char → Option Nat
  | '0' :: 'x' :: cs => digits 16 cs
  | cs => digits 10 cs

/-- A bit operand, 0 or 1. -/
def bitOf (n : Nat) : Option Bool := if n = 0 then some false else if n = 1 then some true else none

/-- Blanks dropped at both ends (log 20). -/
def trim (cs : List Char) : List Char := ((cs.dropWhile (· = ' ')).reverse.dropWhile (· = ' ')).reverse

/-- The list cut at commas. -/
def splitCommas : List Char → List (List Char)
  | [] => [[]]
  | c :: cs =>
    match splitCommas cs with
    | [] => [[c]]
    | x :: xs => if c = ',' then [] :: x :: xs else (c :: x) :: xs

/-- The operands: numbers between commas (log 20). -/
def operands (cs : List Char) : Option (List Nat) :=
  if trim cs = [] then some [] else ((splitCommas cs).map trim).mapM number

/-- A mnemonic in lower case with its operands (30_encoding.md R89), before the fit of the operands is looked at. -/
def command (m : List Char) (args : List Nat) : Option Instr :=
  match String.ofList m, args with
  | "nop", [] => some .nop
  | "wrap.u", [] => some (.wrap false)
  | "wrap.s", [] => some (.wrap true)
  | "padd", [] => some .padd
  | "build", [] => some .buildTable
  | "tblrd", [g, w, v] => some (.tblRead g w v)
  | "fs2p.u", [g] => some (.fsToPoint false g)
  | "fs2p.s", [g] => some (.fsToPoint true g)
  | "hinit", [] => some .hashInit
  | "abs.b", [imm8] => some (.absorbByte imm8)
  | "abs.t", [a, b, c] => do return .absorbTriple (← bitOf a) (← bitOf b) (← bitOf c)
  | "hfin", [] => some .hashFinish
  | _, _ => none

/-- One line of assembly: the command, refused where an operand does not fit its field (30_encoding.md R89). -/
def assemble (line : List Char) : Option Instr :=
  let cs := trim (line.map lower)
  ((operands (cs.dropWhile (· ≠ ' '))).bind (command (cs.takeWhile (· ≠ ' ')))).filter (·.wf)

/-- The command word of a line of assembly (30_encoding.md R88, R89). -/
def assembleWord (line : List Char) : Option Word := (assemble line).map encode

end Sys2Proof.Machine.Asm
end

