-- ==== Sys2Proof/Machine/BitEncoder.lean ====
section
/-! DEFINITION. The bit encoder of a whole byte buffer and the source's hash of it (44_hash_core.md R160 to R162): what a
session is compared with. The engine itself runs the session commands. -/

namespace Sys2Proof.Machine

open Sys2Proof Config

/-- The bits of a buffer, each byte least significant bit first, then false up to a multiple of 3 (44_hash_core.md
R160, R161). -/
def paddedBits (m : List Nat) : List Bool :=
  m.flatMap bitsOfByte ++ List.replicate ((3 - 8 * m.length % 3) % 3) false

/-- The triples of a bit sequence in order (44_hash_core.md R161). -/
def triplesOf : List Bool → List (Bool × Bool × Bool)
  | a :: b :: c :: rest => (a, b, c) :: triplesOf rest
  | _ => []

/-- The source's loop over triples from a given session (44_hash_core.md R165). -/
def stepTriples (p : Params) (t : Table) (ts : List (Bool × Bool × Bool)) (u : Session) : Option Session :=
  ts.foldlM (fun u x => stepTriple p t x.1 x.2.1 x.2.2 u) u

/-- The source's hash of a buffer: Initialization, every triple, the final flush (44_hash_core.md R162, R163, R165,
R171). -/
def hashBuffer (p : Params) (t : Table) (m : List Nat) : Option Session :=
  (stepTriples p t (triplesOf (paddedBits m)) Session.fresh).bind (finalFlush p t)

end Sys2Proof.Machine
end

