-- ==== Sys2Proof/Machine/HostProgram.lean ====
section
/-! DEFINITION. The host's operations and pseudo-instructions (30_encoding.md R90), what they do on the machine, and a run of
commands one after another (10_state.md R24). -/

namespace Sys2Proof.Machine

open Sys2Proof

/-- What follows an answer: `f` goes on from a next state, and a stop stays. -/
def andThen {α β : Type} (r : Host.Outcome α Fault Refusal) (f : α → Host.Outcome β Fault Refusal) :
    Host.Outcome β Fault Refusal :=
  match r with
  | .next a => f a
  | .fault e => .fault e
  | .refused e => .refused e

namespace HostProgram

/-! ### The operations -/

/-- What a host program is made of: the two host-side operations of 30_encoding.md R90 and WAIT. Only WAIT depends on what it
reads; every other row of R90's table is a list of these. -/
inductive Op where
  /-- `wr off, v`. -/
  | wr (off : Nat) (v : Word)
  /-- `rd off`. -/
  | rd (off : Nat)
  /-- `WAIT`. -/
  | wait
deriving DecidableEq, Repr

/-- `ISSUE c` (30_encoding.md R90). -/
def issue (c : Instr) : List Op := [.wait, .wr 0x004 (encode c)]

/-- `DO c` (30_encoding.md R90). -/
def doCmd (c : Instr) : List Op := issue c ++ [.wait]

/-- `LD256 reg, v` (30_encoding.md R90). -/
def ld256 (r : DataReg) (v : Word256) : List Op :=
  .wait :: (List.range 8).map fun k => .wr (r.offset + 4 * k) (wordOf v k)

/-- `RD256 reg` (30_encoding.md R90). -/
def rd256 (r : DataReg) : List Op := (List.range 8).map fun k => .rd (r.offset + 4 * k)

/-- `CLROVR` (30_encoding.md R90). -/
def clrOvr : List Op := [.wr 0x008 0x00001000#32]

/-- The commands of a session over a buffer: HASH_INIT, one ABSORB_BYTE per byte, HASH_FINISH (44_hash_core.md R162). -/
def session (m : List Nat) : List Instr := .hashInit :: (m.map .absorbByte ++ [.hashFinish])

/-- One `DO` a command, in order. -/
def doAll (cs : List Instr) : List Op := cs.flatMap doCmd

/-- `HASH b0, …` (30_encoding.md R90). -/
def hash (m : List Nat) : List Op := doAll (session m)

/-! ### What they do -/

/-- Whether the engine has its turn just before the host's next access, the one after it, and so on. Past the end it has its
turn before every access, so a command is always completed (45_control.md R201; log 21). -/
abbrev Schedule := List Bool

/-- The machine in the middle of a host program, with what is left of the schedule. -/
structure Running where
  schedule : Schedule
  state : State
deriving DecidableEq, Repr

/-- How a part of a host program ends. -/
abbrev Progress := Host.Outcome Running Fault Refusal

/-- One access of the host, with the engine's turn just before it where `turn` says so (20_memory.md R60). -/
def access (turn : Bool) (a : Access) (s : State) : Result :=
  andThen (if turn then perform .engine s else .next s) (perform (.access a))

/-- The value the host's last read returned (log 4). -/
def lastRead (s : State) : Word := s.busReads.headD 0

/-- One read of STATUS, `rd 0x008`. -/
def poll (turn : Bool) (s : State) : Result := access turn (.read (s.cfg.base + 0x008) 4) s

/-- `WAIT`: repeat `rd 0x008` until bit 0 of the value read is 0 (30_encoding.md R90). Past the schedule's end the engine has
had its turn before the poll, so that poll is the last. -/
def wait : Schedule → State → Progress
  | [], s => andThen (poll true s) fun t => .next ⟨[], t⟩
  | turn :: sch, s => andThen (poll turn s) fun t => if (lastRead t).getLsbD 0 then wait sch t else .next ⟨sch, t⟩

/-- One operation (30_encoding.md R90). -/
def performOp (o : Op) (sch : Schedule) (s : State) : Progress :=
  match o with
  | .wr off v => andThen (access (sch.headD true) (.write (s.cfg.base + off) 4 v) s) fun t => .next ⟨sch.tail, t⟩
  | .rd off => andThen (access (sch.headD true) (.read (s.cfg.base + off) 4) s) fun t => .next ⟨sch.tail, t⟩
  | .wait => wait sch s

/-- A host program, one operation after another. -/
def run : List Op → Schedule → State → Progress
  | [], sch, s => .next ⟨sch, s⟩
  | o :: os, sch, s => andThen (performOp o sch s) fun r => run os r.schedule r.state

/-- Words joined, least significant first. -/
def join256 : List Word → Word256
  | [] => 0
  | w :: ws => w.setWidth 256 ||| (join256 ws <<< 32)

/-- The value of `RD256` that has just been run: its eight words, assembled least significant word first (30_encoding.md
R90). -/
def assembled (s : State) : Word256 := join256 (s.busReads.take 8).reverse

end HostProgram

/-- Commands performed one after another, in the order of their CMD writes (10_state.md R24). -/
def execAll : List Instr → State → Result
  | [], s => .next s
  | i :: is, s => andThen (exec i s) (execAll is)

end Sys2Proof.Machine
end

