-- ==== Sys2Proof/Safety.lean ====
section
/-! DEFINITION. The terms the claims use: the invariants of the registers and of the table, the codes' causes, the moments at
which the engine moves, and the host programs that wait as they must. -/

namespace Sys2Proof.Machine

open Sys2Proof Config

/-! ### The scalar path -/

/-- `e(a, b, c) = (1 + a + 2b) * (c = 1 ? -1 : 1)` (44_hash_core.md R165). -/
def tripleWeight (a b c : Bool) : Int := (1 + a.toNat + 2 * b.toNat) * (if c then -1 else 1)

/-- `sum_j e_j * 16^j` (10_state.md R41). -/
def hexSum : List Int → Int
  | [] => 0
  | e :: es => e + 16 * hexSum es

/-- The values a triple's weight takes (10_state.md R41). -/
def weights : List Int := [1, 2, 3, 4, -1, -2, -3, -4]

/-- The invariants of 10_state.md R41 with the ranges of R29 to R32: what the session registers satisfy between
commands. -/
structure SessionInv (u : Session) : Prop where
  genIdx_le : u.genIdx.toNat ≤ 5
  rem_range : 1 ≤ u.rem.toNat ∧ u.rem.toNat ≤ 62
  triples_eq : u.genIdx.toNat * 62 + (62 - u.rem.toNat) = u.triples.toNat
  cur_eq : u.cur.toNat = 16 ^ (62 - u.rem.toNat)
  acc_eq : ∃ es : List Int, es.length = 62 - u.rem.toNat ∧ (∀ e ∈ es, e ∈ weights) ∧ u.acc.toInt = hexSum es
  bitcnt_le : u.bitcnt.toNat ≤ 2
  bitbuf_zero : ∀ i, u.bitcnt.toNat ≤ i → u.bitbuf.getLsbD i = false
  bits_le : u.bitsAbsorbed ≤ 930

/-! ### The table -/

/-- Entry `(g, w, v)` of a table, `none` outside its shape (20_memory.md R56). -/
def entry (t : Table) (g w v : Nat) : Option Point := (t[g]?.bind (·[w]?)).bind (·[v]?)

/-- The shape 5 × 32 × 256, every point canonical (20_memory.md R56, 42_point_adder.md R121). -/
def tableWf (t : Table) : Bool :=
  t.length == numGens && t.all fun row => row.length == numWindows && row.all fun win =>
    win.length == windowSize && win.all canonical

/-- What 43_generator_table.md R142 says of the entries of a finished table, entry by entry: entry 0 is the identity,
entry `v + 1` is entry `v` plus the window's unit step, window 0's step is the generator, and the step of window `w + 1`
is 256 times that of window `w`. Entry 1 of a window is its unit step. -/
structure TableBuilt (p : Params) (t : Table) : Prop where
  zero : ∀ g w, g < 5 → w < 32 → entry t g w 0 = some idPt
  first : ∀ g, g < 5 → entry t g 0 1 = (generators p)[g]?
  next : ∀ g w v, g < 5 → w < 32 → v < 255 →
    ∃ e step e', entry t g w v = some e ∧ entry t g w 1 = some step ∧ entry t g w (v + 1) = some e' ∧
      pointAdd p e step = some e'
  window : ∀ g w, g < 5 → w < 31 →
    ∃ e step step', entry t g w 255 = some e ∧ entry t g w 1 = some step ∧ entry t g (w + 1) 1 = some step' ∧
      pointAdd p e step = some step'

/-! ### The invariant of the machine -/

/-- What every step keeps: the registers' invariants by session state (10_state.md R33, R41, 44_hash_core.md R169), a READY
table is the table of the configuration (R37), a session implies READY (44_hash_core.md R166), and while RST is asserted
the engine is in its reset state (70_reset_and_hazards.md R240). That the reset state has PENDING 0 and TABLE empty is the
model's choice (logs 7, 8), as are the level of RST as a field (log 15) and the method by which `buildTable` computes
`256 * step` (log 10). -/
structure State.Inv (s : State) : Prop where
  idle : s.hstate = .idle → s.session = Session.fresh
  running : s.hstate = .absorb ∨ s.hstate = .failed → SessionInv s.session
  done : s.hstate = .done → s.session.genIdx.toNat ≤ 5 ∧ s.session.rem = 62 ∧ s.session.acc = 0 ∧ s.session.cur = 1 ∧
    s.session.bitcnt = 0 ∧ s.session.bitbuf = 0 ∧ s.session.triples.toNat ≤ 310
  digest : s.hstate = .absorb ∨ s.hstate = .done → s.session.hresX.toNat < P ∧ s.session.hresY.toNat < P
  failed : s.hstate = .failed → s.session.hresX = 0 ∧ s.session.hresY = 0
  ready : s.hstate ≠ .idle → s.tstate = .ready
  table : s.tstate = .ready → validGenerators s.cfg = true ∧ buildTable s.cfg = some s.table
  reset : s.rst = true → s = s.toReset true

/-- The points of a machine whose configuration satisfies D_NONSQUARE are on the curve: the table's, and the result of a
session, while it runs and as the digest in DONE. -/
structure State.CurveInv (s : State) : Prop where
  nonsquare : s.cfg.DNonsquare
  table : s.tstate = .ready → validGenerators s.cfg = true ∧ buildTable s.cfg = some s.table
  ready : s.hstate = .absorb → s.tstate = .ready
  result : s.hstate = .absorb ∨ s.hstate = .done → canonical s.session.hres = true ∧
    onCurve s.cfg s.session.hres.x s.session.hres.y = true
  session : s.hstate = .absorb → SessionInv s.session

/-! ### Result codes -/

/-- The columns "cause" and "raised by" of 60_exceptions.md R210 for the eleven codes that are raised: command `i` has the
cause of the code when it starts in state `s`. The zero denominator of NO_INVERSE is met in the additions the command makes;
BUILD_TABLE's are those of the model's way of computing `256 * step` (log 10).
An ILLEGAL word is no command, so no command has the cause of ILLEGAL_CMD. -/
def Code.hasCause (c : Code) (i : Instr) (s : State) : Prop :=
  match c with
  | ok => False
  | illegalCmd => False
  | tableNotReady =>
    s.tstate ≠ .ready ∧ ((∃ g w v, i = .tblRead g w v) ∨ (∃ b g, i = .fsToPoint b g) ∨ i = .hashInit)
  | tableState => s.tstate ≠ .empty ∧ i = .buildTable
  | invalidCurvePoint => i = .buildTable ∧ ∃ g ∈ s.cfg.gen.toList,
    onCurve s.cfg g.1 g.2 = false ∨ ¬ (0 ≤ g.1 ∧ g.1 < P ∧ 0 ≤ g.2 ∧ g.2 < P)
  | inputTooLong =>
    (930 < 3 * s.session.triples.toNat + s.session.bitcnt.toNat + 8 ∧ ∃ b, i = .absorbByte b) ∨
    (930 < 3 * s.session.triples.toNat + s.session.bitcnt.toNat + 3 ∧ ∃ x y z, i = .absorbTriple x y z)
  | badState =>
    s.hstate ≠ .absorb ∧ ((∃ b, i = .absorbByte b) ∨ (∃ x y z, i = .absorbTriple x y z) ∨ i = .hashFinish)
  | bitAlign => s.session.bitcnt ≠ 0 ∧ ∃ x y z, i = .absorbTriple x y z
  | badGen => ∃ g, (g = 5 ∨ g = 6 ∨ g = 7) ∧ ((∃ w v, i = .tblRead g w v) ∨ ∃ b, i = .fsToPoint b g)
  | operandRange => i = .padd ∧
    (P ≤ s.opaX.toNat ∨ P ≤ s.opaY.toNat ∨ P ≤ s.opbX.toNat ∨ P ≤ s.opbY.toNat)
  | notOnCurve => i = .padd ∧
    (onCurve s.cfg s.opaX.toNat s.opaY.toNat = false ∨ onCurve s.cfg s.opbX.toNat s.opbY.toNat = false)
  | noInverse =>
    (i = .padd ∧ pointAdd s.cfg s.opA s.opB = none) ∨
    (i = .buildTable ∧ buildTable s.cfg = none) ∨
    (∃ b g, i = .fsToPoint b g ∧ fsToPoint s.cfg s.table (scalarOperand b s.opaX) g = none) ∨
    (∃ b, i = .absorbByte b ∧ absorbBits s.cfg s.table b s.session = none) ∨
    (∃ x y z, i = .absorbTriple x y z ∧ stepTriple s.cfg s.table x y z s.session = none) ∨
    (i = .hashFinish ∧ (padTriple s.cfg s.table s.session).bind (finalFlush s.cfg s.table) = none)

/-- What a command's code says of the state it started in (60_exceptions.md R210): OK that no other code had a cause, and a
raised code that it had its own. -/
def Code.causedBy (c : Code) (i : Instr) (s : State) : Prop :=
  (c = .ok → ∀ e : Code, ¬ e.hasCause i s) ∧ (c ≠ .ok → c.hasCause i s)

/-! ### Turns -/

/-- The next step is the engine's turn, RST not asserted (45_control.md R201). -/
def State.engineMoves (s : State) : Prop := s.rst = false ∧ (s.inputs = [] ∨ s.inputs.head? = some .engine)

/-- The next step is the access `a` of the host, RST not asserted (20_memory.md R60). -/
def State.hostMoves (s : State) (a : Access) : Prop := s.rst = false ∧ s.inputs.head? = some (.access a)

/-- The state with its first input taken. -/
def State.rest (s : State) : State := { s with inputs := s.inputs.tail }

/-- The commands that only use the session's surroundings (44_hash_core.md R176). -/
def standalone : Instr → Bool
  | .nop | .wrap _ | .padd | .tblRead _ _ _ | .fsToPoint _ _ => true
  | .buildTable | .hashInit | .absorbByte _ | .absorbTriple _ _ _ | .hashFinish => false

/-! ### Hosts that wait -/

/-- The access writes CMD or a word of an operand register (20_memory.md R63). -/
def needsIdle (base : Nat) : Access → Bool
  | .read _ _ => false
  | .write addr _ _ =>
    match slotAt (addr - base) with
    | .cmd => true
    | .word r _ => r.isOperand
    | _ => false

/-- The access is a write of CMD. -/
def issues (base : Nat) : Access → Bool
  | .read _ _ => false
  | .write addr _ _ => slotAt (addr - base) == .cmd

/-- The host writes CMD and operand words only when no command can be in flight: `busy` says whether one can
(70_reset_and_hazards.md R250, R251). -/
def waits (base : Nat) : (busy : Bool) → List Input → Bool
  | _, [] => true
  | _, .engine :: is => waits base false is
  | _, .reset _ :: is => waits base false is
  | busy, .access a :: is => !(needsIdle base a && busy) && waits base (busy || issues base a) is

end Sys2Proof.Machine
end

