-- ==== Sys2Proof/Certificates/Slice0/Obligations.lean ====
section
/-! DEFINITION. The statements for the provers. `s.rest` is `s` with its first input taken. -/

open Sys2Proof Sys2Proof.Machine Sys2Proof.Config

/-! ### Encoding -/

/-- 30_encoding.md R88: the words as numbers, field by field (so every reserved bit is 0), and decode after encode. -/
def Obligations.EncodeThenDecode : Prop :=
  (encode .nop).toNat = 0x00 ∧
  (∀ s : Bool, (encode (.wrap s)).toNat = s.toNat * 2 ^ 8 + 0x01) ∧
  (encode .padd).toNat = 0x02 ∧
  (encode .buildTable).toNat = 0x03 ∧
  (∀ g w v, g < 8 → w < 32 → v < 256 →
    (encode (.tblRead g w v)).toNat = v * 2 ^ 24 + w * 2 ^ 16 + g * 2 ^ 12 + 0x04) ∧
  (∀ (s : Bool) g, g < 8 → (encode (.fsToPoint s g)).toNat = g * 2 ^ 12 + s.toNat * 2 ^ 8 + 0x05) ∧
  (encode .hashInit).toNat = 0x06 ∧
  (∀ b, b < 256 → (encode (.absorbByte b)).toNat = b * 2 ^ 8 + 0x07) ∧
  (∀ a b c : Bool, (encode (.absorbTriple a b c)).toNat =
    c.toNat * 2 ^ 10 + b.toNat * 2 ^ 9 + a.toNat * 2 ^ 8 + 0x08) ∧
  (encode .hashFinish).toNat = 0x09 ∧
  ∀ i : Instr, i.wf = true → decode (encode i) = .ok i

/-- 30_encoding.md R84, R85, R87: a word that decodes is the word of its command, so no bit of it is dropped, and the
command's operands fit. -/
def Obligations.DecodeThenEncode : Prop :=
  ∀ (w : Word) (i : Instr), decode w = .ok i → i.wf = true ∧ encode i = w

/-- Words of every family, written out from 30_encoding.md R82, R84 (95_test_vectors.md section 3). -/
def Obligations.SampleWordsDecode : Prop :=
  decode 0x00000000#32 = .ok .nop ∧ decode 0x00000101#32 = .ok (.wrap true) ∧ decode 0x00000002#32 = .ok .padd ∧
  decode 0x00000003#32 = .ok .buildTable ∧ decode 0x0F1F4004#32 = .ok (.tblRead 4 31 15) ∧
  decode 0x00004105#32 = .ok (.fsToPoint true 4) ∧ decode 0x00000006#32 = .ok .hashInit ∧
  decode 0x00009007#32 = .ok (.absorbByte 0x90) ∧ decode 0x00000208#32 = .ok (.absorbTriple false true false) ∧
  decode 0x00000009#32 = .ok .hashFinish

/-- 30_encoding.md R86: the opcodes 0x0A to 0xFF are illegal, raise ILLEGAL_CMD when performed and do nothing else; only
the word 0 is NOP. -/
def Obligations.ReservedOpcodesAreIllegal : Prop :=
  (∀ w : Word, 0x0A ≤ w.toNat % 256 → decode w = .error .reservedOpcode ∧
    ∀ s : State, s.engineMoves → s.busy = true → s.pending = w →
      step s = .next { s.rest with err := .illegalCmd, busy := false }) ∧
  ∀ w : Word, decode w = .ok .nop ↔ w = 0

/-- 30_encoding.md R87, with the reserved bits of each format as R82 draws them: a mapped opcode with one of them set is
illegal, and with none of them set it is a command. -/
def Obligations.ReservedBitsAreIllegal : Prop :=
  (∀ w reserved : Word,
    ([0xFFFFFF00#32, 0xFFFFFE00#32, 0xFFFFFF00#32, 0xFFFFFF00#32, 0x00E08F00#32, 0xFFFF8E00#32, 0xFFFFFF00#32,
      0xFFFF0000#32, 0xFFFFF800#32, 0xFFFFFF00#32] : List Word)[w.toNat % 256]? = some reserved →
    (w &&& reserved ≠ 0 → decode w = .error .reservedBit ∧
      ∀ s : State, s.engineMoves → s.busy = true → s.pending = w →
        step s = .next { s.rest with err := .illegalCmd, busy := false }) ∧
    (w &&& reserved = 0 → ∃ i, decode w = .ok i)) ∧
  decode 0x00000100#32 = .error .reservedBit ∧ decode 0x00010007#32 = .error .reservedBit

/-! ### The engine's step -/

/-- 45_control.md R201: at the engine's turn with BUSY = 1 a pending word that decodes is performed and BUSY cleared; the
same of a word that `withFetchWord` places (the model's own operation, log 14). -/
def Obligations.StepRunsDecodedCommand : Prop :=
  (∀ (s : State) (i : Instr), s.engineMoves → s.busy = true → decode s.pending = .ok i →
    step s = clearBusy (exec i s.rest)) ∧
  ∀ (s : State) (w : Word) (i : Instr), decode w = .ok i →
    step (s.withFetchWord 32 w.toNat) = clearBusy (exec i { s with pending := w, busy := true, rst := false })

/-- 45_control.md R202: an ILLEGAL word completes with ILLEGAL_CMD and no other effect, and the next CMD write is accepted
as usual. -/
def Obligations.IllegalWordCompletes : Prop :=
  ∀ (s : State) (e : Illegal), s.engineMoves → s.busy = true → decode s.pending = .error e →
    step s = .next { s.rest with err := .illegalCmd, busy := false } ∧
    ∀ v : Word, hostAccess (.write (s.cfg.base + 0x004) 4 v) { s.rest with err := .illegalCmd, busy := false } =
      .next { s.rest with err := .illegalCmd, busy := true, pending := v }

/-- 60_exceptions.md R225: with BUSY = 0 the engine's turn keeps all state. -/
def Obligations.IdleEngineKeepsState : Prop :=
  ∀ s : State, s.engineMoves → s.busy = false → step s = .next s.rest

/-- 45_control.md R201, R252: whatever the host does first and however long the engine takes, a run that gets past the
inputs has no command in flight. That the engine's turn comes when the inputs are used up is the model's form of R201's
fairness (log 3). -/
def Obligations.PendingCommandCompletes : Prop :=
  ∀ s t : State, Host.Core.run Sys2Proof.core (s.inputs.length + 1) s = .next t → t.busy = false

/-- 60_exceptions.md R214, 20_memory.md R54, 70_reset_and_hazards.md R242: the engine itself never stops; a step that is no
next state is a host access outside the window (the model's choice, log 6), not an aligned word, or made while RST is
asserted. -/
def Obligations.OnlyHostAccessesStop : Prop :=
  (∀ (i : Instr) (s : State), ∃ t, exec i s = .next t) ∧
  ∀ s : State, (∃ t, step s = .next t) ∨ ∃ a, s.inputs.head? = some (.access a) ∧
    ∃ addr size, (a = .read addr size ∨ ∃ v, a = .write addr size v) ∧
      (s.rst = true ∨ size ≠ 4 ∨ addr % 4 ≠ 0 ∨ addr < s.cfg.base ∨ s.cfg.base + 512 ≤ addr)

/-! ### The register window -/

/-- 30_encoding.md R80. -/
def Obligations.CmdWriteIssues : Prop :=
  ∀ (s : State) (word : Word), s.hostMoves (.write (s.cfg.base + 0x004) 4 word) →
    (s.busy = true → step s = .next { s.rest with ovr := true }) ∧
    (s.busy = false → step s = .next { s.rest with pending := word, busy := true })

/-- 20_memory.md R63: while BUSY = 1 a write of CMD or of any word of the operand registers is dropped and sets OVR;
reads and writes of STATUS are performed as usual. -/
def Obligations.BusyDropsWrites : Prop :=
  ∀ s : State, s.busy = true →
    (∀ off v, (off = 0x004 ∨ 0x020 ≤ off ∧ off < 0x0A0 ∧ off % 4 = 0) →
      s.hostMoves (.write (s.cfg.base + off) 4 v) → step s = .next { s.rest with ovr := true }) ∧
    (∀ off, off < 512 → off % 4 = 0 → s.hostMoves (.read (s.cfg.base + off) 4) →
      step s = .next { s.rest with busReads := s.readSlot (slotAt off) :: s.busReads }) ∧
    (∀ v : Word, s.hostMoves (.write (s.cfg.base + 0x008) 4 v) →
      step s = .next { s.rest with ovr := s.ovr && !v.getLsbD 12 })

/-- 20_memory.md R52: a read of word `k` returns `X[32k+31:32k]`; a write with BUSY = 0 changes that word of an operand
register, and nothing else. The place of each register, which of them the host may write, and the field that holds it stand
first (20_memory.md R51, 10_state.md R25 to R28, R33). -/
def Obligations.DataRegisterWords : Prop :=
  (∀ (s : State) (r : DataReg), (r.offset, r.isOperand, s.dataReg r) = match r with
    | .opaX => (0x020, true, s.opaX)
    | .opaY => (0x040, true, s.opaY)
    | .opbX => (0x060, true, s.opbX)
    | .opbY => (0x080, true, s.opbY)
    | .resX => (0x0A0, false, s.resX)
    | .resY => (0x0C0, false, s.resY)
    | .acc => (0x0E0, false, s.session.acc)
    | .cur => (0x100, false, s.session.cur)
    | .hresX => (0x120, false, s.session.hresX)
    | .hresY => (0x140, false, s.session.hresY)) ∧
  (∀ (s : State) (r : DataReg) (k : Nat), k < 8 → s.hostMoves (.read (s.cfg.base + (r.offset + 4 * k)) 4) →
    step s = .next { s.rest with busReads := (s.dataReg r).extractLsb' (32 * k) 32 :: s.busReads }) ∧
  ∀ (s : State) (r : DataReg) (k : Nat) (v : Word), k < 8 → r.isOperand = true → s.busy = false →
    s.hostMoves (.write (s.cfg.base + (r.offset + 4 * k)) 4 v) →
    ∃ t, step s = .next t ∧
      (∀ j, j < 8 → (t.dataReg r).extractLsb' (32 * j) 32 = if j = k then v else (s.dataReg r).extractLsb' (32 * j) 32) ∧
      (∀ r', r' ≠ r → t.dataReg r' = s.dataReg r') ∧
      t = { s.rest with opaX := t.opaX, opaY := t.opaY, opbX := t.opbX, opbY := t.opbY }

/-- 20_memory.md R54: an access of another width or at a misaligned address has no step; an aligned 32-bit access to the
window has one. -/
def Obligations.OnlyAlignedWordAccesses : Prop :=
  ∀ (s : State) (addr size : Nat) (a : Access), (a = .read addr size ∨ ∃ v, a = .write addr size v) → s.hostMoves a →
    ((size ≠ 4 ∨ addr % 4 ≠ 0) → step s = .refused .notAlignedWord) ∧
    (size = 4 → addr % 4 = 0 → s.cfg.base ≤ addr → addr < s.cfg.base + 512 → ∃ t, step s = .next t)

/-- 20_memory.md R55: reserved offsets, read-only registers and reads of CMD; none of the accesses changes state. -/
def Obligations.ReservedAndReadOnlyOffsets : Prop :=
  (∀ (s : State) (off : Nat), off % 4 = 0 → (off = 0x004 ∨ 0x010 ≤ off ∧ off < 0x020 ∨ 0x160 ≤ off ∧ off < 0x200) →
    s.hostMoves (.read (s.cfg.base + off) 4) → step s = .next { s.rest with busReads := 0 :: s.busReads }) ∧
  ∀ (s : State) (off : Nat) (v : Word), off % 4 = 0 →
    (off = 0x000 ∨ off = 0x00C ∨ 0x010 ≤ off ∧ off < 0x020 ∨ 0x0A0 ≤ off ∧ off < 0x200) →
    s.hostMoves (.write (s.cfg.base + off) 4 v) → step s = .next s.rest

/-- 10_state.md R22: the fields of STATUS, its read, and its write, which acts on OVR alone in every state. 60_exceptions.md
R210: the number of each code, and that the completion of every command writes one of them: OK exactly when no other code has
a cause, and otherwise a code that has its cause. That OK excludes every cause is inferred from R210 with the check orders of
R213. Whether BUILD_TABLE ends with NO_INVERSE or OK is decided with the model's way of computing `256 * step`, which R142
leaves open: the model's choice, which matters only without D_NONSQUARE (log 10). -/
def Obligations.StatusFields : Prop :=
  (∀ s : State, s.status.getLsbD 0 = s.busy ∧
    s.status.extractLsb' 1 2 = (match s.tstate with | .empty => 0#2 | .ready => 1#2 | .broken => 2#2) ∧
    s.status.getLsbD 3 = false ∧
    s.status.extractLsb' 4 2 = (match s.hstate with | .idle => 0#2 | .absorb => 1#2 | .done => 2#2 | .failed => 3#2) ∧
    s.status.extractLsb' 6 2 = 0 ∧
    s.status.extractLsb' 8 4 = (match s.err with
      | .ok => 0#4 | .illegalCmd => 1#4 | .tableNotReady => 2#4 | .tableState => 3#4 | .invalidCurvePoint => 4#4
      | .inputTooLong => 5#4 | .badState => 6#4 | .bitAlign => 7#4 | .badGen => 8#4 | .operandRange => 9#4
      | .notOnCurve => 10#4 | .noInverse => 11#4) ∧
    (s.status.extractLsb' 8 4).toNat < 12 ∧
    s.status.getLsbD 12 = s.ovr ∧ s.status.extractLsb' 13 19 = 0) ∧
  (∀ s : State, s.hostMoves (.read (s.cfg.base + 0x008) 4) →
    step s = .next { s.rest with busReads := s.status :: s.busReads }) ∧
  (∀ (s : State) (v : Word), s.hostMoves (.write (s.cfg.base + 0x008) 4 v) →
    step s = .next { s.rest with ovr := if v.getLsbD 12 then false else s.ovr }) ∧
  State.reset.status = 0 ∧
  ∀ s : State, s.engineMoves → s.busy = true → ∃ t : State, step s = .next t ∧ t.busy = false ∧
    match decode s.pending with
    | .error _ => t.err = .illegalCmd
    | .ok i => t.err.causedBy i s

/-- 10_state.md R23 and R31: the fields of HSTAT, its read, and its value at reset. -/
def Obligations.HstatFields : Prop :=
  (∀ u : Session, u.hstat.extractLsb' 0 3 = u.genIdx ∧ u.hstat.extractLsb' 3 6 = u.rem ∧
    u.hstat.extractLsb' 9 2 = u.bitcnt ∧
    u.hstat.getLsbD 11 = (decide (0 < u.bitcnt.toNat) && u.bitbuf.getLsbD 0) ∧
    u.hstat.getLsbD 12 = (decide (1 < u.bitcnt.toNat) && u.bitbuf.getLsbD 1) ∧
    u.hstat.extractLsb' 13 9 = u.triples ∧ u.hstat.extractLsb' 22 10 = 0) ∧
  (∀ s : State, s.hostMoves (.read (s.cfg.base + 0x00C) 4) →
    step s = .next { s.rest with busReads := s.session.hstat :: s.busReads }) ∧
  State.reset.session.hstat = 0x000001F0#32

/-- 10_state.md R21: ID reads its constant in every state, and a write of it is ignored. -/
def Obligations.IdIsConstant : Prop :=
  (∀ s : State, s.hostMoves (.read s.cfg.base 4) →
    step s = .next { s.rest with busReads := 0x50484501#32 :: s.busReads }) ∧
  ∀ (s : State) (v : Word), s.hostMoves (.write s.cfg.base 4 v) → step s = .next s.rest

/-! ### Reset -/

/-- 10_state.md R40, 70_reset_and_hazards.md R241: an edge of RST in any state, also while BUSY = 1, leaves the reset
values and no code; the state after reset has them too. PENDING and TABLE are unspecified, so nothing is said of them. -/
def Obligations.ResetRestoresEveryRegister : Prop :=
  ∀ t : State, (t = State.reset ∨ ∃ (s : State) (b : Bool) (is : List Input), s.inputs = .reset b :: is ∧
      step s = .next t) →
    t.status = 0x00000000#32 ∧ t.session.hstat = 0x000001F0#32 ∧ t.busy = false ∧ t.tstate = .empty ∧ t.hstate = .idle ∧
    t.err = .ok ∧ t.ovr = false ∧ t.opaX = 0 ∧ t.opaY = 0 ∧ t.opbX = 0 ∧ t.opbY = 0 ∧ t.resX = 0 ∧ t.resY = 0 ∧
    t.session.acc = 0 ∧ t.session.cur = 1 ∧ t.session.genIdx = 0 ∧ t.session.bitcnt = 0 ∧ t.session.bitbuf = 0 ∧
    t.session.triples = 0 ∧ t.session.rem.toNat = 62 ∧ t.session.hresX = 0 ∧ t.session.hresY = 1 ∧
    t.readSlot (slotAt 0x000) = 0x50484501#32

/-- 70_reset_and_hazards.md R242: while RST is asserted an access has no step; after its release it is performed. -/
def Obligations.WindowSilentInReset : Prop :=
  (∀ (s : State) (a : Access), s.rst = true → s.inputs.head? = some (.access a) →
    step s = .refused .windowInReset) ∧
  ∀ (s : State) (a : Access) (is : List Input), s.inputs = .reset false :: .access a :: is →
    ∃ t, step s = .next t ∧ step t = hostAccess a { t with inputs := is }

/-- 70_reset_and_hazards.md R240: no step changes the parameters, reset included. -/
def Obligations.ParametersNeverChange : Prop :=
  ∀ s t : State, step s = .next t → t.cfg = s.cfg

/-! ### Control and scalar_field_reduce -/

/-- 45_control.md R200: NOP in every state; its word is 0 exactly, and every other word of its opcode is illegal and raises
ILLEGAL_CMD when performed. -/
def Obligations.NopReportsSuccess : Prop :=
  decode 0x00000000#32 = .ok .nop ∧
  (∀ s : State, exec .nop s = .next { s with err := .ok }) ∧
  ∀ w : Word, w.toNat % 256 = 0 → w ≠ 0 → (∃ e, decode w = .error e) ∧
    ∀ s : State, s.engineMoves → s.busy = true → s.pending = w →
      step s = .next { s.rest with err := .illegalCmd, busy := false }

/-- 41_scalar_reduce.md R101: WRAP writes the residue mod N of OPA_X read as S says, in every state. -/
def Obligations.WrapWritesResidue : Prop :=
  ∀ (signed : Bool) (s : State), ∃ r : Nat,
    r < s.cfg.N ∧ r < 2 ^ 256 ∧
    (s.cfg.N : Int) ∣ (if signed then s.opaX.toInt else (s.opaX.toNat : Int)) - r ∧
    exec (.wrap signed) s = .next { s with resX := BitVec.ofNat 256 r, err := .ok }

/-- 41_scalar_reduce.md R102: the two laws of wrapFs, and WRAP.U of a result. -/
def Obligations.WrapLaws : Prop :=
  (∀ (p : Params) (x : Int), wrapFs p (wrapFs p x) = wrapFs p x ∧ 0 ≤ wrapFs p x ∧ wrapFs p x < p.N) ∧
  ∀ (signed : Bool) (s t : State), exec (.wrap signed) s = .next t →
    exec (.wrap false) { t with opaX := t.resX } = .next { t with opaX := t.resX }

/-- 41_scalar_reduce.md R100: the source's repeated addition agrees with the Euclidean residue on every integer. -/
def Obligations.WrapAgreesWithSourceLoop : Prop :=
  ∀ (p : Params) (x : Int) (fuel : Nat), (-x).toNat < fuel → wrapFsSource p fuel x = wrapFs p x

/-! ### edwards_point_adder -/

/-- 42_point_adder.md R122, R124: PADD of two canonical points on the curve whose denominators are not 0 writes the
canonical solution of the addition law, and nothing else but ERR. -/
def Obligations.PaddWritesSum : Prop :=
  ∀ (s : State) (x1 y1 x2 y2 t : Int), x1 = s.opaX.toNat → y1 = s.opaY.toNat → x2 = s.opbX.toNat → y2 = s.opbY.toNat →
    x1 < P → y1 < P → x2 < P → y2 < P →
    (-x1 * x1 + y1 * y1 - 1 - s.cfg.D * x1 * x1 * y1 * y1) % P = 0 →
    (-x2 * x2 + y2 * y2 - 1 - s.cfg.D * x2 * x2 * y2 * y2) % P = 0 →
    t = s.cfg.D * x1 * x2 * y1 * y2 → (1 + t) % P ≠ 0 → (1 - t) % P ≠ 0 →
    ∃ x3 y3 : Nat, x3 < P ∧ y3 < P ∧ (1 + t) * x3 % P = (x1 * y2 + y1 * x2) % P ∧
      (1 - t) * y3 % P = (y1 * y2 + x1 * x2) % P ∧
      exec .padd s = .next { s with resX := BitVec.ofNat 256 x3, resY := BitVec.ofNat 256 y3, err := .ok }

/-- 42_point_adder.md R124, 60_exceptions.md R213: PADD's codes in their order; RES and all else keep their values. -/
def Obligations.PaddRefuses : Prop :=
  ∀ s : State,
    ((P ≤ s.opaX.toNat ∨ P ≤ s.opaY.toNat ∨ P ≤ s.opbX.toNat ∨ P ≤ s.opbY.toNat) →
      exec .padd s = .next { s with err := .operandRange }) ∧
    (s.opaX.toNat < P → s.opaY.toNat < P → s.opbX.toNat < P → s.opbY.toNat < P →
      ((onCurve s.cfg s.opaX.toNat s.opaY.toNat = false ∨ onCurve s.cfg s.opbX.toNat s.opbY.toNat = false) →
        exec .padd s = .next { s with err := .notOnCurve }) ∧
      (onCurve s.cfg s.opaX.toNat s.opaY.toNat = true → onCurve s.cfg s.opbX.toNat s.opbY.toNat = true →
        ((1 + s.cfg.D * s.opaX.toNat * s.opbX.toNat * s.opaY.toNat * s.opbY.toNat) % P = 0 ∨
          (1 - s.cfg.D * s.opaX.toNat * s.opbX.toNat * s.opaY.toNat * s.opbY.toNat) % P = 0) →
        exec .padd s = .next { s with err := .noInverse }))

/-- 42_point_adder.md R122, R124: the sum does not depend on the order of its arguments, the identity is neutral, and
under D_NONSQUARE a point and its mirror image sum to the identity. -/
def Obligations.PointAddLaws : Prop :=
  (∀ (p : Params) (a b : Point), pointAdd p a b = pointAdd p b a) ∧
  (∀ (p : Params) (a : Point), a.x < P → a.y < P → pointAdd p a idPt = some a) ∧
  ∀ (p : Params) (a : Point), p.DNonsquare → 0 < a.x → a.x < P → a.y < P → onCurve p a.x a.y = true →
    pointAdd p a ⟨P - a.x, a.y⟩ = some idPt

/-- 42_point_adder.md R120: `inv_P(z)` is the unique inverse in `[1, P)`, and a multiple of P has none. -/
def Obligations.InverseIsUnique : Prop :=
  ∀ z : Int,
    (z % P ≠ 0 → 1 ≤ invP z ∧ invP z < P ∧ z * invP z % P = 1 ∧
      ∀ u : Int, 1 ≤ u → u < P → z * u % P = 1 → u = invP z) ∧
    (z % P = 0 → ¬ ∃ u : Int, z * u % P = 1)

/-- 00_scope.md R8, 42_point_adder.md R123: under D_NONSQUARE no addition of two points on the curve meets a zero
denominator. The spec marks the claim as from general knowledge. -/
def Obligations.NonsquareMeansComplete : Prop :=
  ∀ (p : Params) (a b : Point), p.DNonsquare → onCurve p a.x a.y = true → onCurve p b.x b.y = true →
    (pointAdd p a b).isSome = true

/-- 42_point_adder.md R121, R122: a sum is canonical, and the sum of two points on the curve is on the curve. The addition
formula is general knowledge (log 12). -/
def Obligations.SumStaysOnCurve : Prop :=
  ∀ (p : Params) (a b r : Point), pointAdd p a b = some r →
    r.x < P ∧ r.y < P ∧
    (onCurve p a.x a.y = true → onCurve p b.x b.y = true → onCurve p r.x r.y = true)

/-! ### The generator table -/

/-- 43_generator_table.md R142, R143: BUILD_TABLE on valid generators whose construction meets no zero denominator makes
the table that R142 describes entry by entry, sets READY, and changes nothing else but ERR. That the step of the next window
is entry 255 plus the step is one of the methods R142 leaves open: the model's choice (log 10). -/
def Obligations.BuildTableBuilds : Prop :=
  ∀ s : State, s.tstate = .empty → validGenerators s.cfg = true → (buildTable s.cfg).isSome = true →
    ∃ t : Table, exec .buildTable s = .next { s with table := t, tstate := .ready, err := .ok } ∧
      tableWf t = true ∧ TableBuilt s.cfg t

/-- 43_generator_table.md R143 with 42_point_adder.md R123: under D_NONSQUARE the construction cannot fail, so BUILD_TABLE
completes on every EMPTY machine whose generators are valid. The step of the next window is made as in BuildTableBuilds
(log 10). -/
def Obligations.BuildTableCannotFailOnCurve : Prop :=
  ∀ s : State, s.tstate = .empty → validGenerators s.cfg = true → s.cfg.DNonsquare →
    ∃ t : Table, exec .buildTable s = .next { s with table := t, tstate := .ready, err := .ok } ∧
      tableWf t = true ∧ TableBuilt s.cfg t ∧
      ∀ g w v e, entry t g w v = some e → onCurve s.cfg e.x e.y = true

/-- 43_generator_table.md R141, R143: BUILD_TABLE's codes in their order. A failed build leaves the content of the table
unspecified (R37), so nothing is said of it; the counter of free contents is the model's own (log 9). Whether the
construction of the third clause meets a zero denominator is decided with the model's way of computing `256 * step`: R142
leaves the method open, and without D_NONSQUARE, where alone that clause is met, another method could differ (log 10). -/
def Obligations.BuildTableRefuses : Prop :=
  ∀ s : State,
    (s.tstate ≠ .empty → exec .buildTable s = .next { s with err := .tableState }) ∧
    (s.tstate = .empty → validGenerators s.cfg = false → ∃ t n,
      exec .buildTable s = .next { s with tstate := .broken, err := .invalidCurvePoint, table := t, freeCount := n }) ∧
    (s.tstate = .empty → validGenerators s.cfg = true → buildTable s.cfg = none → ∃ t n,
      exec .buildTable s = .next { s with tstate := .broken, err := .noInverse, table := t, freeCount := n })

/-- 43_generator_table.md R145, 20_memory.md R56: TBL_READ on a READY machine copies the entry, a canonical point, into
RES, and changes nothing else but ERR. The table of the invariant is built as log 10 says. -/
def Obligations.TblReadCopiesEntry : Prop :=
  ∀ (s : State) (g w v : Nat), s.Inv → s.tstate = .ready → g < 5 → w < 32 → v < 256 →
    ∃ e : Point, entry s.table g w v = some e ∧ e.x < P ∧ e.y < P ∧
      exec (.tblRead g w v) s =
        .next { s with resX := BitVec.ofNat 256 e.x, resY := BitVec.ofNat 256 e.y, err := .ok }

/-- 43_generator_table.md R145, 44_hash_core.md R163, R173: the codes of TBL_READ, FS_TO_POINT and HASH_INIT in their
order; nothing but ERR changes. -/
def Obligations.TableCommandsRefuse : Prop :=
  ∀ (s : State) (signed : Bool) (g w v : Nat),
    (s.tstate ≠ .ready →
      exec (.tblRead g w v) s = .next { s with err := .tableNotReady } ∧
      exec (.fsToPoint signed g) s = .next { s with err := .tableNotReady } ∧
      exec .hashInit s = .next { s with err := .tableNotReady }) ∧
    (s.tstate = .ready → 4 < g →
      exec (.tblRead g w v) s = .next { s with err := .badGen } ∧
      exec (.fsToPoint signed g) s = .next { s with err := .badGen }) ∧
    (s.tstate = .ready → g ≤ 4 →
      fsToPoint s.cfg s.table (if signed then s.opaX.toInt else (s.opaX.toNat : Int)) g = none →
      exec (.fsToPoint signed g) s = .next { s with err := .noInverse })

/-- 43_generator_table.md R146, 10_state.md R35: a READY table stays as it is, and READY and BROKEN last, until reset. -/
def Obligations.TableIsWriteOnce : Prop :=
  ∀ s t : State, s.rst = false → step s = .next t → (∀ b, s.inputs.head? ≠ some (.reset b)) →
    (s.tstate = .ready → t.tstate = .ready ∧ t.table = s.table) ∧ (s.tstate = .broken → t.tstate = .broken) ∧
    (t.tstate ≠ s.tstate → s.busy = true ∧ decode s.pending = .ok .buildTable ∧ s.tstate = .empty)

/-! ### The hash core -/

/-- 44_hash_core.md R172, R173: FS_TO_POINT sums the 32 entries that the bytes of the residue select, in window order. -/
def Obligations.FsToPointSumsLookups : Prop :=
  ∀ (s : State) (signed : Bool) (g : Nat) (x : Int) (pt e : Nat → Point), s.tstate = .ready → g ≤ 4 →
    x = (if signed then s.opaX.toInt else (s.opaX.toNat : Int)) → pt 0 = idPt →
    (∀ w, w < 32 → entry s.table g w ((x % s.cfg.N).toNat / 256 ^ w % 256) = some (e w) ∧
      pointAdd s.cfg (pt w) (e w) = some (pt (w + 1))) →
    exec (.fsToPoint signed g) s =
      .next { s with resX := BitVec.ofNat 256 (pt 32).x, resY := BitVec.ofNat 256 (pt 32).y, err := .ok }

/-- 44_hash_core.md R173, source §8: `fsToPoint(1, g)` is entry `(g, 0, 1)` of the table, which is generator `g`.
The table of the invariant is built as log 10 says. -/
def Obligations.FsToPointOfOneIsGenerator : Prop :=
  ∀ (s : State) (signed : Bool) (g : Nat), s.Inv → s.tstate = .ready → g < 5 → s.opaX = 1 →
    ∃ e : Point, (generators s.cfg)[g]? = some e ∧ entry s.table g 0 1 = some e ∧
      exec (.fsToPoint signed g) s =
        .next { s with resX := BitVec.ofNat 256 e.x, resY := BitVec.ofNat 256 e.y, err := .ok }

/-- 44_hash_core.md R163: HASH_INIT, whose word is 6 exactly, starts a fresh session from any HSTATE when the table is READY,
and raises TABLE_NOT_READY with no other change when it is not. -/
def Obligations.HashInitStartsFresh : Prop :=
  (∀ w : Word, decode w = .ok .hashInit ↔ w = 0x00000006#32) ∧
  (∀ s : State, s.tstate ≠ .ready → exec .hashInit s = .next { s with err := .tableNotReady }) ∧
  ∀ s : State, s.tstate = .ready → exec .hashInit s = .next { s with
    session := {
      acc := 0, cur := 1, genIdx := 0, rem := 62, bitcnt := 0, bitbuf := 0, triples := 0, hresX := 0, hresY := 1 }
    hstate := .absorb
    err := .ok }

/-- 44_hash_core.md R165, R168: inside a chunk ABSORB_TRIPLE adds `e(a, b, c) * CUR` to ACC exactly and multiplies CUR by
16. -/
def Obligations.AbsorbTripleAddsWeight : Prop :=
  ∀ (s : State) (a b c : Bool), s.hstate = .absorb → SessionInv s.session → s.session.bitcnt = 0 →
    s.session.triples.toNat < 310 → s.session.rem.toNat ≠ 1 →
    ∃ u : Session, exec (.absorbTriple a b c) s = .next { s with session := u, err := .ok } ∧
      u.acc.toInt = s.session.acc.toInt + tripleWeight a b c * s.session.cur.toNat ∧
      u.cur.toNat = 16 * s.session.cur.toNat ∧ u.rem.toNat + 1 = s.session.rem.toNat ∧
      u.triples.toNat = s.session.triples.toNat + 1 ∧
      u = { s.session with acc := u.acc, cur := u.cur, rem := u.rem, triples := u.triples }

/-- 44_hash_core.md R165, R166: the 62nd triple of a chunk flushes: the chunk's scalar goes through the table and is added
to the result, and the next chunk begins. When the flush meets NoInverse the session fails (R169). -/
def Obligations.LastTripleFlushesChunk : Prop :=
  ∀ (s : State) (a b c : Bool), s.hstate = .absorb → SessionInv s.session → s.session.bitcnt = 0 →
    s.session.triples.toNat < 310 → s.session.rem.toNat = 1 →
    (∀ pt h : Point,
      fsToPoint s.cfg s.table (s.session.acc.toInt + tripleWeight a b c * s.session.cur.toNat) s.session.genIdx.toNat =
        some pt →
      pointAdd s.cfg ⟨s.session.hresX.toNat, s.session.hresY.toNat⟩ pt = some h →
      exec (.absorbTriple a b c) s = .next { s with
        session := { s.session with
          acc := 0, cur := 1, rem := 62, genIdx := s.session.genIdx + 1, triples := s.session.triples + 1,
          hresX := BitVec.ofNat 256 h.x, hresY := BitVec.ofNat 256 h.y }
        err := .ok }) ∧
    (((fsToPoint s.cfg s.table (s.session.acc.toInt + tripleWeight a b c * s.session.cur.toNat)
        s.session.genIdx.toNat).bind (pointAdd s.cfg ⟨s.session.hresX.toNat, s.session.hresY.toNat⟩)) = none →
      exec (.absorbTriple a b c) s = .next { s with
        session := { s.session with hresX := 0, hresY := 0 }, hstate := .failed, err := .noInverse })

/-- 44_hash_core.md R160, R167: ABSORB_BYTE appends the eight bits, least significant first, to the pending ones, runs
`step_triple` on every complete triple in order, and keeps the bits left over; a NoInverse fails the session (R169). -/
def Obligations.AbsorbByteRunsCompleteTriples : Prop :=
  ∀ (s : State) (imm8 : Nat) (ts : List (Bool × Bool × Bool)) (left : List Bool),
    s.hstate = .absorb → SessionInv s.session → imm8 < 256 → s.session.bitsAbsorbed + 8 ≤ 930 →
    (List.range s.session.bitcnt.toNat).map s.session.bitbuf.getLsbD ++ (List.range 8).map imm8.testBit =
      ts.flatMap (fun x => [x.1, x.2.1, x.2.2]) ++ left →
    left.length < 3 →
    (∀ u : Session, stepTriples s.cfg s.table ts s.session = some u →
      exec (.absorbByte imm8) s = .next { s with
        session := { u with
          bitcnt := BitVec.ofNat 2 left.length
          bitbuf := BitVec.ofNat 2 ((left.getD 0 false).toNat + 2 * (left.getD 1 false).toNat) }
        err := .ok }) ∧
    (stepTriples s.cfg s.table ts s.session = none →
      exec (.absorbByte imm8) s = .next { s with
        session := { s.session with hresX := 0, hresY := 0 }, hstate := .failed, err := .noInverse })

/-- 44_hash_core.md R164, R169: a command that would take the absorbed bits above 930 fails the session before it processes
any bit; every session register but HRES keeps its value. -/
def Obligations.TooLongInputFailsSession : Prop :=
  ∀ s : State, s.hstate = .absorb →
    (∀ imm8, 930 < 3 * s.session.triples.toNat + s.session.bitcnt.toNat + 8 →
      exec (.absorbByte imm8) s = .next { s with
        session := { s.session with hresX := 0, hresY := 0 }, hstate := .failed, err := .inputTooLong }) ∧
    (∀ a b c, s.session.bitcnt = 0 → 930 < 3 * s.session.triples.toNat + 3 →
      exec (.absorbTriple a b c) s = .next { s with
        session := { s.session with hresX := 0, hresY := 0 }, hstate := .failed, err := .inputTooLong })

/-- 44_hash_core.md R167, R168, R170: outside ABSORB the session commands raise BAD_STATE; with bits pending ABSORB_TRIPLE
raises BIT_ALIGN; nothing but ERR changes. -/
def Obligations.SessionCommandsRefuse : Prop :=
  ∀ (s : State) (imm8 : Nat) (a b c : Bool),
    (s.hstate ≠ .absorb →
      exec (.absorbByte imm8) s = .next { s with err := .badState } ∧
      exec (.absorbTriple a b c) s = .next { s with err := .badState } ∧
      exec .hashFinish s = .next { s with err := .badState }) ∧
    (s.hstate = .absorb → s.session.bitcnt ≠ 0 →
      exec (.absorbTriple a b c) s = .next { s with err := .bitAlign })

/-- 44_hash_core.md R164: through ABSORB_BYTE alone bytes 1 to 116 are never too long and byte 117 is. -/
def Obligations.Byte117IsTooLong : Prop :=
  ∀ (s t : State) (m : List Nat) (imm8 : Nat), s.tstate = .ready → (∀ b ∈ m, b < 256) →
    execAll (.hashInit :: m.map .absorbByte) s = .next t →
    (m.length ≤ 116 → t.err ≠ .inputTooLong) ∧
    (m.length = 116 → t.hstate = .absorb → exec (.absorbByte imm8) t = .next { t with
      session := { t.session with hresX := 0, hresY := 0 }, hstate := .failed, err := .inputTooLong })

/-- 44_hash_core.md R170, R171: HASH_FINISH pads pending bits with false to one triple, flushes a chunk that has begun,
clears the pending bits and sets DONE. When the padding triple or that flush meets NoInverse the session fails, with every
session register but HRES as it was before the command (R169). -/
def Obligations.HashFinishPadsAndFlushes : Prop :=
  ∀ (s : State) (pad : Option Session), s.hstate = .absorb → SessionInv s.session →
    pad = (if s.session.bitcnt = 0 then some s.session
      else stepTriple s.cfg s.table (s.session.bitbuf.getLsbD 0) (s.session.bitcnt = 2 && s.session.bitbuf.getLsbD 1)
        false s.session) →
    (∀ u v : Session, pad = some u → (if u.rem.toNat = 62 then some u else flush s.cfg s.table u) = some v →
      exec .hashFinish s = .next { s with
        session := { v with bitcnt := 0, bitbuf := 0 }, hstate := .done, err := .ok }) ∧
    ((pad = none ∨ ∃ u : Session, pad = some u ∧ u.rem.toNat ≠ 62 ∧ flush s.cfg s.table u = none) →
      exec .hashFinish s = .next { s with
        session := { s.session with hresX := 0, hresY := 0 }, hstate := .failed, err := .noInverse })

/-- 44_hash_core.md R162: a session over a buffer of at most 116 bytes computes the source's hash of the buffer. -/
def Obligations.SessionComputesSourceHash : Prop :=
  ∀ (s : State) (m : List Nat) (u : Session), s.tstate = .ready → m.length ≤ 116 → (∀ b ∈ m, b < 256) →
    hashBuffer s.cfg s.table m = some u →
    execAll (HostProgram.session m) s = .next { s with session := u, hstate := .done, err := .ok }

/-- 44_hash_core.md R176: a session depends on its commands, the parameters and the table alone, whatever the rest of the
state was and whichever standalone commands run between. -/
def Obligations.SessionDependsOnInputAlone : Prop :=
  ∀ (s₁ s₂ t₁ t₂ : State) (is₁ is₂ cs : List Instr), s₁.cfg = s₂.cfg → s₁.table = s₂.table → s₁.tstate = .ready →
    s₂.tstate = .ready → is₁.filter (fun i => !standalone i) = .hashInit :: cs →
    is₂.filter (fun i => !standalone i) = .hashInit :: cs →
    execAll is₁ s₁ = .next t₁ → execAll is₂ s₂ = .next t₂ → t₁.session = t₂.session ∧ t₁.hstate = t₂.hstate

/-- 60_exceptions.md R211: under D_NONSQUARE, with a table built from valid generators, no command raises NO_INVERSE, and
the points stay on the curve: the table's, the running result and the digest. The table of the invariant is built as log 10
says, which under D_NONSQUARE makes no difference. -/
def Obligations.NoInverseNeverOccursOnCurve : Prop :=
  ∀ (i : Instr) (s t : State), s.CurveInv → exec i s = .next t → t.CurveInv ∧ t.err ≠ .noInverse

/-! ### The whole machine -/

/-- The invariant holds right after reset. -/
def Obligations.ResetStateMeetsInvariant : Prop := State.reset.Inv

/-- 10_state.md R33, R37, R41, 44_hash_core.md R166, R169, 70_reset_and_hazards.md R240: every step keeps the invariant.
Three parts of it are the model's choices. While RST is asserted, a level that is the model's field (log 15), PENDING is 0
(log 7) and TABLE lists nothing (log 8), which R40 leaves unspecified. A READY table is the one built with the model's way of
computing `256 * step`, which R142 leaves open (log 10). -/
def Obligations.StepKeepsInvariant : Prop := ∀ s t : State, s.Inv → step s = .next t → t.Inv

/-- 10_state.md R34: the only changes of HSTATE by a command. -/
def Obligations.SessionStateTransitions : Prop :=
  ∀ (i : Instr) (s t : State), exec i s = .next t → t.hstate = s.hstate ∨
    (i = .hashInit ∧ t.hstate = .absorb ∧ t.err = .ok) ∨
    (i = .hashFinish ∧ s.hstate = .absorb ∧ t.hstate = .done ∧ t.err = .ok) ∨
    (s.hstate = .absorb ∧ t.hstate = .failed ∧
      (t.err = .inputTooLong ∧ ((∃ b, i = .absorbByte b) ∨ ∃ a b c, i = .absorbTriple a b c) ∨
       t.err = .noInverse ∧ ((∃ b, i = .absorbByte b) ∨ (∃ a b c, i = .absorbTriple a b c) ∨ i = .hashFinish)))

/-- 10_state.md R25 to R28, R35, R38: which commands write which registers. -/
def Obligations.RegisterWriters : Prop :=
  ∀ (i : Instr) (s t : State), exec i s = .next t →
    (t.opaX = s.opaX ∧ t.opaY = s.opaY ∧ t.opbX = s.opbX ∧ t.opbY = s.opbY) ∧
    (t.busy = s.busy ∧ t.pending = s.pending ∧ t.ovr = s.ovr ∧ t.rst = s.rst ∧ t.cfg = s.cfg ∧ t.inputs = s.inputs ∧
      t.busReads = s.busReads) ∧
    (t.resX ≠ s.resX → t.err = .ok ∧
      ((∃ b, i = .wrap b) ∨ i = .padd ∨ (∃ g w v, i = .tblRead g w v) ∨ ∃ b g, i = .fsToPoint b g)) ∧
    (t.resY ≠ s.resY → t.err = .ok ∧ (i = .padd ∨ (∃ g w v, i = .tblRead g w v) ∨ ∃ b g, i = .fsToPoint b g)) ∧
    (t.session ≠ s.session →
      i = .hashInit ∨ (∃ b, i = .absorbByte b) ∨ (∃ a b c, i = .absorbTriple a b c) ∨ i = .hashFinish) ∧
    (t.table ≠ s.table ∨ t.tstate ≠ s.tstate ∨ t.freeCount ≠ s.freeCount → i = .buildTable)

/-- 60_exceptions.md R212: the state changes of a raised code, by code and command; BROKEN lasts whatever is issued and
FAILED lasts until HASH_INIT. The content of the table after a failed build is unspecified, so nothing is said of it. -/
def Obligations.CodesChangeOnlyWhatTheyList : Prop :=
  (∀ (i : Instr) (s t : State), exec i s = .next t → t.err ≠ .ok →
    (t.err = .invalidCurvePoint ∨ (t.err = .noInverse ∧ i = .buildTable) →
      t = { s with err := t.err, tstate := .broken, table := t.table, freeCount := t.freeCount }) ∧
    (t.err = .inputTooLong ∨
        (t.err = .noInverse ∧ ((∃ b, i = .absorbByte b) ∨ (∃ a b c, i = .absorbTriple a b c) ∨ i = .hashFinish)) →
      t = { s with err := t.err, hstate := .failed, session := { s.session with hresX := 0, hresY := 0 } }) ∧
    (t.err ≠ .invalidCurvePoint → t.err ≠ .inputTooLong →
      (t.err ≠ .noInverse ∨ i = .padd ∨ ∃ b g, i = .fsToPoint b g) → t = { s with err := t.err })) ∧
  (∀ (i : Instr) (s t : State), exec i s = .next t → s.tstate = .broken → t.tstate = .broken) ∧
  ∀ (i : Instr) (s t : State), exec i s = .next t → s.hstate = .failed → i ≠ .hashInit → t.hstate = .failed

/-- 20_memory.md R57: `le32bytes(s)` has 32 bytes, byte `w` is `s[8w+7:8w]`, and together they are `s`, byte 0 least. -/
def Obligations.WindowBytesAreDigits : Prop :=
  ∀ s : Nat, s < 2 ^ 256 → (le32bytes s).length = 32 ∧
    (∀ w, w < 32 → (le32bytes s)[w]? = some ((BitVec.ofNat 256 s).extractLsb' (8 * w) 8).toNat) ∧
    (le32bytes s).foldr (fun b n => b + 256 * n) 0 = s

/-- 20_memory.md R67: the digest's 64 bytes, HRES_X first, each coordinate least significant byte first. -/
def Obligations.DigestBytesAreLittleEndian : Prop :=
  ∀ s : State, s.digestBytes.length = 64 ∧
    (∀ i, i < 32 → s.digestBytes[i]? = some (s.session.hresX.extractLsb' (8 * i) 8)) ∧
    (∀ i, i < 32 → s.digestBytes[32 + i]? = some (s.session.hresY.extractLsb' (8 * i) 8))

/-- 70_reset_and_hazards.md R253: a host that waits as R250 and R251 say never sets OVR. -/
def Obligations.WaitingHostNeverSetsOvr : Prop :=
  ∀ (s t : State) (k : Nat), s.ovr = false → waits s.cfg.base s.busy s.inputs = true →
    Host.Core.run Sys2Proof.core k s = .next t → t.ovr = false

/-! ### Host programs -/

/-- 30_encoding.md R90, 20_memory.md R61: WAIT reads STATUS until bit 0 of the value read is 0. With no command in flight
that is one read. With one in flight, every read before the engine's turn returns STATUS from before the command, and the
first read after it returns the STATUS the command left and is the last. When the turn comes is the schedule's, the model's
form of R201's fairness (log 21). -/
def Obligations.WaitPollsUntilIdle : Prop :=
  ∀ (s : State) (sch : HostProgram.Schedule), s.rst = false →
    (s.busy = false → HostProgram.run [.wait] sch s =
      .next ⟨sch.tail, { s with busReads := s.status :: s.busReads }⟩) ∧
    (s.busy = true → ∀ k : Nat, k = (sch.takeWhile (fun turn => !turn)).length →
      ∃ t : State, engineTurn s = .next t ∧ t.busy = false ∧ HostProgram.run [.wait] sch s =
        .next ⟨sch.drop (k + 1), { t with busReads := t.status :: (List.replicate k s.status ++ s.busReads) }⟩)

/-- 30_encoding.md R90, 70_reset_and_hazards.md R250: `DO c` on an idle machine is one read of STATUS, the write of `c`'s
word, as many reads with BUSY = 1 as come before the engine's turn, and one read after it; it has the effect of `c` and never
sets OVR. A list of `DO`s, of which `HASH` is one, has the effect of its commands in order. The turns are the schedule's
(log 21), and that PENDING keeps the word when BUSY is cleared is the model's choice (log 7). -/
def Obligations.DoPerformsItsCommand : Prop :=
  (∀ (s : State) (sch : HostProgram.Schedule) (c : Instr) (k : Nat), s.rst = false → s.busy = false → c.wf = true →
    k = ((sch.drop 2).takeWhile (fun turn => !turn)).length →
    ∃ u : State, exec c s = .next u ∧ HostProgram.run (HostProgram.doCmd c) sch s = .next ⟨sch.drop (k + 3), { u with
      pending := encode c
      busReads := u.status :: (List.replicate k ({ s with busy := true } : State).status ++ s.status :: s.busReads) }⟩) ∧
  (∀ (s : State) (sch : HostProgram.Schedule) (cs : List Instr), s.rst = false → s.busy = false →
    (∀ c ∈ cs, c.wf = true) → ∃ (u : State) (left : HostProgram.Schedule) (word : Word) (polls : List Word),
      execAll cs s = .next u ∧ HostProgram.run (HostProgram.doAll cs) sch s =
        .next ⟨left, { u with pending := word, busReads := polls ++ s.busReads }⟩) ∧
  ∀ m : List Nat, HostProgram.hash m = HostProgram.doAll (.hashInit :: (m.map .absorbByte ++ [.hashFinish]))
end

