-- ==== Sys2Proof/Laws/State.lean ====
section
/-! SUPPORT. Every field after every named update of the state: one lemma a field, true by rfl, so that no proof unfolds a
record update. -/

namespace Sys2Proof.Machine

open Sys2Proof Config

/-! ### raise -/

@[simp] theorem raise_busy (c : Code) (s : State) : (raise c s).busy = s.busy := rfl
@[simp] theorem raise_pending (c : Code) (s : State) : (raise c s).pending = s.pending := rfl
@[simp] theorem raise_tstate (c : Code) (s : State) : (raise c s).tstate = s.tstate := rfl
@[simp] theorem raise_hstate (c : Code) (s : State) : (raise c s).hstate = s.hstate := rfl
@[simp] theorem raise_err (c : Code) (s : State) : (raise c s).err = c := rfl
@[simp] theorem raise_ovr (c : Code) (s : State) : (raise c s).ovr = s.ovr := rfl
@[simp] theorem raise_opaX (c : Code) (s : State) : (raise c s).opaX = s.opaX := rfl
@[simp] theorem raise_opaY (c : Code) (s : State) : (raise c s).opaY = s.opaY := rfl
@[simp] theorem raise_opbX (c : Code) (s : State) : (raise c s).opbX = s.opbX := rfl
@[simp] theorem raise_opbY (c : Code) (s : State) : (raise c s).opbY = s.opbY := rfl
@[simp] theorem raise_resX (c : Code) (s : State) : (raise c s).resX = s.resX := rfl
@[simp] theorem raise_resY (c : Code) (s : State) : (raise c s).resY = s.resY := rfl
@[simp] theorem raise_session (c : Code) (s : State) : (raise c s).session = s.session := rfl
@[simp] theorem raise_table (c : Code) (s : State) : (raise c s).table = s.table := rfl
@[simp] theorem raise_rst (c : Code) (s : State) : (raise c s).rst = s.rst := rfl
@[simp] theorem raise_cfg (c : Code) (s : State) : (raise c s).cfg = s.cfg := rfl
@[simp] theorem raise_inputs (c : Code) (s : State) : (raise c s).inputs = s.inputs := rfl
@[simp] theorem raise_busReads (c : Code) (s : State) : (raise c s).busReads = s.busReads := rfl
@[simp] theorem raise_freeCount (c : Code) (s : State) : (raise c s).freeCount = s.freeCount := rfl

/-! ### complete -/

@[simp] theorem complete_busy (s : State) : (complete s).busy = s.busy := rfl
@[simp] theorem complete_pending (s : State) : (complete s).pending = s.pending := rfl
@[simp] theorem complete_tstate (s : State) : (complete s).tstate = s.tstate := rfl
@[simp] theorem complete_hstate (s : State) : (complete s).hstate = s.hstate := rfl
@[simp] theorem complete_err (s : State) : (complete s).err = .ok := rfl
@[simp] theorem complete_ovr (s : State) : (complete s).ovr = s.ovr := rfl
@[simp] theorem complete_opaX (s : State) : (complete s).opaX = s.opaX := rfl
@[simp] theorem complete_opaY (s : State) : (complete s).opaY = s.opaY := rfl
@[simp] theorem complete_opbX (s : State) : (complete s).opbX = s.opbX := rfl
@[simp] theorem complete_opbY (s : State) : (complete s).opbY = s.opbY := rfl
@[simp] theorem complete_resX (s : State) : (complete s).resX = s.resX := rfl
@[simp] theorem complete_resY (s : State) : (complete s).resY = s.resY := rfl
@[simp] theorem complete_session (s : State) : (complete s).session = s.session := rfl
@[simp] theorem complete_table (s : State) : (complete s).table = s.table := rfl
@[simp] theorem complete_rst (s : State) : (complete s).rst = s.rst := rfl
@[simp] theorem complete_cfg (s : State) : (complete s).cfg = s.cfg := rfl
@[simp] theorem complete_inputs (s : State) : (complete s).inputs = s.inputs := rfl
@[simp] theorem complete_busReads (s : State) : (complete s).busReads = s.busReads := rfl
@[simp] theorem complete_freeCount (s : State) : (complete s).freeCount = s.freeCount := rfl

/-! ### setResult -/

@[simp] theorem setResult_busy (s : State) (a : Point) : (s.setResult a).busy = s.busy := rfl
@[simp] theorem setResult_pending (s : State) (a : Point) : (s.setResult a).pending = s.pending := rfl
@[simp] theorem setResult_tstate (s : State) (a : Point) : (s.setResult a).tstate = s.tstate := rfl
@[simp] theorem setResult_hstate (s : State) (a : Point) : (s.setResult a).hstate = s.hstate := rfl
@[simp] theorem setResult_err (s : State) (a : Point) : (s.setResult a).err = s.err := rfl
@[simp] theorem setResult_ovr (s : State) (a : Point) : (s.setResult a).ovr = s.ovr := rfl
@[simp] theorem setResult_opaX (s : State) (a : Point) : (s.setResult a).opaX = s.opaX := rfl
@[simp] theorem setResult_opaY (s : State) (a : Point) : (s.setResult a).opaY = s.opaY := rfl
@[simp] theorem setResult_opbX (s : State) (a : Point) : (s.setResult a).opbX = s.opbX := rfl
@[simp] theorem setResult_opbY (s : State) (a : Point) : (s.setResult a).opbY = s.opbY := rfl
@[simp] theorem setResult_resX (s : State) (a : Point) : (s.setResult a).resX = BitVec.ofNat 256 a.x := rfl
@[simp] theorem setResult_resY (s : State) (a : Point) : (s.setResult a).resY = BitVec.ofNat 256 a.y := rfl
@[simp] theorem setResult_session (s : State) (a : Point) : (s.setResult a).session = s.session := rfl
@[simp] theorem setResult_table (s : State) (a : Point) : (s.setResult a).table = s.table := rfl
@[simp] theorem setResult_rst (s : State) (a : Point) : (s.setResult a).rst = s.rst := rfl
@[simp] theorem setResult_cfg (s : State) (a : Point) : (s.setResult a).cfg = s.cfg := rfl
@[simp] theorem setResult_inputs (s : State) (a : Point) : (s.setResult a).inputs = s.inputs := rfl
@[simp] theorem setResult_busReads (s : State) (a : Point) : (s.setResult a).busReads = s.busReads := rfl
@[simp] theorem setResult_freeCount (s : State) (a : Point) : (s.setResult a).freeCount = s.freeCount := rfl

/-! ### breakTable -/

@[simp] theorem breakTable_busy (c : Code) (s : State) : (breakTable c s).busy = s.busy := rfl
@[simp] theorem breakTable_pending (c : Code) (s : State) : (breakTable c s).pending = s.pending := rfl
@[simp] theorem breakTable_tstate (c : Code) (s : State) : (breakTable c s).tstate = .broken := rfl
@[simp] theorem breakTable_hstate (c : Code) (s : State) : (breakTable c s).hstate = s.hstate := rfl
@[simp] theorem breakTable_err (c : Code) (s : State) : (breakTable c s).err = c := rfl
@[simp] theorem breakTable_ovr (c : Code) (s : State) : (breakTable c s).ovr = s.ovr := rfl
@[simp] theorem breakTable_opaX (c : Code) (s : State) : (breakTable c s).opaX = s.opaX := rfl
@[simp] theorem breakTable_opaY (c : Code) (s : State) : (breakTable c s).opaY = s.opaY := rfl
@[simp] theorem breakTable_opbX (c : Code) (s : State) : (breakTable c s).opbX = s.opbX := rfl
@[simp] theorem breakTable_opbY (c : Code) (s : State) : (breakTable c s).opbY = s.opbY := rfl
@[simp] theorem breakTable_resX (c : Code) (s : State) : (breakTable c s).resX = s.resX := rfl
@[simp] theorem breakTable_resY (c : Code) (s : State) : (breakTable c s).resY = s.resY := rfl
@[simp] theorem breakTable_session (c : Code) (s : State) : (breakTable c s).session = s.session := rfl
@[simp] theorem breakTable_table (c : Code) (s : State) : (breakTable c s).table = freeTable s.freeCount := rfl
@[simp] theorem breakTable_rst (c : Code) (s : State) : (breakTable c s).rst = s.rst := rfl
@[simp] theorem breakTable_cfg (c : Code) (s : State) : (breakTable c s).cfg = s.cfg := rfl
@[simp] theorem breakTable_inputs (c : Code) (s : State) : (breakTable c s).inputs = s.inputs := rfl
@[simp] theorem breakTable_busReads (c : Code) (s : State) : (breakTable c s).busReads = s.busReads := rfl
@[simp] theorem breakTable_freeCount (c : Code) (s : State) : (breakTable c s).freeCount = s.freeCount + 1 := rfl

/-! ### failSession -/

@[simp] theorem failSession_busy (c : Code) (s : State) : (failSession c s).busy = s.busy := rfl
@[simp] theorem failSession_pending (c : Code) (s : State) : (failSession c s).pending = s.pending := rfl
@[simp] theorem failSession_tstate (c : Code) (s : State) : (failSession c s).tstate = s.tstate := rfl
@[simp] theorem failSession_hstate (c : Code) (s : State) : (failSession c s).hstate = .failed := rfl
@[simp] theorem failSession_err (c : Code) (s : State) : (failSession c s).err = c := rfl
@[simp] theorem failSession_ovr (c : Code) (s : State) : (failSession c s).ovr = s.ovr := rfl
@[simp] theorem failSession_opaX (c : Code) (s : State) : (failSession c s).opaX = s.opaX := rfl
@[simp] theorem failSession_opaY (c : Code) (s : State) : (failSession c s).opaY = s.opaY := rfl
@[simp] theorem failSession_opbX (c : Code) (s : State) : (failSession c s).opbX = s.opbX := rfl
@[simp] theorem failSession_opbY (c : Code) (s : State) : (failSession c s).opbY = s.opbY := rfl
@[simp] theorem failSession_resX (c : Code) (s : State) : (failSession c s).resX = s.resX := rfl
@[simp] theorem failSession_resY (c : Code) (s : State) : (failSession c s).resY = s.resY := rfl
@[simp] theorem failSession_session (c : Code) (s : State) : (failSession c s).session = { s.session with hresX := 0, hresY := 0 } := rfl
@[simp] theorem failSession_table (c : Code) (s : State) : (failSession c s).table = s.table := rfl
@[simp] theorem failSession_rst (c : Code) (s : State) : (failSession c s).rst = s.rst := rfl
@[simp] theorem failSession_cfg (c : Code) (s : State) : (failSession c s).cfg = s.cfg := rfl
@[simp] theorem failSession_inputs (c : Code) (s : State) : (failSession c s).inputs = s.inputs := rfl
@[simp] theorem failSession_busReads (c : Code) (s : State) : (failSession c s).busReads = s.busReads := rfl
@[simp] theorem failSession_freeCount (c : Code) (s : State) : (failSession c s).freeCount = s.freeCount := rfl

/-! ### dropWrite -/

@[simp] theorem dropWrite_busy (s : State) : (s.dropWrite).busy = s.busy := rfl
@[simp] theorem dropWrite_pending (s : State) : (s.dropWrite).pending = s.pending := rfl
@[simp] theorem dropWrite_tstate (s : State) : (s.dropWrite).tstate = s.tstate := rfl
@[simp] theorem dropWrite_hstate (s : State) : (s.dropWrite).hstate = s.hstate := rfl
@[simp] theorem dropWrite_err (s : State) : (s.dropWrite).err = s.err := rfl
@[simp] theorem dropWrite_ovr (s : State) : (s.dropWrite).ovr = true := rfl
@[simp] theorem dropWrite_opaX (s : State) : (s.dropWrite).opaX = s.opaX := rfl
@[simp] theorem dropWrite_opaY (s : State) : (s.dropWrite).opaY = s.opaY := rfl
@[simp] theorem dropWrite_opbX (s : State) : (s.dropWrite).opbX = s.opbX := rfl
@[simp] theorem dropWrite_opbY (s : State) : (s.dropWrite).opbY = s.opbY := rfl
@[simp] theorem dropWrite_resX (s : State) : (s.dropWrite).resX = s.resX := rfl
@[simp] theorem dropWrite_resY (s : State) : (s.dropWrite).resY = s.resY := rfl
@[simp] theorem dropWrite_session (s : State) : (s.dropWrite).session = s.session := rfl
@[simp] theorem dropWrite_table (s : State) : (s.dropWrite).table = s.table := rfl
@[simp] theorem dropWrite_rst (s : State) : (s.dropWrite).rst = s.rst := rfl
@[simp] theorem dropWrite_cfg (s : State) : (s.dropWrite).cfg = s.cfg := rfl
@[simp] theorem dropWrite_inputs (s : State) : (s.dropWrite).inputs = s.inputs := rfl
@[simp] theorem dropWrite_busReads (s : State) : (s.dropWrite).busReads = s.busReads := rfl
@[simp] theorem dropWrite_freeCount (s : State) : (s.dropWrite).freeCount = s.freeCount := rfl

/-! ### toReset -/

@[simp] theorem toReset_busy (s : State) (b : Bool) : (s.toReset b).busy = State.reset.busy := rfl
@[simp] theorem toReset_pending (s : State) (b : Bool) : (s.toReset b).pending = State.reset.pending := rfl
@[simp] theorem toReset_tstate (s : State) (b : Bool) : (s.toReset b).tstate = State.reset.tstate := rfl
@[simp] theorem toReset_hstate (s : State) (b : Bool) : (s.toReset b).hstate = State.reset.hstate := rfl
@[simp] theorem toReset_err (s : State) (b : Bool) : (s.toReset b).err = State.reset.err := rfl
@[simp] theorem toReset_ovr (s : State) (b : Bool) : (s.toReset b).ovr = State.reset.ovr := rfl
@[simp] theorem toReset_opaX (s : State) (b : Bool) : (s.toReset b).opaX = State.reset.opaX := rfl
@[simp] theorem toReset_opaY (s : State) (b : Bool) : (s.toReset b).opaY = State.reset.opaY := rfl
@[simp] theorem toReset_opbX (s : State) (b : Bool) : (s.toReset b).opbX = State.reset.opbX := rfl
@[simp] theorem toReset_opbY (s : State) (b : Bool) : (s.toReset b).opbY = State.reset.opbY := rfl
@[simp] theorem toReset_resX (s : State) (b : Bool) : (s.toReset b).resX = State.reset.resX := rfl
@[simp] theorem toReset_resY (s : State) (b : Bool) : (s.toReset b).resY = State.reset.resY := rfl
@[simp] theorem toReset_session (s : State) (b : Bool) : (s.toReset b).session = State.reset.session := rfl
@[simp] theorem toReset_table (s : State) (b : Bool) : (s.toReset b).table = State.reset.table := rfl
@[simp] theorem toReset_rst (s : State) (b : Bool) : (s.toReset b).rst = b := rfl
@[simp] theorem toReset_cfg (s : State) (b : Bool) : (s.toReset b).cfg = s.cfg := rfl
@[simp] theorem toReset_inputs (s : State) (b : Bool) : (s.toReset b).inputs = s.inputs := rfl
@[simp] theorem toReset_busReads (s : State) (b : Bool) : (s.toReset b).busReads = s.busReads := rfl
@[simp] theorem toReset_freeCount (s : State) (b : Bool) : (s.toReset b).freeCount = s.freeCount := rfl

/-! ### rest -/

@[simp] theorem rest_busy (s : State) : (s.rest).busy = s.busy := rfl
@[simp] theorem rest_pending (s : State) : (s.rest).pending = s.pending := rfl
@[simp] theorem rest_tstate (s : State) : (s.rest).tstate = s.tstate := rfl
@[simp] theorem rest_hstate (s : State) : (s.rest).hstate = s.hstate := rfl
@[simp] theorem rest_err (s : State) : (s.rest).err = s.err := rfl
@[simp] theorem rest_ovr (s : State) : (s.rest).ovr = s.ovr := rfl
@[simp] theorem rest_opaX (s : State) : (s.rest).opaX = s.opaX := rfl
@[simp] theorem rest_opaY (s : State) : (s.rest).opaY = s.opaY := rfl
@[simp] theorem rest_opbX (s : State) : (s.rest).opbX = s.opbX := rfl
@[simp] theorem rest_opbY (s : State) : (s.rest).opbY = s.opbY := rfl
@[simp] theorem rest_resX (s : State) : (s.rest).resX = s.resX := rfl
@[simp] theorem rest_resY (s : State) : (s.rest).resY = s.resY := rfl
@[simp] theorem rest_session (s : State) : (s.rest).session = s.session := rfl
@[simp] theorem rest_table (s : State) : (s.rest).table = s.table := rfl
@[simp] theorem rest_rst (s : State) : (s.rest).rst = s.rst := rfl
@[simp] theorem rest_cfg (s : State) : (s.rest).cfg = s.cfg := rfl
@[simp] theorem rest_inputs (s : State) : (s.rest).inputs = s.inputs.tail := rfl
@[simp] theorem rest_busReads (s : State) : (s.rest).busReads = s.busReads := rfl
@[simp] theorem rest_freeCount (s : State) : (s.rest).freeCount = s.freeCount := rfl

/-! ### withFetchWord -/

@[simp] theorem withFetchWord_busy (s : State) (nbits w : Nat) : (s.withFetchWord nbits w).busy = true := rfl
@[simp] theorem withFetchWord_pending (s : State) (nbits w : Nat) : (s.withFetchWord nbits w).pending = wordOfTable nbits w := rfl
@[simp] theorem withFetchWord_tstate (s : State) (nbits w : Nat) : (s.withFetchWord nbits w).tstate = s.tstate := rfl
@[simp] theorem withFetchWord_hstate (s : State) (nbits w : Nat) : (s.withFetchWord nbits w).hstate = s.hstate := rfl
@[simp] theorem withFetchWord_err (s : State) (nbits w : Nat) : (s.withFetchWord nbits w).err = s.err := rfl
@[simp] theorem withFetchWord_ovr (s : State) (nbits w : Nat) : (s.withFetchWord nbits w).ovr = s.ovr := rfl
@[simp] theorem withFetchWord_opaX (s : State) (nbits w : Nat) : (s.withFetchWord nbits w).opaX = s.opaX := rfl
@[simp] theorem withFetchWord_opaY (s : State) (nbits w : Nat) : (s.withFetchWord nbits w).opaY = s.opaY := rfl
@[simp] theorem withFetchWord_opbX (s : State) (nbits w : Nat) : (s.withFetchWord nbits w).opbX = s.opbX := rfl
@[simp] theorem withFetchWord_opbY (s : State) (nbits w : Nat) : (s.withFetchWord nbits w).opbY = s.opbY := rfl
@[simp] theorem withFetchWord_resX (s : State) (nbits w : Nat) : (s.withFetchWord nbits w).resX = s.resX := rfl
@[simp] theorem withFetchWord_resY (s : State) (nbits w : Nat) : (s.withFetchWord nbits w).resY = s.resY := rfl
@[simp] theorem withFetchWord_session (s : State) (nbits w : Nat) : (s.withFetchWord nbits w).session = s.session := rfl
@[simp] theorem withFetchWord_table (s : State) (nbits w : Nat) : (s.withFetchWord nbits w).table = s.table := rfl
@[simp] theorem withFetchWord_rst (s : State) (nbits w : Nat) : (s.withFetchWord nbits w).rst = false := rfl
@[simp] theorem withFetchWord_cfg (s : State) (nbits w : Nat) : (s.withFetchWord nbits w).cfg = s.cfg := rfl
@[simp] theorem withFetchWord_inputs (s : State) (nbits w : Nat) : (s.withFetchWord nbits w).inputs = .engine :: s.inputs := rfl
@[simp] theorem withFetchWord_busReads (s : State) (nbits w : Nat) : (s.withFetchWord nbits w).busReads = s.busReads := rfl
@[simp] theorem withFetchWord_freeCount (s : State) (nbits w : Nat) : (s.withFetchWord nbits w).freeCount = s.freeCount := rfl

/-! ### reset -/

@[simp] theorem reset_busy : State.reset.busy = false := rfl
@[simp] theorem reset_pending : State.reset.pending = 0 := rfl
@[simp] theorem reset_tstate : State.reset.tstate = .empty := rfl
@[simp] theorem reset_hstate : State.reset.hstate = .idle := rfl
@[simp] theorem reset_err : State.reset.err = .ok := rfl
@[simp] theorem reset_ovr : State.reset.ovr = false := rfl
@[simp] theorem reset_opaX : State.reset.opaX = 0 := rfl
@[simp] theorem reset_opaY : State.reset.opaY = 0 := rfl
@[simp] theorem reset_opbX : State.reset.opbX = 0 := rfl
@[simp] theorem reset_opbY : State.reset.opbY = 0 := rfl
@[simp] theorem reset_resX : State.reset.resX = 0 := rfl
@[simp] theorem reset_resY : State.reset.resY = 0 := rfl
@[simp] theorem reset_session : State.reset.session = Session.fresh := rfl
@[simp] theorem reset_table : State.reset.table = [] := rfl
@[simp] theorem reset_rst : State.reset.rst = false := rfl
@[simp] theorem reset_cfg : State.reset.cfg = Config.params := rfl
@[simp] theorem reset_inputs : State.reset.inputs = [] := rfl
@[simp] theorem reset_busReads : State.reset.busReads = [] := rfl
@[simp] theorem reset_freeCount : State.reset.freeCount = 0 := rfl

/-! ### setHres -/

@[simp] theorem setHres_acc (u : Session) (a : Point) : (u.setHres a).acc = u.acc := rfl
@[simp] theorem setHres_cur (u : Session) (a : Point) : (u.setHres a).cur = u.cur := rfl
@[simp] theorem setHres_genIdx (u : Session) (a : Point) : (u.setHres a).genIdx = u.genIdx := rfl
@[simp] theorem setHres_rem (u : Session) (a : Point) : (u.setHres a).rem = u.rem := rfl
@[simp] theorem setHres_bitcnt (u : Session) (a : Point) : (u.setHres a).bitcnt = u.bitcnt := rfl
@[simp] theorem setHres_bitbuf (u : Session) (a : Point) : (u.setHres a).bitbuf = u.bitbuf := rfl
@[simp] theorem setHres_triples (u : Session) (a : Point) : (u.setHres a).triples = u.triples := rfl
@[simp] theorem setHres_hresX (u : Session) (a : Point) : (u.setHres a).hresX = BitVec.ofNat 256 a.x := rfl
@[simp] theorem setHres_hresY (u : Session) (a : Point) : (u.setHres a).hresY = BitVec.ofNat 256 a.y := rfl

/-! ### clearBits -/

@[simp] theorem clearBits_acc (u : Session) : (u.clearBits).acc = u.acc := rfl
@[simp] theorem clearBits_cur (u : Session) : (u.clearBits).cur = u.cur := rfl
@[simp] theorem clearBits_genIdx (u : Session) : (u.clearBits).genIdx = u.genIdx := rfl
@[simp] theorem clearBits_rem (u : Session) : (u.clearBits).rem = u.rem := rfl
@[simp] theorem clearBits_bitcnt (u : Session) : (u.clearBits).bitcnt = 0 := rfl
@[simp] theorem clearBits_bitbuf (u : Session) : (u.clearBits).bitbuf = 0 := rfl
@[simp] theorem clearBits_triples (u : Session) : (u.clearBits).triples = u.triples := rfl
@[simp] theorem clearBits_hresX (u : Session) : (u.clearBits).hresX = u.hresX := rfl
@[simp] theorem clearBits_hresY (u : Session) : (u.clearBits).hresY = u.hresY := rfl

/-! ### pushBit -/

@[simp] theorem pushBit_acc (u : Session) (b : Bool) : (u.pushBit b).acc = u.acc := rfl
@[simp] theorem pushBit_cur (u : Session) (b : Bool) : (u.pushBit b).cur = u.cur := rfl
@[simp] theorem pushBit_genIdx (u : Session) (b : Bool) : (u.pushBit b).genIdx = u.genIdx := rfl
@[simp] theorem pushBit_rem (u : Session) (b : Bool) : (u.pushBit b).rem = u.rem := rfl
@[simp] theorem pushBit_bitcnt (u : Session) (b : Bool) : (u.pushBit b).bitcnt = u.bitcnt + 1 := rfl
@[simp] theorem pushBit_bitbuf (u : Session) (b : Bool) : (u.pushBit b).bitbuf = if b then u.bitbuf ||| (1#2 <<< u.bitcnt.toNat) else u.bitbuf &&& ~~~ (1#2 <<< u.bitcnt.toNat) := rfl
@[simp] theorem pushBit_triples (u : Session) (b : Bool) : (u.pushBit b).triples = u.triples := rfl
@[simp] theorem pushBit_hresX (u : Session) (b : Bool) : (u.pushBit b).hresX = u.hresX := rfl
@[simp] theorem pushBit_hresY (u : Session) (b : Bool) : (u.pushBit b).hresY = u.hresY := rfl

/-! ### addTriple -/

@[simp] theorem addTriple_acc (a b c : Bool) (u : Session) : (u.addTriple a b c).acc = BitVec.ofInt 256 (u.acc.toInt + tripleTerm a b c (u.cur.toNat : Int)) := rfl
@[simp] theorem addTriple_cur (a b c : Bool) (u : Session) : (u.addTriple a b c).cur = BitVec.ofInt 256 (8 * (2 * (u.cur.toNat : Int))) := rfl
@[simp] theorem addTriple_genIdx (a b c : Bool) (u : Session) : (u.addTriple a b c).genIdx = u.genIdx := rfl
@[simp] theorem addTriple_rem (a b c : Bool) (u : Session) : (u.addTriple a b c).rem = u.rem - 1 := rfl
@[simp] theorem addTriple_bitcnt (a b c : Bool) (u : Session) : (u.addTriple a b c).bitcnt = u.bitcnt := rfl
@[simp] theorem addTriple_bitbuf (a b c : Bool) (u : Session) : (u.addTriple a b c).bitbuf = u.bitbuf := rfl
@[simp] theorem addTriple_triples (a b c : Bool) (u : Session) : (u.addTriple a b c).triples = u.triples + 1 := rfl
@[simp] theorem addTriple_hresX (a b c : Bool) (u : Session) : (u.addTriple a b c).hresX = u.hresX := rfl
@[simp] theorem addTriple_hresY (a b c : Bool) (u : Session) : (u.addTriple a b c).hresY = u.hresY := rfl

/-! ### fresh -/

@[simp] theorem fresh_acc : Session.fresh.acc = 0 := rfl
@[simp] theorem fresh_cur : Session.fresh.cur = 1 := rfl
@[simp] theorem fresh_genIdx : Session.fresh.genIdx = 0 := rfl
@[simp] theorem fresh_rem : Session.fresh.rem = 62 := rfl
@[simp] theorem fresh_bitcnt : Session.fresh.bitcnt = 0 := rfl
@[simp] theorem fresh_bitbuf : Session.fresh.bitbuf = 0 := rfl
@[simp] theorem fresh_triples : Session.fresh.triples = 0 := rfl
@[simp] theorem fresh_hresX : Session.fresh.hresX = 0 := rfl
@[simp] theorem fresh_hresY : Session.fresh.hresY = 1 := rfl

end Sys2Proof.Machine
end

