-- ==== Sys2Proof/Laws/Field.lean ====
section
/-! SUPPORT. The base field: modular powers, the primality of P by Lucas certificates (00_scope.md R7), and `inv_P` and the
curve equation read in `ZMod P`. -/

namespace Sys2Proof.Machine

open Sys2Proof Config

/-- `powMod` computes the power it names. -/
theorem powMod_cast (m fuel : Nat) : ∀ b e acc : Nat, e < 2 ^ fuel →
    ((powMod m fuel b e acc : Nat) : ZMod m) = acc * (b : ZMod m) ^ e := by
  induction fuel with
  | zero =>
    intro b e acc h
    obtain rfl : e = 0 := by omega
    simp [powMod]
  | succ fuel ih =>
    intro b e acc h
    have hsq : (b : ZMod m) ^ e = ((b : ZMod m) * b) ^ (e / 2) * (b : ZMod m) ^ (e % 2) := by
      rw [← pow_two, ← pow_mul, ← pow_add, Nat.div_add_mod]
    rw [powMod, ih _ _ _ (by omega), hsq]
    rcases Nat.mod_two_eq_zero_or_one e with h0 | h1
    · simp [h0]
    · simp [h1]
      ring

/-- Lucas's test with the factors of `p - 1` written out, its powers computed by `powMod`. -/
theorem prime_of_lucas (p a : Nat) (fs : List Nat) (hp : 1 < p ∧ p < 2 ^ 256) (hprod : fs.prod = p - 1)
    (hfs : ∀ q ∈ fs, q.Prime) (h1 : powMod p 256 a (p - 1) 1 = 1)
    (hq : ∀ q ∈ fs, powMod p 256 a ((p - 1) / q) 1 % p ≠ 1) : p.Prime := by
  have cast (k : Nat) (h : k ≤ p - 1) : ((powMod p 256 a k 1 : Nat) : ZMod p) = (a : ZMod p) ^ k := by
    simpa using powMod_cast p 256 a k 1 (by omega)
  refine lucas_primality p a ?_ fun q hqp hdvd h => ?_
  · rw [← cast _ le_rfl, h1, Nat.cast_one]
  · have hmem : q ∈ fs := by
      rw [← hprod] at hdvd
      obtain ⟨r, hr, hd⟩ := (Nat.Prime.prime hqp).dvd_prod_iff.mp hdvd
      rwa [(Nat.prime_dvd_prime_iff_eq hqp (hfs r hr)).mp hd]
    apply hq q hmem
    have h' : ((powMod p 256 a ((p - 1) / q) 1 : Nat) : ZMod p) = ((1 : Nat) : ZMod p) := by
      rw [cast _ (Nat.div_le_self _ _), h, Nat.cast_one]
    rwa [ZMod.natCast_eq_natCast_iff', Nat.mod_eq_of_lt hp.1] at h'

theorem prime_639533339 : Nat.Prime 639533339 :=
  prime_of_lucas _ 2 [2, 229, 853, 1637] (by norm_num) (by norm_num)
    (by simp only [List.forall_mem_cons]; norm_num) (by decide +kernel) (by decide +kernel)

theorem prime_1593227 : Nat.Prime 1593227 :=
  prime_of_lucas _ 2 [2, 19, 41927] (by norm_num) (by norm_num)
    (by simp only [List.forall_mem_cons]; norm_num) (by decide +kernel) (by decide +kernel)

theorem prime_405928799 : Nat.Prime 405928799 :=
  prime_of_lucas _ 22 [2, 11, 3691, 4999] (by norm_num) (by norm_num)
    (by simp only [List.forall_mem_cons]; norm_num) (by decide +kernel) (by decide +kernel)

theorem prime_12048837557 : Nat.Prime 12048837557 :=
  prime_of_lucas _ 2 [2, 2, 7, 7, 661, 93001] (by norm_num) (by norm_num)
    (by simp only [List.forall_mem_cons]; norm_num) (by decide +kernel) (by decide +kernel)

theorem prime_5156902474397 : Nat.Prime 5156902474397 :=
  prime_of_lucas _ 2 [2, 2, 107, 12048837557] (by norm_num) (by norm_num)
    (by simp only [List.forall_mem_cons, prime_12048837557]; norm_num) (by decide +kernel) (by decide +kernel)

theorem prime_1670836401704629 : Nat.Prime 1670836401704629 :=
  prime_of_lucas _ 2 [2, 2, 3, 3, 3, 3, 5156902474397] (by norm_num) (by norm_num)
    (by simp only [List.forall_mem_cons, prime_5156902474397]; norm_num) (by decide +kernel) (by decide +kernel)

theorem prime_65865678001877903 : Nat.Prime 65865678001877903 :=
  prime_of_lucas _ 5 [2, 83, 379, 1637, 639533339] (by norm_num) (by norm_num)
    (by simp only [List.forall_mem_cons, prime_639533339]; norm_num) (by decide +kernel) (by decide +kernel)

theorem prime_13818364434197438864469338081 : Nat.Prime 13818364434197438864469338081 :=
  prime_of_lucas _ 3 [2, 2, 2, 2, 2, 5, 823, 1593227, 65865678001877903] (by norm_num) (by norm_num)
    (by simp only [List.forall_mem_cons, prime_65865678001877903, prime_1593227]; norm_num)
    (by decide +kernel) (by decide +kernel)

/-- `P` is prime (00_scope.md R7). -/
theorem P_prime : Nat.Prime P := by
  refine prime_of_lucas _ 5 (List.replicate 28 2 ++ [3, 3, 13, 29, 983, 11003, 237073, 405928799, 1670836401704629,
    13818364434197438864469338081]) (by decide +kernel) (by decide +kernel) ?_ (by decide +kernel) (by decide +kernel)
  simp only [List.forall_mem_append, List.forall_mem_cons, prime_405928799, prime_1670836401704629,
    prime_13818364434197438864469338081]
  norm_num

theorem P_fact : Fact (Nat.Prime P) := ⟨P_prime⟩

/-- Euler's criterion, the direction that shows D_NONSQUARE of a given `D`. -/
theorem dNonsquare_of_euler (p : Params) (h : powMod P 254 (p.D % P).toNat ((P - 1) / 2) 1 % P ≠ 1)
    (h0 : p.D % P ≠ 0) : p.DNonsquare := by
  have := P_fact
  rintro ⟨r, hr⟩
  have hD : (((p.D % P).toNat : Nat) : ZMod P) = (r : ZMod P) ^ 2 := by
    have : (((p.D % P).toNat : Int) : ZMod P) = ((r * r : Int) : ZMod P) := by
      rw [Int.toNat_of_nonneg (Int.emod_nonneg _ (by decide)), ← hr]
      exact (ZMod.intCast_eq_intCast_iff _ _ P).mpr (Int.emod_emod_of_dvd _ (dvd_refl _))
    rw [pow_two, ← Int.cast_mul, ← this, Int.cast_natCast]
  have hr0 : (r : ZMod P) ≠ 0 := fun hz => h0 <| by
    have hz' : ((r * r : Int) : ZMod P) = 0 := by rw [Int.cast_mul, hz, mul_zero]
    rw [← hr]
    exact Int.emod_eq_zero_of_dvd ((ZMod.intCast_zmod_eq_zero_iff_dvd _ P).mp hz')
  apply h
  have hc := powMod_cast P 254 (p.D % P).toNat ((P - 1) / 2) 1 (by decide)
  rw [hD, ← pow_mul, show 2 * ((P - 1) / 2) = P - 1 by decide, ZMod.pow_card_sub_one_eq_one hr0, mul_one] at hc
  rw [ZMod.natCast_eq_natCast_iff'] at hc
  exact hc

/-- An integer is 0 in the field exactly when its residue is. -/
theorem cast_eq_zero_iff (z : Int) : (z : ZMod P) = 0 ↔ z % P = 0 := by
  rw [ZMod.intCast_zmod_eq_zero_iff_dvd, Int.dvd_iff_emod_eq_zero]

/-- Two integers are equal in the field exactly when their residues are. -/
theorem cast_eq_cast_iff (a b : Int) : (a : ZMod P) = b ↔ a % P = b % P := by
  rw [ZMod.intCast_eq_intCast_iff]
  exact Iff.rfl

/-- Taking the residue does not change the field element. -/
theorem cast_emod (z : Int) : ((z % (P : Int) : Int) : ZMod P) = z :=
  (cast_eq_cast_iff _ _).mpr (Int.emod_emod_of_dvd z (dvd_refl _))

/-- A residue, read back as a natural number. -/
theorem cast_toNat_emod (z : Int) : (((z % (P : Int)).toNat : Nat) : ZMod P) = z := by
  rw [← cast_emod z, ← Int.cast_natCast, Int.toNat_of_nonneg (Int.emod_nonneg _ (by decide))]

/-- A residue is below P. -/
theorem toNat_emod_lt (z : Int) : (z % (P : Int)).toNat < P := by
  have h1 := Int.emod_lt_of_pos z (show (0 : Int) < P by decide)
  have h2 := Int.emod_nonneg z (show (P : Int) ≠ 0 by decide)
  omega

/-- `inv_P` is the inverse in the field (42_point_adder.md R120). -/
theorem invP_cast (z : Int) (h : (z : ZMod P) ≠ 0) : ((invP z : Int) : ZMod P) = (z : ZMod P)⁻¹ := by
  have := P_fact
  rw [invP, Int.cast_natCast, powMod_cast P 254 _ _ _ (by decide), Nat.cast_one, one_mul, cast_toNat_emod]
  apply eq_inv_of_mul_eq_one_left
  rw [← pow_succ, show P - 2 + 1 = P - 1 by decide]
  exact ZMod.pow_card_sub_one_eq_one h

/-- The curve equation in the field (00_scope.md R11). -/
theorem onCurve_iff (p : Params) (x y : Int) : onCurve p x y = true ↔
    -(x : ZMod P) ^ 2 + (y : ZMod P) ^ 2 = 1 + (p.D : ZMod P) * (x : ZMod P) ^ 2 * (y : ZMod P) ^ 2 := by
  rw [onCurve, beq_iff_eq, ← cast_eq_zero_iff]
  push_cast
  rw [← sub_eq_zero (a := -(x : ZMod P) ^ 2 + _)]
  ring_nf

/-- `D * x1 * x2 * y1 * y2` of two points, in the field. -/
def crossTerm (p : Params) (a b : Point) : ZMod P := p.D * a.x * b.x * a.y * b.y

theorem emod_one_add (z : Int) : (((1 + z % (P : Int)) % (P : Int) : Int) : ZMod P) = 1 + z := by
  rw [cast_emod, Int.cast_add, cast_emod, Int.cast_one]

theorem emod_one_sub (z : Int) : (((1 - z % (P : Int)) % (P : Int) : Int) : ZMod P) = 1 - z := by
  rw [cast_emod, Int.cast_sub, cast_emod, Int.cast_one]

theorem crossTerm_cast (p : Params) (a b : Point) :
    ((p.D * (a.x : Int) * b.x * a.y * b.y : Int) : ZMod P) = crossTerm p a b := by
  rw [crossTerm]
  push_cast
  rfl

/-- A residue is 0 exactly when the field element it stands for is. -/
theorem emod_emod_eq_zero_iff (z : Int) : z % (P : Int) = 0 ↔ ((z % (P : Int) : Int) : ZMod P) = 0 := by
  rw [cast_emod, cast_eq_zero_iff]

/-- When `PointAdd` answers NoInverse (42_point_adder.md R122). -/
theorem pointAdd_eq_none_iff (p : Params) (a b : Point) :
    pointAdd p a b = none ↔ 1 + crossTerm p a b = 0 ∨ 1 - crossTerm p a b = 0 := by
  rw [pointAdd]
  simp only [ite_eq_left_iff, reduceCtorEq, imp_false, not_not]
  rw [emod_emod_eq_zero_iff, emod_emod_eq_zero_iff (1 - _), emod_one_add, emod_one_sub, crossTerm_cast]

/-- What `PointAdd` answers when it does: the canonical solution of 42_point_adder.md R122. -/
theorem pointAdd_eq_some (p : Params) (a b r : Point) (h : pointAdd p a b = some r) :
    r.x < P ∧ r.y < P ∧ 1 + crossTerm p a b ≠ 0 ∧ 1 - crossTerm p a b ≠ 0 ∧
    (1 + crossTerm p a b) * r.x = (a.x : ZMod P) * b.y + a.y * b.x ∧
    (1 - crossTerm p a b) * r.y = (a.y : ZMod P) * b.y + a.x * b.x := by
  have := P_fact
  have hn : ¬ (1 + crossTerm p a b = 0 ∨ 1 - crossTerm p a b = 0) := by
    rw [← pointAdd_eq_none_iff, h]
    exact Option.some_ne_none _
  rw [not_or] at hn
  have hp := emod_one_add (p.D * (a.x : Int) * b.x * a.y * b.y)
  have hm := emod_one_sub (p.D * (a.x : Int) * b.x * a.y * b.y)
  rw [crossTerm_cast] at hp hm
  unfold pointAdd at h
  dsimp only at h
  rw [ite_eq_iff] at h
  rcases h with ⟨-, h⟩ | ⟨-, h⟩
  · exact nomatch h
  · rw [← Option.some.inj h]
    dsimp only
    refine ⟨toNat_emod_lt _, toNat_emod_lt _, hn.1, hn.2, ?_, ?_⟩
    · rw [cast_toNat_emod, Int.cast_mul, invP_cast _ (hp ▸ hn.1), hp, mul_left_comm, mul_inv_cancel₀ hn.1]
      push_cast
      ring
    · rw [cast_toNat_emod, Int.cast_mul, invP_cast _ (hm ▸ hn.2), hm, mul_left_comm, mul_inv_cancel₀ hn.2]
      push_cast [A]
      ring

/-- Two numbers below P that are equal in the field are equal. -/
theorem eq_of_cast_eq {a b : Nat} (ha : a < P) (hb : b < P) (h : (a : ZMod P) = b) : a = b := by
  rw [ZMod.natCast_eq_natCast_iff', Nat.mod_eq_of_lt ha, Nat.mod_eq_of_lt hb] at h
  exact h

/-- Adding the identity to a canonical point gives the point (42_point_adder.md R124), on the left as the table and
`fsToPoint` do it. -/
theorem pointAdd_id_left (p : Params) (a : Point) (hx : a.x < P) (hy : a.y < P) : pointAdd p idPt a = some a := by
  have hc : crossTerm p idPt a = 0 := by simp [crossTerm, idPt]
  match h : pointAdd p idPt a with
  | none =>
    rw [pointAdd_eq_none_iff, hc] at h
    have := P_fact
    simp at h
  | some r =>
    obtain ⟨h1, h2, -, -, h5, h6⟩ := pointAdd_eq_some p idPt a r h
    rw [hc] at h5 h6
    simp only [idPt, Nat.cast_zero, Nat.cast_one, zero_mul, one_mul, zero_add, add_zero, sub_zero] at h5 h6
    obtain ⟨rx, ry⟩ := r
    obtain ⟨ax, ay⟩ := a
    obtain rfl := eq_of_cast_eq h1 hx h5
    obtain rfl := eq_of_cast_eq h2 hy h6
    rfl

end Sys2Proof.Machine
end

