-- ==== Sys2Proof/Laws/Table.lean ====
section
/-! SUPPORT. The table memory: what each part of the construction answers when it answers (43_generator_table.md R142), that
a built table is well formed, and a configuration whose table is built without computing it. -/

namespace Sys2Proof.Machine

open Sys2Proof Config

theorem pointAdd_canonical (p : Params) (a b r : Point) (h : pointAdd p a b = some r) : canonical r = true := by
  obtain ⟨hx, hy, -⟩ := pointAdd_eq_some p a b r h
  simp [canonical, hx, hy]

theorem idPt_canonical : canonical idPt = true := by decide

/-- The entries of a window: as many as asked for, the first as given, each next one the sum of R142. -/
theorem windowFrom_eq_some (p : Params) (step : Point) : ∀ (n : Nat) (e : Point) (es : List Point),
    windowFrom p step n e = some es →
    es.length = n + 1 ∧ es[0]? = some e ∧
    ∀ v, v < n → ∃ a b, es[v]? = some a ∧ es[v + 1]? = some b ∧ pointAdd p a step = some b := by
  intro n
  induction n with
  | zero =>
    intro e es h
    cases h
    simp
  | succ n ih =>
    intro e es h
    simp only [windowFrom, Option.bind_eq_some_iff, Option.map_eq_some_iff] at h
    obtain ⟨e', he', tl, htl, rfl⟩ := h
    obtain ⟨hlen, h0, hnext⟩ := ih e' tl htl
    refine ⟨by simp [hlen], by simp, fun v hv => ?_⟩
    cases v with
    | zero => exact ⟨e, e', by simp, by simpa using h0, he'⟩
    | succ v => simpa using hnext v (by omega)

/-- Every entry of a window whose first entry is canonical is canonical. -/
theorem windowFrom_canonical (p : Params) (step : Point) : ∀ (n : Nat) (e : Point) (es : List Point),
    canonical e = true → windowFrom p step n e = some es → es.all canonical = true := by
  intro n
  induction n with
  | zero =>
    intro e es he h
    cases h
    simp [he]
  | succ n ih =>
    intro e es he h
    simp only [windowFrom, Option.bind_eq_some_iff, Option.map_eq_some_iff] at h
    obtain ⟨e', he', tl, htl, rfl⟩ := h
    simp only [List.all_cons, he, Bool.true_and]
    exact ih e' tl (pointAdd_canonical p e step e' he') htl

/-- Repeated addition goes on where a window's last entry stands. -/
theorem addTimes_of_windowFrom (p : Params) (step : Point) : ∀ (n : Nat) (e : Point) (es : List Point),
    windowFrom p step n e = some es → ∃ l, es[n]? = some l ∧ ∀ k, addTimes p step (n + k) e = addTimes p step k l := by
  intro n
  induction n with
  | zero =>
    intro e es h
    cases h
    exact ⟨e, by simp, fun k => by rw [Nat.zero_add]⟩
  | succ n ih =>
    intro e es h
    simp only [windowFrom, Option.bind_eq_some_iff, Option.map_eq_some_iff] at h
    obtain ⟨e', he', tl, htl, rfl⟩ := h
    obtain ⟨l, hl, hk⟩ := ih e' tl htl
    refine ⟨l, by simpa using hl, fun k => ?_⟩
    rw [show n + 1 + k = n + k + 1 by omega, addTimes, he']
    exact hk k

/-- The windows of a generator: as many as asked for, each built from its unit step, the steps chained by `advance`. -/
theorem buildWindows_eq_some (p : Params) : ∀ (n : Nat) (step : Point) (ws : List (List Point)),
    buildWindows p n step = some ws →
    ws.length = n ∧ ∃ st : Nat → Point, st 0 = step ∧
      ∀ w, w < n → ∃ win, ws[w]? = some win ∧ buildWindow p (st w) = some win ∧ advance p (st w) = some (st (w + 1)) := by
  intro n
  induction n with
  | zero =>
    intro step ws h
    cases h
    exact ⟨rfl, fun _ => step, rfl, fun w hw => absurd hw (Nat.not_lt_zero w)⟩
  | succ n ih =>
    intro step ws h
    simp only [buildWindows, Option.bind_eq_some_iff, Option.map_eq_some_iff] at h
    obtain ⟨win, hwin, step', hstep', tl, htl, rfl⟩ := h
    obtain ⟨hlen, st, h0, hst⟩ := ih step' tl htl
    refine ⟨by simp [hlen], fun w => if w = 0 then step else st (w - 1), rfl, fun w hw => ?_⟩
    cases w with
    | zero => exact ⟨win, by simp, by simpa using hwin, by simpa [h0] using hstep'⟩
    | succ w => simpa using hst w (by omega)

/-- The rows: one a generator, in order. -/
theorem buildRows_eq_some (p : Params) : ∀ (gs : List Point) (t : Table), buildRows p gs = some t →
    t.length = gs.length ∧ ∀ (g : Nat) (pt : Point), gs[g]? = some pt →
      ∃ row, t[g]? = some row ∧ buildWindows p numWindows pt = some row := by
  intro gs
  induction gs with
  | nil =>
    intro t h
    cases h
    simp
  | cons g gs ih =>
    intro t h
    simp only [buildRows, Option.bind_eq_some_iff, Option.map_eq_some_iff] at h
    obtain ⟨row, hrow, tl, htl, rfl⟩ := h
    obtain ⟨hlen, hrows⟩ := ih tl htl
    refine ⟨by simp [hlen], fun k pt hk => ?_⟩
    cases k with
    | zero =>
      obtain rfl : g = pt := by simpa using hk
      exact ⟨row, by simp, hrow⟩
    | succ k => simpa using hrows k pt (by simpa using hk)

theorem generators_length (p : Params) : (generators p).length = numGens := by
  simp [generators, numGens]

theorem buildWindow_wf (p : Params) (step : Point) (win : List Point) (h : buildWindow p step = some win) :
    win.length = windowSize ∧ win.all canonical = true :=
  ⟨(windowFrom_eq_some p step _ _ _ h).1, windowFrom_canonical p step _ _ _ idPt_canonical h⟩

/-- A built table is well formed: 5 × 32 × 256 canonical points (20_memory.md R56). -/
theorem buildTable_wf (p : Params) (t : Table) (h : buildTable p = some t) : tableWf t = true := by
  obtain ⟨hlen, hrows⟩ := buildRows_eq_some p _ _ h
  rw [generators_length] at hlen
  simp only [tableWf, hlen, BEq.rfl, Bool.true_and, List.all_eq_true]
  intro row hrow
  obtain ⟨g, hg, rfl⟩ := List.getElem_of_mem hrow
  obtain ⟨row', hrow', hwin⟩ := hrows g _ (List.getElem?_eq_getElem (by rw [generators_length]; omega))
  rw [List.getElem?_eq_getElem hg, Option.some.injEq] at hrow'
  subst hrow'
  obtain ⟨hwlen, st, -, hst⟩ := buildWindows_eq_some p _ _ _ hwin
  simp only [hwlen, BEq.rfl, Bool.true_and, List.all_eq_true]
  intro win hmem
  obtain ⟨w, hw, rfl⟩ := List.getElem_of_mem hmem
  obtain ⟨win', hwin', hb, -⟩ := hst w (by omega)
  rw [List.getElem?_eq_getElem hw, Option.some.injEq] at hwin'
  subst hwin'
  obtain ⟨h1, h2⟩ := buildWindow_wf p _ _ hb
  simp only [h1, BEq.rfl, Bool.true_and]
  exact h2

/-- A table read inside the shape reads the entry. -/
theorem tableRead_of_entry (t : Table) (g w v : Nat) (e : Point) (h : entry t g w v = some e) :
    tableRead t g w v = e := by
  simp only [entry, Option.bind_eq_some_iff] at h
  obtain ⟨win, ⟨row, hrow, hwin⟩, he⟩ := h
  simp [tableRead, List.getD_eq_getElem?_getD, hrow, hwin, he]

/-! ### The table of the identity: a configuration whose build succeeds whatever D and N are -/

theorem pointAdd_idPt (p : Params) : pointAdd p idPt idPt = some idPt :=
  pointAdd_id_left p idPt (by decide) (by decide)

theorem windowFrom_idPt (p : Params) (n : Nat) : windowFrom p idPt n idPt = some (List.replicate (n + 1) idPt) := by
  induction n with
  | zero => rfl
  | succ n ih => simp [windowFrom, pointAdd_idPt, ih, List.replicate_succ]

theorem addTimes_idPt (p : Params) (n : Nat) : addTimes p idPt n idPt = some idPt := by
  induction n with
  | zero => rfl
  | succ n ih => simp [addTimes, pointAdd_idPt, ih]

/-- The table all of whose entries are the identity. -/
def idTable : Table := List.replicate 5 (List.replicate 32 (List.replicate 256 idPt))

theorem buildWindows_idPt (p : Params) (n : Nat) :
    buildWindows p n idPt = some (List.replicate n (List.replicate 256 idPt)) := by
  induction n with
  | zero => rfl
  | succ n ih =>
    rw [buildWindows, buildWindow, windowFrom_idPt, advance, addTimes_idPt, Option.bind_some, Option.bind_some, ih,
      List.replicate_succ (n := n)]
    rfl

theorem buildRows_idPt (p : Params) (n : Nat) :
    buildRows p (List.replicate n idPt) = some (List.replicate n (List.replicate 32 (List.replicate 256 idPt))) := by
  induction n with
  | zero => rfl
  | succ n ih =>
    rw [List.replicate_succ (n := n), buildRows, buildWindows_idPt, Option.bind_some, ih, List.replicate_succ (n := n)]
    rfl

/-- Five identity generators give the table of the identity. -/
theorem buildTable_id (p : Params) (h : p.gen = Vector.replicate 5 (0, 1)) : buildTable p = some idTable := by
  have hg : generators p = List.replicate 5 idPt := by rw [generators, h]; rfl
  rw [buildTable, hg, buildRows_idPt]
  rfl

/-- Five identity generators are valid, whatever D is (00_scope.md R11). -/
theorem validGenerators_id (p : Params) (h : p.gen = Vector.replicate 5 (0, 1)) : validGenerators p = true := by
  have h1 : onCurve p 0 1 = true := by simp [onCurve]
  have h2 : validGenerator p (0, 1) = true := by
    rw [validGenerator, h1]
    decide
  rw [validGenerators, h]
  simp [h2]

theorem entry_idTable (g w v : Nat) (hg : g < 5) (hw : w < 32) (hv : v < 256) : entry idTable g w v = some idPt := by
  simp only [entry, idTable, List.getElem?_replicate, if_pos hg, if_pos hw, if_pos hv, Option.bind_some]

/-- On the table of the identity every scalar gives the identity. -/
theorem fsToPoint_idTable (p : Params) (s : Int) (g : Nat) (hg : g < 5) : fsToPoint p idTable s g = some idPt := by
  have run : ∀ ws : List Nat, (∀ w ∈ ws, w < 32) → ws.foldlM (fun pt w => pointAdd p pt (tableRead idTable g w
      (windowByte (wrapFs p s) w))) idPt = some idPt := by
    intro ws
    induction ws with
    | nil => exact fun _ => rfl
    | cons w ws ih =>
      intro h
      have hv : windowByte (wrapFs p s) w < 256 := Nat.mod_lt _ (by decide)
      rw [List.foldlM_cons, tableRead_of_entry _ _ _ _ _ (entry_idTable g w _ hg (h w List.mem_cons_self) hv),
        pointAdd_idPt]
      exact ih fun x hx => h x (List.mem_cons_of_mem _ hx)
  exact run _ fun w hw => List.mem_range.mp hw

end Sys2Proof.Machine
end

