-- ==== Sys2Proof/Laws/Session.lean ====
section
/-! SUPPORT. The session registers: what each part of the triple step, the flush and the bit loop does when it answers
(44_hash_core.md R165 to R171), and that each keeps the invariants of 10_state.md R41. -/

namespace Sys2Proof.Machine

open Sys2Proof Config

/-! ### The scalar path -/

/-- The term a triple adds to ACC, in closed form (44_hash_core.md R165). -/
theorem tripleTerm_eq (a b c : Bool) (cur : Int) : tripleTerm a b c cur = tripleWeight a b c * cur := by
  cases a <;> cases b <;> cases c <;> simp [tripleTerm, tripleWeight] <;> ring

theorem tripleWeight_mem (a b c : Bool) : tripleWeight a b c ∈ weights := by
  cases a <;> cases b <;> cases c <;> decide

theorem tripleWeight_abs_le (a b c : Bool) : |tripleWeight a b c| ≤ 4 := by
  cases a <;> cases b <;> cases c <;> decide

theorem weights_abs_le : ∀ e ∈ weights, |e| ≤ 4 := by decide

theorem hexSum_concat (es : List Int) (e : Int) : hexSum (es ++ [e]) = hexSum es + e * 16 ^ es.length := by
  induction es with
  | nil => simp [hexSum]
  | cons d es ih =>
    simp only [List.cons_append, hexSum, ih, List.length_cons]
    ring

/-- A sum of `k` weights stays below `16 ^ k` (10_state.md R41). -/
theorem hexSum_abs_lt (es : List Int) (h : ∀ e ∈ es, e ∈ weights) : 15 * |hexSum es| ≤ 4 * (16 ^ es.length - 1) := by
  induction es with
  | nil => simp [hexSum]
  | cons e es ih =>
    have h1 := ih fun x hx => h x (List.mem_cons_of_mem _ hx)
    have h2 := weights_abs_le e (h e List.mem_cons_self)
    have h3 := abs_add_le e (16 * hexSum es)
    rw [abs_mul, abs_of_nonneg (show (0 : Int) ≤ 16 by decide)] at h3
    rw [hexSum, List.length_cons, pow_succ]
    omega

theorem ofInt_toInt_256 (z : Int) (h : |z| < 2 ^ 255) : (BitVec.ofInt 256 z).toInt = z := by
  rw [abs_lt] at h
  rw [BitVec.toInt_ofInt]
  exact Int.bmod_eq_of_le (by omega) (by omega)

theorem ofInt_toNat_256 (n : Nat) (h : n < 2 ^ 256) : (BitVec.ofInt 256 (n : Int)).toNat = n := by
  rw [BitVec.ofInt_natCast, BitVec.toNat_ofNat]
  exact Nat.mod_eq_of_lt h

/-! ### One triple -/

/-- What the updates of a triple leave in a session whose registers satisfy R41 (44_hash_core.md R165): exact values. -/
theorem addTriple_values (a b c : Bool) (u : Session) (hu : SessionInv u) (ht : u.triples.toNat < 310) :
    (u.addTriple a b c).acc.toInt = u.acc.toInt + tripleWeight a b c * u.cur.toNat ∧
    (u.addTriple a b c).cur.toNat = 16 * u.cur.toNat ∧
    (u.addTriple a b c).rem.toNat + 1 = u.rem.toNat ∧
    (u.addTriple a b c).triples.toNat = u.triples.toNat + 1 := by
  obtain ⟨es, hlen, hmem, hacc⟩ := hu.acc_eq
  have hrem := hu.rem_range
  have hcur := hu.cur_eq
  have hk : 62 - u.rem.toNat ≤ 61 := by omega
  have hpow : (16 : Nat) ^ (62 - u.rem.toNat) ≤ 16 ^ 61 := Nat.pow_le_pow_right (by decide) hk
  refine ⟨?_, ?_, ?_, ?_⟩
  · show (BitVec.ofInt 256 (u.acc.toInt + tripleTerm a b c u.cur.toNat)).toInt = _
    rw [tripleTerm_eq]
    apply ofInt_toInt_256
    have h1 := hexSum_abs_lt es hmem
    rw [hlen] at h1
    have h2 := abs_add_le u.acc.toInt (tripleWeight a b c * u.cur.toNat)
    have h3 := tripleWeight_abs_le a b c
    have h4 : |tripleWeight a b c * (u.cur.toNat : Int)| ≤ 4 * (16 ^ (62 - u.rem.toNat) : Nat) := by
      rw [abs_mul, hcur, abs_of_nonneg (Int.natCast_nonneg _)]
      exact mul_le_mul_of_nonneg_right h3 (Int.natCast_nonneg _)
    rw [hacc] at h2 ⊢
    have h5 : ((16 : Int) ^ (62 - u.rem.toNat)) ≤ 16 ^ 61 := by exact_mod_cast hpow
    push_cast at h4
    have h6 : (16 : Int) ^ 61 < 2 ^ 250 := by decide
    have h7 : (2 : Int) ^ 250 * 5 < 2 ^ 255 := by decide
    linarith
  · show (BitVec.ofInt 256 (8 * (2 * (u.cur.toNat : Int)))).toNat = _
    rw [show 8 * (2 * (u.cur.toNat : Int)) = ((16 * u.cur.toNat : Nat) : Int) by push_cast; ring]
    apply ofInt_toNat_256
    rw [hcur]
    have : (16 : Nat) ^ 61 * 16 < 2 ^ 256 := by decide
    omega
  · rw [addTriple_rem, BitVec.toNat_sub, show (1 : BitVec 6).toNat = 1 from rfl]
    omega
  · rw [addTriple_triples, BitVec.toNat_add, show (1 : BitVec 9).toNat = 1 from rfl]
    omega

/-- `hexSum` after one more triple: ACC stays a sum of weights (10_state.md R41). -/
theorem addTriple_hexSum (a b c : Bool) (u : Session) (hu : SessionInv u) (ht : u.triples.toNat < 310) :
    ∃ es : List Int, es.length = 62 - u.rem.toNat + 1 ∧ (∀ e ∈ es, e ∈ weights) ∧
      (u.addTriple a b c).acc.toInt = hexSum es := by
  obtain ⟨es, hlen, hmem, hacc⟩ := hu.acc_eq
  refine ⟨es ++ [tripleWeight a b c], by simp [hlen], ?_, ?_⟩
  · intro e he
    rcases List.mem_append.mp he with he | he
    · exact hmem e he
    · rw [List.mem_singleton.mp he]
      exact tripleWeight_mem a b c
  · rw [(addTriple_values a b c u hu ht).1, hacc, hu.cur_eq, hexSum_concat, hlen]
    push_cast
    rfl

/-! ### The flush -/

/-- What a flush does when it answers (44_hash_core.md R166). -/
theorem flush_eq_some (p : Params) (t : Table) (u v : Session) : flush p t u = some v ↔
    ∃ pt h, fsToPoint p t u.acc.toInt u.genIdx.toNat = some pt ∧ pointAdd p u.hres pt = some h ∧
      v = { u.setHres h with genIdx := u.genIdx + 1, rem := 62, acc := 0, cur := 1 } := by
  simp only [flush, Option.bind_eq_some_iff, Option.map_eq_some_iff]
  constructor
  · rintro ⟨pt, h1, h, h2, rfl⟩
    exact ⟨pt, h, h1, h2, rfl⟩
  · rintro ⟨pt, h, h1, h2, rfl⟩
    exact ⟨pt, h1, h, h2, rfl⟩

/-- A triple either leaves the chunk open or fills it and flushes it (44_hash_core.md R165). -/
theorem stepTriple_eq_some (p : Params) (t : Table) (a b c : Bool) (u v : Session)
    (h : stepTriple p t a b c u = some v) :
    (u.rem ≠ 1 ∧ v = u.addTriple a b c) ∨ (u.rem = 1 ∧ flush p t (u.addTriple a b c) = some v) := by
  rw [stepTriple, ite_eq_iff] at h
  rw [addTriple_rem, sub_eq_zero] at h
  rcases h with ⟨h1, h2⟩ | ⟨h1, h2⟩
  · exact .inr ⟨h1, h2⟩
  · exact .inl ⟨h1, (Option.some.inj h2).symm⟩

/-- What a flush leaves alone and what it resets. -/
theorem flush_fields (p : Params) (t : Table) (u v : Session) (h : flush p t u = some v) :
    v.bitcnt = u.bitcnt ∧ v.bitbuf = u.bitbuf ∧ v.triples = u.triples ∧ v.acc = 0 ∧ v.cur = 1 ∧ v.rem = 62 ∧
    v.genIdx = u.genIdx + 1 ∧ canonical v.hres = true := by
  obtain ⟨pt, r, -, hadd, rfl⟩ := (flush_eq_some p t u v).mp h
  obtain ⟨hx, hy, -⟩ := pointAdd_eq_some p u.hres pt r hadd
  refine ⟨rfl, rfl, rfl, rfl, rfl, rfl, rfl, ?_⟩
  have hP : P < 2 ^ 256 := by decide
  simp only [canonical, Session.hres, Session.setHres, BitVec.toNat_ofNat]
  rw [Nat.mod_eq_of_lt (by omega), Nat.mod_eq_of_lt (by omega)]
  simp [hx, hy]

/-- A triple leaves the pending bits alone and counts itself. -/
theorem stepTriple_fields (p : Params) (t : Table) (a b c : Bool) (u v : Session)
    (h : stepTriple p t a b c u = some v) :
    v.bitcnt = u.bitcnt ∧ v.bitbuf = u.bitbuf ∧ v.triples = u.triples + 1 ∧
    (canonical u.hres = true → canonical v.hres = true) := by
  rcases stepTriple_eq_some p t a b c u v h with ⟨-, rfl⟩ | ⟨-, hf⟩
  · exact ⟨rfl, rfl, rfl, id⟩
  · obtain ⟨h1, h2, h3, -, -, -, -, h4⟩ := flush_fields p t _ v hf
    exact ⟨h1, h2, h3, fun _ => h4⟩

/-- A triple below the capacity keeps R41 once the pending bits, if any, are cleared. -/
theorem stepTriple_inv (p : Params) (t : Table) (a b c : Bool) (u v : Session) (hu : SessionInv u)
    (ht : u.triples.toNat < 310) (h : stepTriple p t a b c u = some v) : SessionInv v.clearBits := by
  obtain ⟨-, -, hrem, htri⟩ := addTriple_values a b c u hu ht
  have hr := hu.rem_range
  have he := hu.triples_eq
  rcases stepTriple_eq_some p t a b c u v h with ⟨h1, rfl⟩ | ⟨h1, hf⟩
  · have h1' : u.rem.toNat ≠ 1 := fun h => h1 (BitVec.eq_of_toNat_eq h)
    have hcur := (addTriple_values a b c u hu ht).2.1
    obtain ⟨es, hes⟩ := addTriple_hexSum a b c u hu ht
    have hk : 62 - (u.addTriple a b c).rem.toNat = 62 - u.rem.toNat + 1 := by omega
    refine ⟨hu.genIdx_le, ?_, ?_, ?_, ⟨es, ?_⟩, Nat.zero_le 2, fun i _ => ?_, ?_⟩
    · show 1 ≤ (u.addTriple a b c).rem.toNat ∧ (u.addTriple a b c).rem.toNat ≤ 62
      omega
    · show u.genIdx.toNat * 62 + (62 - (u.addTriple a b c).rem.toNat) = (u.addTriple a b c).triples.toNat
      omega
    · show (u.addTriple a b c).cur.toNat = 16 ^ (62 - (u.addTriple a b c).rem.toNat)
      rw [hcur, hk, hu.cur_eq, pow_succ, mul_comm]
    · show es.length = 62 - (u.addTriple a b c).rem.toNat ∧ _
      rw [hk]
      exact hes
    · simp [Session.clearBits]
    · show 3 * (u.addTriple a b c).triples.toNat + 0 ≤ 930
      omega
  · obtain ⟨-, -, hv3, hacc, hcur, hvrem, hgen, -⟩ := flush_fields p t _ v hf
    rw [addTriple_genIdx] at hgen
    have hrem1 : u.rem.toNat = 1 := by rw [h1]; rfl
    have hg4 : u.genIdx.toNat ≤ 4 := by omega
    have hg : v.genIdx.toNat = u.genIdx.toNat + 1 := by
      rw [hgen, BitVec.toNat_add, show (1 : BitVec 3).toNat = 1 from rfl]
      omega
    have hvr : v.rem.toNat = 62 := by rw [hvrem]; rfl
    refine ⟨?_, ?_, ?_, ?_, ⟨[], ?_⟩, Nat.zero_le 2, fun i _ => ?_, ?_⟩
    · show v.genIdx.toNat ≤ 5
      omega
    · show 1 ≤ v.rem.toNat ∧ v.rem.toNat ≤ 62
      omega
    · show v.genIdx.toNat * 62 + (62 - v.rem.toNat) = v.triples.toNat
      rw [hv3]
      omega
    · show v.cur.toNat = 16 ^ (62 - v.rem.toNat)
      rw [hvr, hcur]
      rfl
    · show 0 = 62 - v.rem.toNat ∧ _ ∧ v.acc.toInt = 0
      rw [hvr, hacc]
      exact ⟨rfl, by simp, by decide⟩
    · simp [Session.clearBits]
    · show 3 * v.triples.toNat + 0 ≤ 930
      rw [hv3]
      omega

/-! ### The bits -/

/-- With no bit pending the buffer is 0. -/
theorem SessionInv.clearBits_eq {u : Session} (hb : u.bitcnt = 0) (hz : ∀ i, u.bitcnt.toNat ≤ i → u.bitbuf.getLsbD i = false) :
    u.clearBits = u := by
  have h0 : u.bitbuf = 0 := by
    apply BitVec.eq_of_getLsbD_eq
    intro i _
    rw [hz i (by rw [hb]; exact Nat.zero_le _)]
    simp
  obtain ⟨acc, cur, genIdx, rem, bitcnt, bitbuf, triples, hresX, hresY⟩ := u
  obtain rfl : bitcnt = 0 := hb
  obtain rfl : bitbuf = 0 := h0
  rfl

/-- A bit is appended, or completes a triple. -/
theorem absorbBit_eq_some (p : Params) (t : Table) (b : Bool) (u v : Session) (h : absorbBit p t u b = some v) :
    (u.bitcnt ≠ 2 ∧ v = u.pushBit b) ∨
    (u.bitcnt = 2 ∧ ∃ w, stepTriple p t (u.bufBit 0) (u.bufBit 1) b u = some w ∧ v = w.clearBits) := by
  rw [absorbBit, ite_eq_iff] at h
  rcases h with ⟨h1, h2⟩ | ⟨h1, h2⟩
  · obtain ⟨w, hw, rfl⟩ := Option.map_eq_some_iff.mp h2
    exact .inr ⟨h1, w, hw, rfl⟩
  · exact .inl ⟨h1, (Option.some.inj h2).symm⟩

/-- Appending a bit below the capacity keeps R41. -/
theorem pushBit_inv (u : Session) (b : Bool) (hu : SessionInv u) (h2 : u.bitcnt ≠ 2) (hcap : u.bitsAbsorbed < 930) :
    SessionInv (u.pushBit b) ∧ (u.pushBit b).bitsAbsorbed = u.bitsAbsorbed + 1 := by
  have hle := hu.bitcnt_le
  have hne : u.bitcnt.toNat ≠ 2 := fun h => h2 (BitVec.eq_of_toNat_eq h)
  have hcnt : (u.pushBit b).bitcnt.toNat = u.bitcnt.toNat + 1 := by
    show (u.bitcnt + 1).toNat = _
    rw [BitVec.toNat_add, show (1 : BitVec 2).toNat = 1 from rfl]
    omega
  have hbits : (u.pushBit b).bitsAbsorbed = u.bitsAbsorbed + 1 := by
    simp only [Session.bitsAbsorbed, hcnt]
    rfl
  refine ⟨⟨hu.genIdx_le, hu.rem_range, hu.triples_eq, hu.cur_eq, hu.acc_eq, by omega, fun i hi => ?_, by omega⟩, hbits⟩
  have hz := hu.bitbuf_zero i (by omega)
  have hne' : ¬ (i = u.bitcnt.toNat) := by omega
  rw [hcnt] at hi
  have hsh : (1#2 <<< u.bitcnt.toNat).getLsbD i = false := by
    simp only [BitVec.getLsbD_shiftLeft, BitVec.getLsbD_one]
    simp
    omega
  cases b
  · simp only [Session.pushBit, BitVec.getLsbD_and, hz, Bool.false_and, Bool.false_eq_true, if_false]
  · simp only [Session.pushBit, BitVec.getLsbD_or, hz, hsh, if_true, Bool.or_self]

/-- A bit below the capacity keeps R41 and counts itself. -/
theorem absorbBit_inv (p : Params) (t : Table) (b : Bool) (u v : Session) (hu : SessionInv u)
    (hcap : u.bitsAbsorbed < 930) (h : absorbBit p t u b = some v) :
    SessionInv v ∧ v.bitsAbsorbed = u.bitsAbsorbed + 1 ∧ (canonical u.hres = true → canonical v.hres = true) := by
  rcases absorbBit_eq_some p t b u v h with ⟨h2, rfl⟩ | ⟨h2, w, hw, rfl⟩
  · obtain ⟨h3, h4⟩ := pushBit_inv u b hu h2 hcap
    exact ⟨h3, h4, id⟩
  · have h2' : u.bitcnt.toNat = 2 := by rw [h2]; rfl
    rw [Session.bitsAbsorbed, h2'] at hcap
    obtain ⟨-, -, htri, hcan⟩ := stepTriple_fields p t _ _ _ u w hw
    refine ⟨stepTriple_inv p t _ _ _ u w hu (by omega) hw, ?_, hcan⟩
    show 3 * w.triples.toNat + 0 = 3 * u.triples.toNat + u.bitcnt.toNat + 1
    rw [htri, h2', BitVec.toNat_add, show (1 : BitVec 9).toNat = 1 from rfl]
    omega

/-- A run of bits within the capacity keeps R41 and counts its length. -/
theorem absorbBit_foldlM_inv (p : Params) (t : Table) (bs : List Bool) : ∀ u v : Session, SessionInv u →
    u.bitsAbsorbed + bs.length ≤ 930 → bs.foldlM (absorbBit p t) u = some v →
    SessionInv v ∧ v.bitsAbsorbed = u.bitsAbsorbed + bs.length ∧
      (canonical u.hres = true → canonical v.hres = true) := by
  induction bs with
  | nil =>
    intro u v hu _ h
    cases h
    exact ⟨hu, rfl, id⟩
  | cons b bs ih =>
    intro u v hu hcap h
    rw [List.length_cons] at hcap ⊢
    simp only [List.foldlM_cons, Option.bind_eq_bind, Option.bind_eq_some_iff] at h
    obtain ⟨w, hw, h⟩ := h
    obtain ⟨h1, h2, h3⟩ := absorbBit_inv p t b u w hu (by omega) hw
    obtain ⟨h4, h5, h6⟩ := ih w v h1 (by omega) h
    exact ⟨h4, by omega, h6 ∘ h3⟩

theorem bitsOfByte_length (m : Nat) : (bitsOfByte m).length = 8 := by simp [bitsOfByte]

/-- ABSORB_BYTE's loop within the capacity (44_hash_core.md R167). -/
theorem absorbBits_inv (p : Params) (t : Table) (imm8 : Nat) (u v : Session) (hu : SessionInv u)
    (hcap : u.bitsAbsorbed + 8 ≤ 930) (h : absorbBits p t imm8 u = some v) :
    SessionInv v ∧ v.bitsAbsorbed = u.bitsAbsorbed + 8 ∧ (canonical u.hres = true → canonical v.hres = true) := by
  have := absorbBit_foldlM_inv p t (bitsOfByte imm8) u v hu (by rw [bitsOfByte_length]; exact hcap) h
  rwa [bitsOfByte_length] at this

/-- HASH_FINISH's padding keeps R41 and leaves no bit pending (44_hash_core.md R170). -/
theorem padTriple_inv (p : Params) (t : Table) (u v : Session) (hu : SessionInv u) (h : padTriple p t u = some v) :
    SessionInv v ∧ v.bitcnt = 0 ∧ v.bitbuf = 0 ∧ (canonical u.hres = true → canonical v.hres = true) := by
  rw [padTriple, ite_eq_iff] at h
  rcases h with ⟨h1, h2⟩ | ⟨h1, h2⟩
  · obtain ⟨w, hw, rfl⟩ := Option.map_eq_some_iff.mp h2
    have hc := hu.bits_le
    have h1' : u.bitcnt.toNat ≠ 0 := fun h => h1 (BitVec.eq_of_toNat_eq h)
    rw [Session.bitsAbsorbed] at hc
    exact ⟨stepTriple_inv p t _ _ _ u w hu (by omega) hw, rfl, rfl, (stepTriple_fields p t _ _ _ u w hw).2.2.2⟩
  · obtain rfl := Option.some.inj h2
    have h0 : u.bitcnt = 0 := not_not.mp h1
    have hb := SessionInv.clearBits_eq h0 hu.bitbuf_zero
    refine ⟨hu, h0, ?_, id⟩
    rw [← hb]
    rfl

/-- HASH_FINISH's last flush leaves a chunk that has not begun (44_hash_core.md R171). -/
theorem finalFlush_inv (p : Params) (t : Table) (u v : Session) (hu : SessionInv u) (h : finalFlush p t u = some v) :
    v.genIdx.toNat ≤ 5 ∧ v.rem = 62 ∧ v.acc = 0 ∧ v.cur = 1 ∧ v.bitcnt = u.bitcnt ∧ v.bitbuf = u.bitbuf ∧
    v.triples.toNat ≤ 310 ∧ (canonical u.hres = true → canonical v.hres = true) := by
  have hc := hu.bits_le
  have he := hu.triples_eq
  have hr := hu.rem_range
  rw [Session.bitsAbsorbed] at hc
  rw [finalFlush, ite_eq_iff] at h
  rcases h with ⟨h1, h2⟩ | ⟨h1, h2⟩
  · obtain ⟨hb, hbb, ht, hacc, hcur, hrem, hgen, hcan⟩ := flush_fields p t u v h2
    have h1' : u.rem.toNat ≠ 62 := fun h => h1 (BitVec.eq_of_toNat_eq h)
    refine ⟨?_, hrem, hacc, hcur, hb, hbb, by rw [ht]; omega, fun _ => hcan⟩
    rw [hgen, BitVec.toNat_add, show (1 : BitVec 3).toNat = 1 from rfl]
    omega
  · obtain rfl := Option.some.inj h2
    have h62 : u.rem = 62 := not_not.mp h1
    have h62' : u.rem.toNat = 62 := by rw [h62]; rfl
    obtain ⟨es, hlen, -, hacc⟩ := hu.acc_eq
    have hcur := hu.cur_eq
    rw [h62'] at hlen hcur
    obtain rfl := List.eq_nil_of_length_eq_zero hlen
    refine ⟨hu.genIdx_le, h62, BitVec.eq_of_toInt_eq ?_, BitVec.eq_of_toNat_eq ?_, rfl, rfl, by omega, id⟩
    · rw [hacc]
      decide
    · rw [hcur]
      decide

/-- A fresh session satisfies R41 (10_state.md R40, 44_hash_core.md R163). -/
theorem fresh_inv : SessionInv Session.fresh :=
  ⟨by decide, by decide, by decide, by decide, ⟨[], by decide⟩, by decide, by simp [Session.fresh], by decide⟩

/-- The failure of a session keeps R41, which says nothing of HRES (44_hash_core.md R169). -/
theorem SessionInv.setHres {u : Session} (hu : SessionInv u) (x y : Word256) :
    SessionInv { u with hresX := x, hresY := y } :=
  ⟨hu.genIdx_le, hu.rem_range, hu.triples_eq, hu.cur_eq, hu.acc_eq, hu.bitcnt_le, hu.bitbuf_zero, hu.bits_le⟩

end Sys2Proof.Machine
end

