-- ==== Sys2Proof/Laws/Exec.lean ====
section
/-! SUPPORT. Everything a command can do, one lemma a command: if it answers next `t`, then `t` is one of these states
(60_exceptions.md R212, R213). Later proofs cite these and do not unfold the meanings. -/

namespace Sys2Proof.Machine

open Sys2Proof Config

theorem next_ite {c : Prop} [Decidable c] {a b t : State} (h : Host.Outcome.next (if c then a else b) =
    (.next t : Result)) : (c ∧ t = a) ∨ (¬ c ∧ Host.Outcome.next b = (.next t : Result)) := by
  by_cases hc : c
  · rw [if_pos hc] at h
    exact .inl ⟨hc, (Host.Outcome.next.inj h).symm⟩
  · rw [if_neg hc] at h
    exact .inr ⟨hc, h⟩

theorem next_inj {a t : State} (h : (Host.Outcome.next a : Result) = .next t) : t = a := (Host.Outcome.next.inj h).symm

theorem exec_nop {s t : State} (h : exec .nop s = .next t) : t = complete s := next_inj h

theorem exec_wrap {signed : Bool} {s t : State} (h : exec (.wrap signed) s = .next t) :
    t = complete { s with resX := BitVec.ofNat 256 (wrapFs s.cfg (scalarOperand signed s.opaX)) } := next_inj h

theorem exec_padd {s t : State} (h : exec .padd s = .next t) :
    (¬ (canonical s.opA ∧ canonical s.opB) ∧ t = raise .operandRange s) ∨
    ((canonical s.opA ∧ canonical s.opB) ∧
      ((¬ (onCurve s.cfg s.opA.x s.opA.y ∧ onCurve s.cfg s.opB.x s.opB.y) ∧ t = raise .notOnCurve s) ∨
       (onCurve s.cfg s.opA.x s.opA.y ∧ onCurve s.cfg s.opB.x s.opB.y ∧
        ((pointAdd s.cfg s.opA s.opB = none ∧ t = raise .noInverse s) ∨
         ∃ r, pointAdd s.cfg s.opA s.opB = some r ∧ t = complete (s.setResult r))))) := by
  rcases next_ite h with ⟨h1, rfl⟩ | ⟨h1, h⟩
  · exact .inl ⟨h1, rfl⟩
  refine .inr ⟨not_not.mp h1, ?_⟩
  rcases next_ite h with ⟨h2, rfl⟩ | ⟨h2, h⟩
  · exact .inl ⟨fun h => h2 h.1, rfl⟩
  rcases next_ite h with ⟨h3, rfl⟩ | ⟨h3, h⟩
  · exact .inl ⟨fun h => h3 h.2, rfl⟩
  refine .inr ⟨not_not.mp h2, not_not.mp h3, ?_⟩
  match hr : pointAdd s.cfg s.opA s.opB with
  | none =>
    rw [hr] at h
    exact .inl ⟨rfl, next_inj h⟩
  | some r =>
    rw [hr] at h
    exact .inr ⟨r, rfl, next_inj h⟩

theorem exec_buildTable {s t : State} (h : exec .buildTable s = .next t) :
    (s.tstate ≠ .empty ∧ t = raise .tableState s) ∨
    (s.tstate = .empty ∧
      ((¬ validGenerators s.cfg ∧ t = breakTable .invalidCurvePoint s) ∨
       (validGenerators s.cfg ∧
        ((buildTable s.cfg = none ∧ t = breakTable .noInverse s) ∨
         ∃ tab, buildTable s.cfg = some tab ∧ t = complete { s with table := tab, tstate := .ready })))) := by
  rcases next_ite h with ⟨h1, rfl⟩ | ⟨h1, h⟩
  · exact .inl ⟨h1, rfl⟩
  refine .inr ⟨not_not.mp h1, ?_⟩
  rcases next_ite h with ⟨h2, rfl⟩ | ⟨h2, h⟩
  · exact .inl ⟨h2, rfl⟩
  refine .inr ⟨not_not.mp h2, ?_⟩
  match hr : buildTable s.cfg with
  | none =>
    rw [hr] at h
    exact .inl ⟨rfl, next_inj h⟩
  | some tab =>
    rw [hr] at h
    exact .inr ⟨tab, rfl, next_inj h⟩

theorem exec_tblRead {g w v : Nat} {s t : State} (h : exec (.tblRead g w v) s = .next t) :
    (s.tstate ≠ .ready ∧ t = raise .tableNotReady s) ∨
    (s.tstate = .ready ∧ 4 < g ∧ t = raise .badGen s) ∨
    (s.tstate = .ready ∧ g ≤ 4 ∧ t = complete (s.setResult (tableRead s.table g w v))) := by
  rcases next_ite h with ⟨h1, rfl⟩ | ⟨h1, h⟩
  · exact .inl ⟨h1, rfl⟩
  rcases next_ite h with ⟨h2, rfl⟩ | ⟨h2, h⟩
  · exact .inr (.inl ⟨not_not.mp h1, h2, rfl⟩)
  · exact .inr (.inr ⟨not_not.mp h1, Nat.le_of_not_lt h2, next_inj h⟩)

theorem exec_fsToPoint {signed : Bool} {g : Nat} {s t : State} (h : exec (.fsToPoint signed g) s = .next t) :
    (s.tstate ≠ .ready ∧ t = raise .tableNotReady s) ∨
    (s.tstate = .ready ∧ 4 < g ∧ t = raise .badGen s) ∨
    (s.tstate = .ready ∧ g ≤ 4 ∧
      ((fsToPoint s.cfg s.table (scalarOperand signed s.opaX) g = none ∧ t = raise .noInverse s) ∨
       ∃ pt, fsToPoint s.cfg s.table (scalarOperand signed s.opaX) g = some pt ∧ t = complete (s.setResult pt))) := by
  rcases next_ite h with ⟨h1, rfl⟩ | ⟨h1, h⟩
  · exact .inl ⟨h1, rfl⟩
  rcases next_ite h with ⟨h2, rfl⟩ | ⟨h2, h⟩
  · exact .inr (.inl ⟨not_not.mp h1, h2, rfl⟩)
  refine .inr (.inr ⟨not_not.mp h1, Nat.le_of_not_lt h2, ?_⟩)
  match hr : fsToPoint s.cfg s.table (scalarOperand signed s.opaX) g with
  | none =>
    rw [hr] at h
    exact .inl ⟨rfl, next_inj h⟩
  | some pt =>
    rw [hr] at h
    exact .inr ⟨pt, rfl, next_inj h⟩

theorem exec_hashInit {s t : State} (h : exec .hashInit s = .next t) :
    (s.tstate ≠ .ready ∧ t = raise .tableNotReady s) ∨
    (s.tstate = .ready ∧ t = complete { s with session := Session.fresh, hstate := .absorb }) := by
  rcases next_ite h with ⟨h1, rfl⟩ | ⟨h1, h⟩
  · exact .inl ⟨h1, rfl⟩
  · exact .inr ⟨not_not.mp h1, next_inj h⟩

/-- The three ways a session command that got past its checks ends. -/
theorem next_session {r : Option Session} {f : Session → State} {s t : State}
    (h : Host.Outcome.next (match r with | none => failSession .noInverse s | some u => f u) = (.next t : Result)) :
    (r = none ∧ t = failSession .noInverse s) ∨ ∃ u, r = some u ∧ t = f u := by
  match r, h with
  | none, h => exact .inl ⟨rfl, next_inj h⟩
  | some u, h => exact .inr ⟨u, rfl, next_inj h⟩

theorem exec_absorbByte {imm8 : Nat} {s t : State} (h : exec (.absorbByte imm8) s = .next t) :
    (s.hstate ≠ .absorb ∧ t = raise .badState s) ∨
    (s.hstate = .absorb ∧ 930 < s.session.bitsAbsorbed + 8 ∧ t = failSession .inputTooLong s) ∨
    (s.hstate = .absorb ∧ s.session.bitsAbsorbed + 8 ≤ 930 ∧
      ((absorbBits s.cfg s.table imm8 s.session = none ∧ t = failSession .noInverse s) ∨
       ∃ u, absorbBits s.cfg s.table imm8 s.session = some u ∧ t = complete { s with session := u })) := by
  rcases next_ite h with ⟨h1, rfl⟩ | ⟨h1, h⟩
  · exact .inl ⟨h1, rfl⟩
  rcases next_ite h with ⟨h2, rfl⟩ | ⟨h2, h⟩
  · exact .inr (.inl ⟨not_not.mp h1, h2, rfl⟩)
  · exact .inr (.inr ⟨not_not.mp h1, Nat.le_of_not_lt h2, next_session h⟩)

theorem exec_absorbTriple {a b c : Bool} {s t : State} (h : exec (.absorbTriple a b c) s = .next t) :
    (s.hstate ≠ .absorb ∧ t = raise .badState s) ∨
    (s.hstate = .absorb ∧ s.session.bitcnt ≠ 0 ∧ t = raise .bitAlign s) ∨
    (s.hstate = .absorb ∧ s.session.bitcnt = 0 ∧ 310 ≤ s.session.triples.toNat ∧ t = failSession .inputTooLong s) ∨
    (s.hstate = .absorb ∧ s.session.bitcnt = 0 ∧ s.session.triples.toNat < 310 ∧
      ((stepTriple s.cfg s.table a b c s.session = none ∧ t = failSession .noInverse s) ∨
       ∃ u, stepTriple s.cfg s.table a b c s.session = some u ∧ t = complete { s with session := u })) := by
  rcases next_ite h with ⟨h1, rfl⟩ | ⟨h1, h⟩
  · exact .inl ⟨h1, rfl⟩
  rcases next_ite h with ⟨h2, rfl⟩ | ⟨h2, h⟩
  · exact .inr (.inl ⟨not_not.mp h1, h2, rfl⟩)
  rcases next_ite h with ⟨h3, rfl⟩ | ⟨h3, h⟩
  · refine .inr (.inr (.inl ⟨not_not.mp h1, not_not.mp h2, ?_, rfl⟩))
    simp only [maxBits] at h3
    omega
  · refine .inr (.inr (.inr ⟨not_not.mp h1, not_not.mp h2, ?_, next_session h⟩))
    simp only [maxBits] at h3
    omega

theorem exec_hashFinish {s t : State} (h : exec .hashFinish s = .next t) :
    (s.hstate ≠ .absorb ∧ t = raise .badState s) ∨
    (s.hstate = .absorb ∧
      (((padTriple s.cfg s.table s.session).bind (finalFlush s.cfg s.table) = none ∧ t = failSession .noInverse s) ∨
       ∃ u v, padTriple s.cfg s.table s.session = some u ∧ finalFlush s.cfg s.table u = some v ∧
        t = complete { s with session := v, hstate := .done })) := by
  rcases next_ite h with ⟨h1, rfl⟩ | ⟨h1, h⟩
  · exact .inl ⟨h1, rfl⟩
  refine .inr ⟨not_not.mp h1, ?_⟩
  rcases next_session h with h2 | ⟨v, h2, rfl⟩
  · exact .inl h2
  · obtain ⟨u, hu, hv⟩ := Option.bind_eq_some_iff.mp h2
    exact .inr ⟨u, v, hu, hv, rfl⟩

/-! ### What every command leaves alone -/

/-- The fields no command writes (10_state.md R25, R36; 45_control.md R201), and those only BUILD_TABLE writes. -/
structure SameFrame (i : Instr) (s t : State) : Prop where
  busy : t.busy = s.busy
  pending : t.pending = s.pending
  ovr : t.ovr = s.ovr
  opaX : t.opaX = s.opaX
  opaY : t.opaY = s.opaY
  opbX : t.opbX = s.opbX
  opbY : t.opbY = s.opbY
  rst : t.rst = s.rst
  cfg : t.cfg = s.cfg
  inputs : t.inputs = s.inputs
  busReads : t.busReads = s.busReads
  table : i ≠ .buildTable → t.table = s.table ∧ t.tstate = s.tstate ∧ t.freeCount = s.freeCount

/-- Every command keeps the frame. -/
theorem exec_frame {i : Instr} {s t : State} (h : exec i s = .next t) : SameFrame i s t := by
  cases i with
  | nop =>
    obtain rfl := exec_nop h
    constructor <;> simp
  | wrap signed =>
    obtain rfl := exec_wrap h
    constructor <;> simp
  | padd =>
    obtain ⟨-, rfl⟩ | ⟨-, ⟨-, rfl⟩ | ⟨-, -, ⟨-, rfl⟩ | ⟨r, -, rfl⟩⟩⟩ := exec_padd h <;> constructor <;> simp
  | buildTable =>
    obtain ⟨-, rfl⟩ | ⟨-, ⟨-, rfl⟩ | ⟨-, ⟨-, rfl⟩ | ⟨r, -, rfl⟩⟩⟩ := exec_buildTable h <;> constructor <;> simp
  | tblRead g w v =>
    obtain ⟨-, rfl⟩ | ⟨-, -, rfl⟩ | ⟨-, -, rfl⟩ := exec_tblRead h <;> constructor <;> simp
  | fsToPoint signed g =>
    obtain ⟨-, rfl⟩ | ⟨-, -, rfl⟩ | ⟨-, -, ⟨-, rfl⟩ | ⟨r, -, rfl⟩⟩ := exec_fsToPoint h <;> constructor <;> simp
  | hashInit =>
    obtain ⟨-, rfl⟩ | ⟨-, rfl⟩ := exec_hashInit h <;> constructor <;> simp
  | absorbByte imm8 =>
    obtain ⟨-, rfl⟩ | ⟨-, -, rfl⟩ | ⟨-, -, ⟨-, rfl⟩ | ⟨r, -, rfl⟩⟩ := exec_absorbByte h <;> constructor <;> simp
  | absorbTriple a b c =>
    obtain ⟨-, rfl⟩ | ⟨-, -, rfl⟩ | ⟨-, -, -, rfl⟩ | ⟨-, -, -, ⟨-, rfl⟩ | ⟨r, -, rfl⟩⟩ := exec_absorbTriple h <;>
      constructor <;> simp
  | hashFinish =>
    obtain ⟨-, rfl⟩ | ⟨-, ⟨-, rfl⟩ | ⟨u, v, -, -, rfl⟩⟩ := exec_hashFinish h <;> constructor <;> simp

end Sys2Proof.Machine
end

