-- ==== Sys2Proof/Laws/Bits.lean ====
section
/-! SUPPORT. The pending bits: absorbing bits one at a time is running the complete triples among them and keeping the bits left
over (44_hash_core.md R160, R161, R167). -/

namespace Sys2Proof.Machine

open Sys2Proof Config

/-- The two pending bits as BITBUF holds them (10_state.md R31). -/
def packBits (l : List Bool) : BitVec 2 := BitVec.ofNat 2 ((l.getD 0 false).toNat + 2 * (l.getD 1 false).toNat)

/-- A session with the given bits pending. -/
def Session.withBits (u : Session) (l : List Bool) : Session :=
  { u with bitcnt := BitVec.ofNat 2 l.length, bitbuf := packBits l }

theorem withBits_clearBits (u : Session) (l : List Bool) : (u.withBits l).clearBits = u.withBits [] := rfl

theorem withBits_withBits (u : Session) (l k : List Bool) : (u.withBits l).withBits k = u.withBits k := rfl

/-- A flush neither reads nor writes the pending bits. -/
theorem flush_withBits (p : Params) (t : Table) (u : Session) (l : List Bool) :
    flush p t (u.withBits l) = (flush p t u).map (·.withBits l) := by
  have hu : (u.withBits l).hres = u.hres := rfl
  rw [flush, flush, Option.map_bind, hu]
  congr 1
  funext pt
  rw [Function.comp_apply, Option.map_map]
  rfl

/-- A triple neither reads nor writes the pending bits. -/
theorem stepTriple_withBits (p : Params) (t : Table) (a b c : Bool) (u : Session) (l : List Bool) :
    stepTriple p t a b c (u.withBits l) = (stepTriple p t a b c u).map (·.withBits l) := by
  have h : (u.withBits l).addTriple a b c = (u.addTriple a b c).withBits l := rfl
  rw [stepTriple, stepTriple, h, flush_withBits]
  rw [show ((u.addTriple a b c).withBits l).rem = (u.addTriple a b c).rem from rfl]
  split_ifs <;> rfl

/-- A bit is appended to fewer than two pending ones. -/
theorem pushBit_withBits (u : Session) (l : List Bool) (b : Bool) (h : l.length < 2) :
    (u.withBits l).pushBit b = u.withBits (l ++ [b]) := by
  have hbuf : (if b then packBits l ||| (1#2 <<< (BitVec.ofNat 2 l.length).toNat)
      else packBits l &&& ~~~ (1#2 <<< (BitVec.ofNat 2 l.length).toNat)) = packBits (l ++ [b]) := by
    match l, h with
    | [], _ => cases b <;> decide
    | [x], _ => cases x <;> cases b <;> decide
  have hcnt : BitVec.ofNat 2 l.length + 1 = BitVec.ofNat 2 (l ++ [b]).length := by
    match l, h with
    | [], _ => rfl
    | [x], _ => rfl
  simp only [Session.pushBit, Session.withBits, hbuf, hcnt]

/-- A bit joins fewer than two pending ones. -/
theorem absorbBit_short (p : Params) (t : Table) (u : Session) (l : List Bool) (b : Bool) (h : l.length < 2) :
    absorbBit p t (u.withBits l) b = some (u.withBits (l ++ [b])) := by
  have hne : (u.withBits l).bitcnt ≠ 2 := by
    match l, h with
    | [], _ => exact (by decide : BitVec.ofNat 2 0 ≠ 2)
    | [x], _ => exact (by decide : BitVec.ofNat 2 1 ≠ 2)
  rw [absorbBit, if_neg hne, pushBit_withBits u l b h]

/-- A bit completes a triple with two pending ones. -/
theorem absorbBit_pair (p : Params) (t : Table) (u : Session) (x y b : Bool) :
    absorbBit p t (u.withBits [x, y]) b = (stepTriple p t x y b u).map (·.withBits []) := by
  have hx : (u.withBits [x, y]).bufBit 0 = x :=
    (by decide : ∀ x y : Bool, (decide (0 < (2#2).toNat) && (packBits [x, y]).getLsbD 0) = x) x y
  have hy : (u.withBits [x, y]).bufBit 1 = y :=
    (by decide : ∀ x y : Bool, (decide (1 < (2#2).toNat) && (packBits [x, y]).getLsbD 1) = y) x y
  rw [absorbBit, if_pos (by rfl), hx, hy, stepTriple_withBits, Option.map_map]
  rfl

/-- Absorbing bits is running the complete triples and keeping the rest. -/
theorem foldlM_absorbBit (p : Params) (t : Table) : ∀ (bs l left : List Bool) (ts : List (Bool × Bool × Bool)) (u : Session),
    l.length < 3 → left.length < 3 → l ++ bs = ts.flatMap (fun x => [x.1, x.2.1, x.2.2]) ++ left →
    bs.foldlM (absorbBit p t) (u.withBits l) = (stepTriples p t ts u).map (·.withBits left) := by
  intro bs
  induction bs with
  | nil =>
    intro l left ts u hl hleft h
    match ts with
    | [] =>
      rw [List.append_nil] at h
      subst h
      rfl
    | x :: ts =>
      rw [List.append_nil] at h
      rw [h] at hl
      simp only [List.flatMap_cons, List.cons_append, List.length_cons] at hl
      omega
  | cons b bs ih =>
    intro l left ts u hl hleft h
    rw [List.foldlM_cons, Option.bind_eq_bind]
    by_cases h2 : l.length < 2
    · rw [absorbBit_short p t u l b h2, Option.bind_some]
      exact ih (l ++ [b]) left ts u (by simp; omega) hleft (by rw [← h]; simp)
    · obtain ⟨x, y, rfl⟩ := List.length_eq_two.mp (show l.length = 2 by omega)
      match ts with
      | [] =>
        have hlen := congrArg List.length h
        simp at hlen
        omega
      | (x', y', b') :: ts =>
        simp only [List.flatMap_cons, List.cons_append, List.nil_append, List.cons.injEq] at h
        obtain ⟨rfl, rfl, rfl, h⟩ := h
        rw [absorbBit_pair, stepTriples, List.foldlM_cons, Option.bind_eq_bind]
        match stepTriple p t x y b u with
        | none => rfl
        | some v =>
          rw [Option.map_some, Option.bind_some, Option.bind_some]
          exact ih [] left ts v (by decide) hleft h

/-- The triples of a sequence of complete triples are those triples (44_hash_core.md R161). -/
theorem triplesOf_flatMap (ts : List (Bool × Bool × Bool)) :
    triplesOf (ts.flatMap fun x => [x.1, x.2.1, x.2.2]) = ts := by
  induction ts with
  | nil => rfl
  | cons x ts ih =>
    simp only [List.flatMap_cons, List.cons_append, List.nil_append, triplesOf, ih]

/-- Every bit sequence is complete triples and fewer than three bits left over. -/
theorem exists_triples (n : Nat) : ∀ bs : List Bool, bs.length = n →
    ∃ (ts : List (Bool × Bool × Bool)) (left : List Bool), left.length < 3 ∧
      bs = ts.flatMap (fun x => [x.1, x.2.1, x.2.2]) ++ left := by
  induction n using Nat.strong_induction_on with
  | _ n ih =>
    intro bs hn
    match bs with
    | [] => exact ⟨[], [], by decide, rfl⟩
    | [a] => exact ⟨[], [a], by simp, rfl⟩
    | [a, b] => exact ⟨[], [a, b], by simp, rfl⟩
    | a :: b :: c :: bs =>
      simp only [List.length_cons] at hn
      obtain ⟨ts, left, hl, h⟩ := ih bs.length (by omega) bs rfl
      exact ⟨(a, b, c) :: ts, left, hl, by simp [h]⟩

/-- A session whose pending bits are in order is one with those bits pending (10_state.md R31). -/
theorem withBits_pending (u : Session) (hu : SessionInv u) :
    u.withBits ((List.range u.bitcnt.toNat).map u.bitbuf.getLsbD) = u := by
  obtain ⟨acc, cur, genIdx, rem, bitcnt, bitbuf, triples, hresX, hresY⟩ := u
  have hle := hu.bitcnt_le
  have hz := hu.bitbuf_zero
  dsimp only at hle hz ⊢
  have all : ∀ (c b : BitVec 2), c.toNat ≤ 2 → (∀ i, i < 2 → c.toNat ≤ i → b.getLsbD i = false) →
      packBits ((List.range c.toNat).map b.getLsbD) = b := by decide
  simp only [Session.withBits, List.length_map, List.length_range, BitVec.ofNat_toNat, BitVec.setWidth_eq]
  rw [all bitcnt bitbuf hle fun i _ => hz i]

end Sys2Proof.Machine
end

