-- ==== Sys2Proof/Laws/Decode.lean ====
section
/-! SUPPORT. The opcode map as a whole: no word fits two rows, and decoding is fitting a row (30_encoding.md R84, R85). -/

namespace Sys2Proof

/-- Every mask covers the opcode byte. -/
theorem Row.opcode_of_fits {r : Row} {w : Word} (h : r.fits w = true) : w &&& 0xFF#32 = r.pattern &&& 0xFF#32 := by
  rw [Row.fits, beq_iff_eq] at h
  rw [← h, BitVec.and_assoc]
  congr 1
  cases r <;> decide

/-- No word fits two rows of the opcode map (30_encoding.md R84). -/
theorem Row.fits_unique {r q : Row} {w : Word} (hr : r.fits w = true) (hq : q.fits w = true) : q = r := by
  have h := (Row.opcode_of_fits hr).symm.trans (Row.opcode_of_fits hq)
  revert h
  cases r <;> cases q <;> decide

theorem Row.mem_all (r : Row) : r ∈ Row.all := by cases r <;> decide

/-- A word that fits a row decodes to the row's command. -/
theorem decode_of_fits {r : Row} {w : Word} (h : r.fits w = true) : decode w = .ok (r.instr w) := by
  rw [decode]
  match hf : Row.all.find? (fun r => r.fits w) with
  | some q =>
    have hq : q.fits w = true := List.find?_some (p := fun r => Row.fits r w) hf
    rw [hf, Row.fits_unique h hq]
  | none => exact absurd h (List.find?_eq_none.mp hf r (Row.mem_all r))

/-- Decoding is fitting a row (30_encoding.md R85). -/
theorem decode_eq_ok_iff (w : Word) (i : Instr) : decode w = .ok i ↔ ∃ r : Row, r.fits w = true ∧ r.instr w = i := by
  constructor
  · intro h
    rw [decode] at h
    cases hf : Row.all.find? (fun r => r.fits w) with
    | some q =>
      rw [hf] at h
      exact ⟨q, List.find?_some (p := fun r => Row.fits r w) hf, Except.ok.inj h⟩
    | none =>
      rw [hf] at h
      exact nomatch h
  · rintro ⟨r, h, rfl⟩
    exact decode_of_fits h

/-- A word that fits no row is ILLEGAL, for the reason its opcode gives (30_encoding.md R86, R87). -/
theorem decode_of_not_fits {w : Word} (h : ∀ r : Row, r.fits w = false) :
    decode w = .error (if field w 7 0 ≤ 9 then .reservedBit else .reservedOpcode) := by
  rw [decode]
  have hf : Row.all.find? (fun r => r.fits w) = none := List.find?_eq_none.mpr fun r _ => by simp [h r]
  rw [hf]

end Sys2Proof
end

