-- ==== Sys2Proof/Laws/Step.lean ====
section
/-! SUPPORT. Everything a step can do, by what comes next (45_control.md R201, 20_memory.md R60, 70_reset_and_hazards.md
R240). -/

namespace Sys2Proof.Machine

open Sys2Proof Config

/-- The completion step, when it answers: the command's own next state, or ILLEGAL_CMD, with BUSY cleared (45_control.md
R201, R202). -/
theorem completion_next {s t : State} (h : completion s = .next t) :
    (∃ i t', decode s.pending = .ok i ∧ exec i s = .next t' ∧ t = { t' with busy := false }) ∨
    (∃ e, decode s.pending = .error e ∧ t = { s with err := .illegalCmd, busy := false }) := by
  rw [completion] at h
  match hd : decode s.pending with
  | .ok i =>
    rw [hd] at h
    dsimp only at h
    match he : exec i s with
    | .next t' =>
      rw [he] at h
      exact .inl ⟨i, t', rfl, he, next_inj h⟩
    | .fault r =>
      rw [he] at h
      exact nomatch h
    | .refused r =>
      rw [he] at h
      exact nomatch h
  | .error e =>
    rw [hd] at h
    exact .inr ⟨e, rfl, next_inj h⟩

/-- The engine's turn, when it answers. -/
theorem engineTurn_next {s t : State} (h : engineTurn s = .next t) :
    (s.rst = true ∧ t = s.toReset true) ∨ (s.rst = false ∧ s.busy = false ∧ t = s) ∨
    (s.rst = false ∧ s.busy = true ∧ completion s = .next t) := by
  rw [engineTurn] at h
  cases hr : s.rst
  · cases hb : s.busy
    · simp only [hr, hb, Bool.false_eq_true, if_false] at h
      exact .inr (.inl ⟨rfl, rfl, next_inj h⟩)
    · simp only [hr, hb, Bool.false_eq_true, if_false, if_true] at h
      exact .inr (.inr ⟨rfl, rfl, h⟩)
  · simp only [hr, if_true] at h
    exact .inl ⟨rfl, next_inj h⟩

/-- A host access, when it answers: a read returns a value and changes nothing, a write has the slot's effect. -/
theorem hostAccess_next {a : Access} {s t : State} (h : hostAccess a s = .next t) :
    (∃ addr size, a = .read addr size ∧
      t = { s with busReads := s.readSlot (slotAt (addr - s.cfg.base)) :: s.busReads }) ∨
    (∃ addr size v, a = .write addr size v ∧ t = s.writeSlot v (slotAt (addr - s.cfg.base))) := by
  match a, h with
  | .read addr size, h =>
    dsimp only [hostAccess] at h
    split_ifs at h
    exact .inl ⟨addr, size, rfl, next_inj h⟩
  | .write addr size v, h =>
    dsimp only [hostAccess] at h
    split_ifs at h
    exact .inr ⟨addr, size, v, rfl, next_inj h⟩

/-- A step, when it answers: an engine's turn, a level of RST, or a host access with RST released; each on the state with
the first input taken. -/
theorem step_next {s t : State} (h : step s = .next t) :
    (engineTurn s.rest = .next t ∧ (s.inputs = [] ∨ s.inputs.head? = some .engine)) ∨
    (∃ b, s.inputs.head? = some (.reset b) ∧ t = s.rest.toReset b) ∨
    (∃ a, s.inputs.head? = some (.access a) ∧ s.rst = false ∧ hostAccess a s.rest = .next t) := by
  rw [step] at h
  have hrest : s.rest = { s with inputs := s.inputs.tail } := rfl
  match hi : s.inputs with
  | [] =>
    rw [hi] at h
    have : s.rest = s := by
      rw [hrest, hi, List.tail_nil, ← hi]
    rw [this]
    exact .inl ⟨h, .inl rfl⟩
  | .engine :: is =>
    rw [hi] at h
    rw [hi, List.tail_cons] at hrest
    rw [hrest]
    exact .inl ⟨h, .inr rfl⟩
  | .reset b :: is =>
    rw [hi] at h
    rw [hi, List.tail_cons] at hrest
    rw [hrest]
    exact .inr (.inl ⟨b, rfl, next_inj h⟩)
  | .access a :: is =>
    rw [hi] at h
    rw [hi, List.tail_cons] at hrest
    rw [hrest]
    dsimp only [perform] at h
    cases hr : s.rst
    · simp only [hr, Bool.false_eq_true, if_false] at h
      exact .inr (.inr ⟨a, rfl, rfl, h⟩)
    · simp only [hr, if_true] at h
      exact nomatch h

/-- A write's effect: nothing, OVR, a command, or one word of an operand register (20_memory.md R52, R55, R58, R63). -/
theorem writeSlot_cases (s : State) (v : Word) (sl : Slot) :
    s.writeSlot v sl = s ∨ (s.busy = true ∧ s.writeSlot v sl = s.dropWrite) ∨
    (sl = .cmd ∧ s.busy = false ∧ s.writeSlot v sl = { s with pending := v, busy := true }) ∨
    (sl = .status ∧ s.writeSlot v sl = { s with ovr := false }) ∨
    (∃ r k, sl = .word r k ∧ r.isOperand = true ∧ s.busy = false ∧ s.writeSlot v sl = s.writeData k v r) := by
  cases sl with
  | id => exact .inl rfl
  | hstat => exact .inl rfl
  | reserved => exact .inl rfl
  | cmd =>
    cases hb : s.busy
    · exact .inr (.inr (.inl ⟨rfl, rfl, by simp [State.writeSlot, hb]⟩))
    · exact .inr (.inl ⟨rfl, by simp [State.writeSlot, hb]⟩)
  | status =>
    cases hv : v.getLsbD 12
    · exact .inl (by rw [State.writeSlot, hv]; rfl)
    · exact .inr (.inr (.inr (.inl ⟨rfl, by simp [State.writeSlot, hv]⟩)))
  | word r k =>
    cases ho : r.isOperand
    · left
      cases r <;> simp_all [State.writeSlot, DataReg.isOperand, State.writeData]
    · cases hb : s.busy
      · exact .inr (.inr (.inr (.inr ⟨r, k, rfl, ho, rfl, by simp [State.writeSlot, hb]⟩)))
      · exact .inr (.inl ⟨rfl, by simp [State.writeSlot, hb, ho]⟩)

/-- A write of a data register's word touches the operand registers only. -/
theorem writeData_frame (s : State) (k : Nat) (v : Word) (r : DataReg) : s.writeData k v r =
    { s with opaX := (s.writeData k v r).opaX, opaY := (s.writeData k v r).opaY,
             opbX := (s.writeData k v r).opbX, opbY := (s.writeData k v r).opbY } := by
  cases r <;> rfl

/-! ### Runs -/

/-- A run that answers took its first step and went on. -/
theorem run_succ_next (M : Host.Core) {k : Nat} {s t : M.State} (h : M.run (k + 1) s = .next t) :
    ∃ r, M.step s = .next r ∧ M.run k r = .next t := by
  have hrun : M.run (k + 1) s = (match M.step s with
    | .next s' => M.run k s'
    | .fault r => .fault r
    | .refused r => .refused r) := rfl
  rw [hrun] at h
  match hs : M.step s with
  | .next r =>
    rw [hs] at h
    exact ⟨r, rfl, h⟩
  | .fault r =>
    rw [hs] at h
    exact nomatch h
  | .refused r =>
    rw [hs] at h
    exact nomatch h

theorem run_zero_next (M : Host.Core) {s t : M.State} (h : M.run 0 s = .next t) : t = s := (Host.Outcome.next.inj h).symm

end Sys2Proof.Machine
end

