-- ==== Sys2Proof/Laws/HostProgram.lean ====
section
/-! SUPPORT. What host programs do: a command does not look at what stands outside it, an operation's access is a few steps of
the machine, and so a whole host program is a run of the machine (30_encoding.md R90, 20_memory.md R60). -/

namespace Sys2Proof.Machine

open Sys2Proof Config

/-! ### Sequencing -/

@[simp] theorem andThen_next {α β : Type} (a : α) (f : α → Host.Outcome β Fault Refusal) : andThen (.next a) f = f a := rfl

theorem andThen_eq_next {α β : Type} {r : Host.Outcome α Fault Refusal} {f : α → Host.Outcome β Fault Refusal} {b : β}
    (h : andThen r f = .next b) : ∃ a, r = .next a ∧ f a = .next b := by
  match r, h with
  | .next a, h => exact ⟨a, rfl, h⟩

theorem andThen_assoc {α β γ : Type} (r : Host.Outcome α Fault Refusal) (f : α → Host.Outcome β Fault Refusal)
    (g : β → Host.Outcome γ Fault Refusal) : andThen (andThen r f) g = andThen r fun a => andThen (f a) g := by
  cases r <;> rfl

/-! ### A command does not look at what stands outside it -/

/-- `s` with what no command reads or writes taken from `u`. -/
def State.outside (s u : State) : State :=
  { s with busy := u.busy, pending := u.pending, ovr := u.ovr, rst := u.rst, inputs := u.inputs, busReads := u.busReads }

/-- Two answers that agree up to the outside, chosen by one check. -/
theorem ite_outside {c : Prop} [Decidable c] {a b a' b' u : State} (ha : a' = a.outside u) (hb : b' = b.outside u) :
    (if c then a' else b') = (if c then a else b).outside u := by
  split_ifs
  · exact ha
  · exact hb

/-- A command's answer from `s` with another outside is its answer from `s`, with that outside. -/
theorem exec_outside {i : Instr} {s t : State} (u : State) (h : exec i s = .next t) :
    exec i (s.outside u) = .next (t.outside u) := by
  cases i with
  | nop =>
    obtain rfl := next_inj h
    rfl
  | wrap b =>
    obtain rfl := next_inj h
    rfl
  | padd =>
    obtain rfl := next_inj h
    refine congrArg Host.Outcome.next (ite_outside rfl <| ite_outside rfl <| ite_outside rfl ?_)
    change (match pointAdd s.cfg s.opA s.opB with | none => _ | some r => _) = _
    cases pointAdd s.cfg s.opA s.opB <;> rfl
  | buildTable =>
    obtain rfl := next_inj h
    refine congrArg Host.Outcome.next (ite_outside rfl <| ite_outside rfl ?_)
    change (match buildTable s.cfg with | none => _ | some r => _) = _
    cases buildTable s.cfg <;> rfl
  | tblRead g w v =>
    obtain rfl := next_inj h
    exact congrArg Host.Outcome.next (ite_outside rfl <| ite_outside rfl rfl)
  | fsToPoint b g =>
    obtain rfl := next_inj h
    refine congrArg Host.Outcome.next (ite_outside rfl <| ite_outside rfl ?_)
    change (match fsToPoint s.cfg s.table (scalarOperand b s.opaX) g with | none => _ | some r => _) = _
    cases fsToPoint s.cfg s.table (scalarOperand b s.opaX) g <;> rfl
  | hashInit =>
    obtain rfl := next_inj h
    exact congrArg Host.Outcome.next (ite_outside rfl rfl)
  | absorbByte b =>
    obtain rfl := next_inj h
    refine congrArg Host.Outcome.next (ite_outside rfl <| ite_outside rfl ?_)
    change (match absorbBits s.cfg s.table b s.session with | none => _ | some r => _) = _
    cases absorbBits s.cfg s.table b s.session <;> rfl
  | absorbTriple a b c =>
    obtain rfl := next_inj h
    refine congrArg Host.Outcome.next (ite_outside rfl <| ite_outside rfl <| ite_outside rfl ?_)
    change (match stepTriple s.cfg s.table a b c s.session with | none => _ | some r => _) = _
    cases stepTriple s.cfg s.table a b c s.session <;> rfl
  | hashFinish =>
    obtain rfl := next_inj h
    refine congrArg Host.Outcome.next (ite_outside rfl ?_)
    change (match (padTriple s.cfg s.table s.session).bind (finalFlush s.cfg s.table) with | none => _ | some r => _) = _
    cases (padTriple s.cfg s.table s.session).bind (finalFlush s.cfg s.table) <;> rfl
/-! ### A host program is a run of the machine -/

theorem writeSlot_inputs (s : State) (is : List Input) (v : Word) (sl : Slot) :
    State.writeSlot { s with inputs := is } v sl = { s.writeSlot v sl with inputs := is } := by
  cases sl with
  | id | hstat | reserved => rfl
  | cmd | status => simp only [State.writeSlot]; split_ifs <;> rfl
  | word r k => simp only [State.writeSlot]; split_ifs <;> cases r <;> rfl

theorem hostAccess_inputs {a : Access} {s t : State} (is : List Input) (h : hostAccess a s = .next t) :
    hostAccess a { s with inputs := is } = .next { t with inputs := is } := by
  match a, h with
  | .read addr size, h =>
    rw [hostAccess] at h
    split_ifs at h with h1 h2
    obtain rfl := next_inj h
    exact (if_neg (not_not.mpr h1)).trans (if_neg (not_not.mpr h2))
  | .write addr size v, h =>
    rw [hostAccess] at h
    split_ifs at h with h1 h2
    obtain rfl := next_inj h
    rw [← writeSlot_inputs]
    exact (if_neg (not_not.mpr h1)).trans (if_neg (not_not.mpr h2))

/-- What happens outside the engine does not look at the inputs still to come. -/
theorem perform_inputs {i : Input} {s t : State} (is : List Input) (h : perform i s = .next t) :
    perform i { s with inputs := is } = .next { t with inputs := is } := by
  match i with
  | .engine =>
    obtain ⟨hr, rfl⟩ | ⟨hr, hb, rfl⟩ | ⟨hr, hb, hc⟩ := engineTurn_next h
    · simp only [perform, engineTurn, hr, if_true]
      rfl
    · simp [perform, engineTurn, hr, hb]
    · have hturn : perform .engine { s with inputs := is } = completion { s with inputs := is } := by
        simp [perform, engineTurn, hr, hb]
      rw [hturn]
      obtain ⟨c, t', hd, he, rfl⟩ | ⟨e, hd, rfl⟩ := completion_next hc
      · have hf := exec_frame he
        have hout : exec c { s with inputs := is } = .next { t' with inputs := is } := by
          have := exec_outside { s with inputs := is } he
          simpa only [State.outside, ← hf.busy, ← hf.pending, ← hf.ovr, ← hf.rst, ← hf.busReads] using this
        simp only [completion, hd, hout, clearBusy]
      · simp only [completion, hd]
        rfl
  | .reset b =>
    obtain rfl := next_inj h
    rfl
  | .access a =>
    change (if s.rst then .refused .windowInReset else hostAccess a s) = _ at h
    change (if s.rst then .refused .windowInReset else hostAccess a { s with inputs := is }) = _
    split_ifs at h ⊢ with hr
    exact hostAccess_inputs is h

/-- A run goes on where its first part ended. -/
theorem run_add (M : Host.Core) {j : Nat} (k : Nat) {s r : M.State} (h : M.run j s = .next r) :
    M.run (j + k) s = M.run k r := by
  induction j generalizing s with
  | zero => rw [Nat.zero_add, run_zero_next M h]
  | succ j ih =>
    obtain ⟨q, hq, hr⟩ := run_succ_next M h
    rw [Nat.succ_add, Host.Core.run, hq]
    exact ih hr

theorem run_one (M : Host.Core) {s r : M.State} (h : M.step s = .next r) : M.run 1 s = .next r := by
  rw [Host.Core.run, h]
  rfl

/-- Some inputs, whatever follows them, take the machine from `s` to `t`. -/
def Reaches (s t : State) : Prop :=
  ∃ is : List Input, ∀ js : List Input,
    Host.Core.run Sys2Proof.core is.length { s with inputs := is ++ js } = .next { t with inputs := js }

theorem Reaches.refl (s : State) : Reaches s s := ⟨[], fun _ => rfl⟩

theorem Reaches.cons {s r t : State} {i : Input} (h : perform i s = .next r) (h' : Reaches r t) : Reaches s t := by
  obtain ⟨is, his⟩ := h'
  refine ⟨i :: is, fun js => ?_⟩
  have hstep : Host.Core.run Sys2Proof.core 1 { s with inputs := i :: (is ++ js) } = .next { r with inputs := is ++ js } :=
    run_one Sys2Proof.core (perform_inputs (s := s) (is ++ js) h)
  rw [List.length_cons, Nat.add_comm]
  exact (run_add Sys2Proof.core is.length hstep).trans (his js)

theorem Reaches.trans {s r t : State} (h : Reaches s r) (h' : Reaches r t) : Reaches s t := by
  obtain ⟨is, his⟩ := h
  obtain ⟨js, hjs⟩ := h'
  refine ⟨is ++ js, fun ks => ?_⟩
  rw [List.append_assoc, List.length_append]
  exact (run_add Sys2Proof.core js.length (his (js ++ ks))).trans (hjs ks)

namespace HostProgram

theorem access_reaches {turn : Bool} {a : Access} {s t : State} (h : access turn a s = .next t) : Reaches s t := by
  obtain ⟨r, hr, ht⟩ := andThen_eq_next h
  have htail : Reaches r t := .cons ht (.refl t)
  split_ifs at hr
  · exact .cons hr htail
  · obtain rfl := next_inj hr
    exact htail

/-- WAIT, when it answers, ends with a poll, and all its polls are accesses of the host. -/
theorem wait_reaches {sch : Schedule} {s : State} {r : Running} (h : wait sch s = .next r) : Reaches s r.state := by
  induction sch generalizing s with
  | nil =>
    obtain ⟨t, ht, hr⟩ := andThen_eq_next h
    obtain rfl := Host.Outcome.next.inj hr
    exact access_reaches ht
  | cons turn sch ih =>
    obtain ⟨t, ht, hr⟩ := andThen_eq_next h
    split_ifs at hr
    · exact (access_reaches ht).trans (ih hr)
    · obtain rfl := Host.Outcome.next.inj hr
      exact access_reaches ht

theorem performOp_reaches {o : Op} {sch : Schedule} {s : State} {r : Running} (h : performOp o sch s = .next r) :
    Reaches s r.state := by
  match o with
  | .wr off v =>
    obtain ⟨t, ht, hr⟩ := andThen_eq_next h
    obtain rfl := Host.Outcome.next.inj hr
    exact access_reaches ht
  | .rd off =>
    obtain ⟨t, ht, hr⟩ := andThen_eq_next h
    obtain rfl := Host.Outcome.next.inj hr
    exact access_reaches ht
  | .wait => exact wait_reaches h

/-- A host program that answers is a run of the machine on some inputs, which are its accesses and the engine's turns. -/
theorem run_reaches {os : List Op} {sch : Schedule} {s : State} {r : Running} (h : run os sch s = .next r) :
    Reaches s r.state := by
  induction os generalizing sch s with
  | nil =>
    obtain rfl := Host.Outcome.next.inj h
    exact .refl s
  | cons o os ih =>
    obtain ⟨q, hq, hr⟩ := andThen_eq_next h
    exact (performOp_reaches hq).trans (ih hr)

/-- A program in two parts. -/
theorem run_append (os os' : List Op) (sch : Schedule) (s : State) :
    run (os ++ os') sch s = andThen (run os sch s) fun r => run os' r.schedule r.state := by
  induction os generalizing sch s with
  | nil => rfl
  | cons o os ih => simp only [List.cons_append, run, andThen_assoc, ih]

end HostProgram

end Sys2Proof.Machine
end

