-- ==== Sys2Proof/Laws/PerInstr.lean ====
section
/-! SUPPORT. The laws made per command: the family `EncodeFits`. -/

namespace Sys2Proof.Laws.EncodeFits

open Sys2Proof

/-- The word of a command whose operands fit its fields has the pattern of a row of the opcode map under the row's mask, so
its opcode is the row's and every reserved bit is 0 (30_encoding.md R84, R88). -/
def Statement (i : Instr) : Prop := i.wf = true → ∃ r ∈ Row.all, r.fits (encode i) = true

theorem nop : Statement .nop := fun _ => ⟨.nop, by decide, by decide⟩

theorem wrap (signed : Bool) : Statement (.wrap signed) := fun _ => ⟨.wrap, by decide, by revert signed; decide⟩

theorem padd : Statement .padd := fun _ => ⟨.padd, by decide, by decide⟩

theorem buildTable : Statement .buildTable := fun _ => ⟨.buildTable, by decide, by decide⟩

/-- The bits of a field's value above the field are 0. -/
theorem field_bit {n width k : Nat} (hn : n < 2 ^ width) (hw : width ≤ k) (hk : k < 32) :
    (BitVec.ofNat 32 n)[k] = false := by
  simp only [BitVec.getElem_eq_testBit_toNat, BitVec.toNat_ofNat, Nat.testBit_mod_two_pow, hk, decide_true, Bool.true_and]
  exact Nat.testBit_lt_two_pow (lt_of_lt_of_le hn (Nat.pow_le_pow_right (by decide) hw))

theorem tblRead (g w v : Nat) : Statement (.tblRead g w v) := by
  intro h
  simp only [Instr.wf, Bool.and_eq_true, decide_eq_true_eq] at h
  refine ⟨.tblRead, by decide, ?_⟩
  have hg : ∀ k, 3 ≤ k → (hk : k < 32) → (BitVec.ofNat 32 g)[k] = false := fun k => field_bit (width := 3) h.1.1
  have hw : ∀ k, 5 ≤ k → (hk : k < 32) → (BitVec.ofNat 32 w)[k] = false := fun k => field_bit (width := 5) h.1.2
  simp only [Row.fits, encode, Row.mask, Row.pattern, beq_iff_eq]
  apply BitVec.eq_of_getLsbD_eq
  intro i hi
  interval_cases i <;> simp [hg, hw]

theorem fsToPoint (signed : Bool) (g : Nat) : Statement (.fsToPoint signed g) := by
  intro h
  simp only [Instr.wf, decide_eq_true_eq] at h
  refine ⟨.fsToPoint, by decide, ?_⟩
  interval_cases g <;> revert signed <;> decide

theorem hashInit : Statement .hashInit := fun _ => ⟨.hashInit, by decide, by decide⟩

theorem absorbByte (imm8 : Nat) : Statement (.absorbByte imm8) := by
  intro h
  simp only [Instr.wf, decide_eq_true_eq] at h
  have all : ∀ b : Fin 256, Row.absorbByte.fits (encode (.absorbByte b)) = true := by decide +kernel
  exact ⟨.absorbByte, by decide, all ⟨imm8, h⟩⟩

theorem absorbTriple (a b c : Bool) : Statement (.absorbTriple a b c) :=
  fun _ => ⟨.absorbTriple, by decide, by revert a b c; decide⟩

theorem hashFinish : Statement .hashFinish := fun _ => ⟨.hashFinish, by decide, by decide⟩

end Sys2Proof.Laws.EncodeFits
end

