-- ==== Sys2Proof/Tests/Slice0.lean ====
section
/-! SUPPORT. The model's own tests: what WellFormed refuses, words of every command, one-step tests with the expected results of
95_test_vectors.md, and for every obligation with hypotheses a state that meets them. -/

namespace Sys2Proof.Tests

open Sys2Proof Sys2Proof.Machine Sys2Proof.Config

/-! ### WellFormed -/

theorem test_wf_refuses_generator_8 : (Instr.tblRead 8 0 0).wf = false := by decide
theorem test_wf_refuses_window_32 : (Instr.tblRead 0 32 0).wf = false := by decide
theorem test_wf_refuses_value_256 : (Instr.tblRead 0 0 256).wf = false := by decide
theorem test_wf_refuses_fs_generator_8 : (Instr.fsToPoint true 8).wf = false := by decide
theorem test_wf_refuses_byte_256 : (Instr.absorbByte 256).wf = false := by decide
theorem test_wf_admits_greatest_operands :
    (Instr.tblRead 7 31 255).wf = true ∧ (Instr.fsToPoint false 7).wf = true ∧ (Instr.absorbByte 255).wf = true := by
  decide

/-! ### Words, from 95_test_vectors.md section 3 -/

theorem test_decode_nop : decode 0x00000000#32 = .ok .nop := by decide
theorem test_decode_wrap : decode 0x00000001#32 = .ok (.wrap false) ∧ decode 0x00000101#32 = .ok (.wrap true) := by decide
theorem test_decode_padd : decode 0x00000002#32 = .ok .padd := by decide
theorem test_decode_buildTable : decode 0x00000003#32 = .ok .buildTable := by decide
theorem test_decode_tblRead : decode 0x0F1F4004#32 = .ok (.tblRead 4 31 15) ∧ decode 0x03002004#32 = .ok (.tblRead 2 0 3) ∧
    decode 0x00005004#32 = .ok (.tblRead 5 0 0) := by decide
theorem test_decode_fsToPoint : decode 0x00001005#32 = .ok (.fsToPoint false 1) ∧
    decode 0x00004105#32 = .ok (.fsToPoint true 4) := by decide
theorem test_decode_hashInit : decode 0x00000006#32 = .ok .hashInit := by decide
theorem test_decode_absorbByte : decode 0x00009007#32 = .ok (.absorbByte 0x90) := by decide
theorem test_decode_absorbTriple : decode 0x00000408#32 = .ok (.absorbTriple false false true) ∧
    decode 0x00000208#32 = .ok (.absorbTriple false true false) ∧
    decode 0x00000108#32 = .ok (.absorbTriple true false false) := by decide
theorem test_decode_hashFinish : decode 0x00000009#32 = .ok .hashFinish := by decide
theorem test_decode_refuses_reserved_bits : [0x00000100#32, 0x00000201#32, 0x00008004#32, 0x00200004#32, 0x00000104#32,
    0x00000205#32, 0x00008005#32, 0x00010007#32, 0x00000808#32, 0x80000009#32].all
    (fun w => decode w == .error .reservedBit) = true := by decide
theorem test_decode_refuses_reserved_opcodes :
    [0x0000000A#32, 0x000000FF#32, 0xFFFFFFFF#32].all (fun w => decode w == .error .reservedOpcode) = true := by decide
theorem test_table_word : decodeTableWord 32 0x0F1F4004 = some (.tblRead 4 31 15) ∧ decodeTableWord 32 0x0A = none := by
  decide

/-! ### The assembler, from 30_encoding.md R89 and 95_test_vectors.md section 3 -/

theorem test_assemble_tblrd : Asm.assembleWord "TBLRD 4, 31, 0x0F".toList = some 0x0F1F4004#32 := by decide +kernel
theorem test_assemble_refuses : ["TBLRD 0, 32, 0", "ABS.B 256", "ABS.T 2, 0, 0"].all
    (fun l => Asm.assembleWord l.toList == none) = true := by decide +kernel

/-! ### Configurations, from 95_test_vectors.md section 1 -/

/-- The base point B of EX1, and its coordinates. -/
def bx : Nat := 12216525397769193039033285140139874868932027386087289415053270333399021305954
def byy : Nat := 16950150798460657717958625567821834550301663161624707787222815936182638968203
def b1 : Point := ⟨bx, byy⟩
/-- `2B`. -/
def b2 : Point :=
  ⟨15706653028033339120079672312631572105298437607251790549528084627318765304101,
   633281375905621697187330766174974863687049529291089048651929454608812697683⟩

/-- EX1's D and N with five identity generators, so that its table is known. -/
def cfgId : Params where
  D := 12181644023421730124874158521699555681764249180949974110617291017600649128846
  N := 2736030358979909402780800718157159386076813972158567259200215660948447373041
  base := 0x1000

/-- EX1 with the first generator not canonical (EX2b, its other generators the identity). -/
def cfgInvalid : Params := { cfgId with gen := #v[((bx + P : Nat), (byy : Nat)), (0, 1), (0, 1), (0, 1), (0, 1)] }

/-- EX3: D_NONSQUARE fails, and `(2, 2) + (2, 2)` has a zero denominator. -/
def cfgEx3 : Params :=
  { cfgId with D := 1368015179489954701390400359078579693034272775026002146481137761660988030976,
               gen := Vector.replicate 5 (2, 2) }

theorem cfgId_gen : cfgId.gen = Vector.replicate 5 (0, 1) := rfl
theorem cfgId_built : buildTable cfgId = some idTable := buildTable_id cfgId cfgId_gen
theorem cfgId_valid : validGenerators cfgId = true := validGenerators_id cfgId cfgId_gen
theorem cfgId_nonsquare : cfgId.DNonsquare := dNonsquare_of_euler cfgId (by decide +kernel) (by decide +kernel)
theorem cfgInvalid_invalid : validGenerators cfgInvalid = false := by decide +kernel
theorem cfgEx3_valid : validGenerators cfgEx3 = true := by decide +kernel
theorem cfgEx3_fails : buildTable cfgEx3 = none := by decide +kernel

/-! ### States -/

/-- Right after reset with the configuration `cfgId`. -/
def fresh : State := { State.reset with cfg := cfgId }

/-- READY with the table of the identity. -/
def ready : State := { fresh with table := idTable, tstate := .ready }

/-- In a session that has just begun. -/
def session : State := { ready with hstate := .absorb }

/-- A small table whose window 0 selects B for the byte 1, and the identity elsewhere. -/
def smallTable : Table := [[idPt, b1] :: List.replicate 31 [idPt]]

/-- A table every scalar of which gives `q`, for a canonical `q`. -/
def constTable (q : Point) : Table := List.replicate 5 (List.replicate 256 q :: List.replicate 31 (List.replicate 256 idPt))

/-- The session registers with one triple left in chunk 0: 61 triples of weight 1 absorbed. -/
def lastTriple : Session :=
  { Session.fresh with acc := BitVec.ofNat 256 ((16 ^ 61 - 1) / 15), cur := BitVec.ofNat 256 (16 ^ 61), rem := 1, triples := 61 }

/-- The engine has the turn and `w` is pending. -/
def pend (s : State) (w : Word) : State := { s with pending := w, busy := true, inputs := [.engine] }

/-- The host's next access is `a`. -/
def host (s : State) (a : Access) : State := { s with inputs := [.access a] }

/-- The answer is a next state with the property. -/
def meets (r : Result) (q : State → Bool) : Bool :=
  match r with
  | .next t => q t
  | .fault _ => false
  | .refused _ => false

theorem exists_of_meets {r : Result} {q : State → Bool} (h : meets r q = true) : ∃ t, r = .next t ∧ q t = true := by
  match r, h with
  | .next t, h => exact ⟨t, rfl, h⟩

/-- An operand as a register. -/
def reg (n : Int) : Word256 := BitVec.ofInt 256 n

/-! ### One step of each command, expected results from 95_test_vectors.md sections 4 to 8 -/

/-- Section 6: NOP clears ERR. -/
theorem test_nop : meets (step (pend { fresh with err := .badState } 0)) (fun t => t.err == .ok && !t.busy) = true := by
  decide +kernel

/-- Section 6: an illegal word sets ERR = 1; STATUS 0x112 in a session. -/
theorem test_illegal : meets (step (pend session 0x00010007#32)) (fun t => t.status == 0x112#32) = true := by decide +kernel

/-- Section 4: `2^255` signed and unsigned. -/
theorem test_wrap_signed : meets (step (pend { fresh with opaX := reg (2 ^ 255) } 0x101#32)) (fun t => t.resX.toNat ==
    2296623278899909149392123295113552567054915054668197682675952536909277386934) = true := by decide +kernel
theorem test_wrap_unsigned : meets (step (pend { fresh with opaX := reg (2 ^ 255) } 0x001#32)) (fun t => t.resX.toNat ==
    439407080080000253388677423043606819021898917490369576524263124039169986107) = true := by decide +kernel

/-- Section 5: B + B = 2B. -/
theorem test_padd : meets (step (pend { fresh with opaX := reg bx, opaY := reg byy, opbX := reg bx, opbY := reg byy } 2))
    (fun t => t.resX.toNat == b2.x && t.resY.toNat == b2.y && t.status == 0) = true := by decide +kernel

/-- Section 5: (1, 1) + (P, 0) is a range error, checked before the curve. -/
theorem test_padd_range : meets (step (pend { fresh with opaX := 1, opaY := 1, opbX := reg P, resX := 7, resY := 7 } 2))
    (fun t => t.err == .operandRange && t.resX == 7 && t.resY == 7) = true := by decide +kernel

/-- Section 7: EX2b's first generator is not canonical: INVALID_CURVE_POINT and BROKEN, STATUS 0x404. -/
theorem test_buildTable_invalid : meets (step (pend { fresh with cfg := cfgInvalid } 3)) (fun t => t.status == 0x404#32) =
    true := by decide +kernel

/-- Section 7: a second BUILD_TABLE is refused, STATUS 0x302. -/
theorem test_buildTable_again : meets (step (pend ready 3)) (fun t => t.status == 0x302#32) = true := by decide +kernel

/-- Section 7: TBLRD 0, 0, 1 copies the entry. -/
theorem test_tblRead : meets (step (pend { ready with table := smallTable } 0x01000004#32)) (fun t =>
    t.resX.toNat == bx && t.resY.toNat == byy && t.err == .ok) = true := by decide +kernel

/-- Section 7: TBLRD 5, 0, 0 is BAD_GEN, STATUS 0x802. -/
theorem test_tblRead_badGen : meets (step (pend ready 0x00005004#32)) (fun t => t.status == 0x802#32) = true := by
  decide +kernel

/-- Section 8.1: fsToPoint(N + 1, 0) is B. -/
theorem test_fsToPoint : meets (step (pend { ready with table := smallTable, opaX := reg (cfgId.N + 1) } 0x00000005#32))
    (fun t => t.resX.toNat == bx && t.resY.toNat == byy && t.err == .ok) = true := by decide +kernel

/-- Section 8.2: after HINIT, STATUS 0x12, HSTAT 0x1F0, HRES (0, 1). -/
theorem test_hashInit : meets (step (pend { ready with hstate := .done, session := lastTriple } 6)) (fun t =>
    t.status == 0x12#32 && t.session.hstat == 0x1F0#32 && t.session.hresX == 0 && t.session.hresY == 1) = true := by
  decide +kernel

/-- Section 8.3: 0x90 leaves ACC 49, CUR 256, HSTAT 0x55E0. -/
theorem test_absorbByte : meets (step (pend session 0x00009007#32)) (fun t => t.session.acc.toInt == 49 &&
    t.session.cur.toNat == 256 && t.session.hstat == 0x55E0#32) = true := by decide +kernel

/-- Section 8.2: the triple (0, 1, 1) leaves ACC -3, CUR 16, HSTAT 0x21E8. -/
theorem test_absorbTriple : meets (step (pend session 0x00000608#32)) (fun t => t.session.acc.toInt == -3 &&
    t.session.cur.toNat == 16 && t.session.hstat == 0x21E8#32) = true := by decide +kernel

/-- Sections 2.1, 8.2: a session of the triple (0, 0, 0) ends with HRES B, HSTAT 0x21F1, STATUS 0x22. -/
theorem test_hashFinish : meets (step (pend { session with table := smallTable, session :=
      { Session.fresh with acc := 1, cur := 16, rem := 61, triples := 1 } } 9)) (fun t =>
      t.session.hresX.toNat == bx && t.session.hresY.toNat == byy && t.session.hstat == 0x21F1#32 &&
      t.status == 0x22#32) = true := by decide +kernel

/-! ### The window -/

/-- 20_memory.md R52: word 1 of OPA_X. -/
theorem test_write_word : meets (step (host { fresh with opaX := reg (-1) } (.write 0x1024 4 5#32))) (fun t =>
    t.opaX.toNat == 2 ^ 256 - 1 - (2 ^ 32 - 1 - 5) * 2 ^ 32) = true := by decide +kernel

/-- Section 6: while BUSY = 1 a write of OPA_X is dropped and OVR set. -/
theorem test_write_busy : meets (step (host { fresh with busy := true } (.write 0x1020 4 5#32))) (fun t =>
    t.opaX == 0 && t.ovr && t.status == 0x1001#32) = true := by decide +kernel

/-- The vectors of B's words in section 1. -/
theorem test_words_of_b : (List.range 8).map (wordOf (reg bx)) = [0xF1AAC062#32, 0x51E8DC38#32, 0x92C6CE19#32,
    0xF0B773AD#32, 0xBFE76F10#32, 0x2E018E11#32, 0x745002F4#32, 0x1B024EEF#32] := by decide +kernel

/-! ### Every obligation's hypotheses are met: encoding -/

theorem witness_EncodeThenDecode : (Instr.tblRead 7 31 255).wf = true := by decide

theorem witness_DecodeThenEncode : decode 0xFF1F7004#32 = .ok (.tblRead 7 31 255) := by decide

theorem pend_moves (s : State) (w : Word) (h : s.rst = false) : (pend s w).engineMoves := ⟨h, .inr rfl⟩

theorem witness_ReservedOpcodesAreIllegal : 0x0A ≤ (0x0A#32 : Word).toNat % 256 ∧ 0x0A ≤ (0xFFFFFFFF#32 : Word).toNat % 256 ∧
    (pend fresh 0x0A#32).engineMoves ∧ (pend fresh 0x0A#32).busy = true ∧ (pend fresh 0x0A#32).pending = 0x0A#32 :=
  ⟨by decide, by decide, pend_moves _ _ rfl, rfl, rfl⟩

theorem witness_ReservedBitsAreIllegal :
    ([0xFFFFFF00#32, 0xFFFFFE00#32] : List Word)[(0x00000201#32 : Word).toNat % 256]? = some 0xFFFFFE00#32 ∧
    0x00000201#32 &&& 0xFFFFFE00#32 ≠ 0 ∧ 0x00000101#32 &&& 0xFFFFFE00#32 = 0 ∧
    (pend fresh 0x00000201#32).engineMoves ∧ (pend fresh 0x00000201#32).busy = true :=
  ⟨by decide, by decide, by decide, pend_moves _ _ rfl, rfl⟩

/-! ### Turns -/

theorem witness_StepRunsDecodedCommand : (pend fresh 0x101#32).engineMoves ∧ (pend fresh 0x101#32).busy = true ∧
    decode (pend fresh 0x101#32).pending = .ok (.wrap true) := ⟨pend_moves _ _ rfl, rfl, by decide⟩

theorem witness_IllegalWordCompletes : (pend fresh 0x0A#32).engineMoves ∧ (pend fresh 0x0A#32).busy = true ∧
    decode (pend fresh 0x0A#32).pending = .error .reservedOpcode := ⟨pend_moves _ _ rfl, rfl, by decide⟩

theorem witness_IdleEngineKeepsState : fresh.engineMoves ∧ fresh.busy = false := ⟨⟨rfl, .inl rfl⟩, rfl⟩

theorem witness_PendingCommandCompletes : ∃ t, Host.Core.run Sys2Proof.core 2 (host fresh (.write 0x1004 4 0#32)) = .next t :=
  ⟨_, rfl⟩

theorem host_moves (s : State) (a : Access) (h : s.rst = false) : (host s a).hostMoves a := ⟨h, rfl⟩

theorem witness_CmdWriteIssues :
    (host fresh (.write (fresh.cfg.base + 0x004) 4 3#32)).hostMoves (.write (fresh.cfg.base + 0x004) 4 3#32) ∧
    fresh.busy = false ∧
    (host { fresh with busy := true } (.write (fresh.cfg.base + 0x004) 4 3#32)).busy = true :=
  ⟨host_moves _ _ rfl, rfl, rfl⟩

theorem witness_BusyDropsWrites : ∀ off, off ∈ [0x004, 0x020, 0x09C] →
    (off = 0x004 ∨ 0x020 ≤ off ∧ off < 0x0A0 ∧ off % 4 = 0) ∧
    (host { fresh with busy := true } (.write (fresh.cfg.base + off) 4 5#32)).hostMoves (.write (fresh.cfg.base + off) 4 5#32) ∧
    (host { fresh with busy := true } (.read (fresh.cfg.base + 0x1FC) 4)).hostMoves (.read (fresh.cfg.base + 0x1FC) 4) ∧
    (host { fresh with busy := true } (.write (fresh.cfg.base + 0x008) 4 0x1000#32)).hostMoves
      (.write (fresh.cfg.base + 0x008) 4 0x1000#32) := by
  intro off h
  refine ⟨?_, host_moves _ _ rfl, host_moves _ _ rfl, host_moves _ _ rfl⟩
  simp only [List.mem_cons, List.not_mem_nil, or_false] at h
  omega

theorem witness_DataRegisterWords :
    (host fresh (.read (fresh.cfg.base + (DataReg.hresY.offset + 4 * 7)) 4)).hostMoves
      (.read (fresh.cfg.base + (DataReg.hresY.offset + 4 * 7)) 4) ∧
    DataReg.opbY.isOperand = true ∧ fresh.busy = false ∧
    (host fresh (.write (fresh.cfg.base + (DataReg.opbY.offset + 4 * 7)) 4 5#32)).hostMoves
      (.write (fresh.cfg.base + (DataReg.opbY.offset + 4 * 7)) 4 5#32) :=
  ⟨host_moves _ _ rfl, rfl, rfl, host_moves _ _ rfl⟩

theorem witness_OnlyAlignedWordAccesses :
    (host fresh (.read 0x1002 4)).hostMoves (.read 0x1002 4) ∧ (host fresh (.read 0x1000 2)).hostMoves (.read 0x1000 2) ∧
    (host fresh (.write 0x11FC 4 0#32)).hostMoves (.write 0x11FC 4 0#32) ∧ fresh.cfg.base ≤ 0x11FC ∧
    0x11FC < fresh.cfg.base + 512 :=
  ⟨host_moves _ _ rfl, host_moves _ _ rfl, host_moves _ _ rfl, by decide, by decide⟩

theorem witness_ReservedAndReadOnlyOffsets :
    (host fresh (.read (fresh.cfg.base + 0x1FC) 4)).hostMoves (.read (fresh.cfg.base + 0x1FC) 4) ∧
    (host fresh (.read (fresh.cfg.base + 0x010) 4)).hostMoves (.read (fresh.cfg.base + 0x010) 4) ∧
    (host fresh (.write (fresh.cfg.base + 0x0A0) 4 5#32)).hostMoves (.write (fresh.cfg.base + 0x0A0) 4 5#32) ∧
    (host fresh (.write (fresh.cfg.base + 0x01C) 4 5#32)).hostMoves (.write (fresh.cfg.base + 0x01C) 4 5#32) :=
  ⟨host_moves _ _ rfl, host_moves _ _ rfl, host_moves _ _ rfl, host_moves _ _ rfl⟩

theorem witness_StatusFields :
    (host session (.read (session.cfg.base + 0x008) 4)).hostMoves (.read (session.cfg.base + 0x008) 4) ∧
    (host session (.write (session.cfg.base + 0x008) 4 0x1000#32)).hostMoves (.write (session.cfg.base + 0x008) 4 0x1000#32) ∧
    (pend fresh 0x0A#32).engineMoves ∧ (pend fresh 0x0A#32).busy = true ∧ decode 0x0A#32 = .error .reservedOpcode ∧
    (pend fresh 0x101#32).engineMoves ∧ (pend fresh 0x101#32).busy = true ∧ decode 0x101#32 = .ok (.wrap true) :=
  ⟨host_moves _ _ rfl, host_moves _ _ rfl, pend_moves _ _ rfl, rfl, by decide, pend_moves _ _ rfl, rfl, by decide⟩

theorem witness_HstatFields : (host session (.read (session.cfg.base + 0x00C) 4)).hostMoves
    (.read (session.cfg.base + 0x00C) 4) := host_moves _ _ rfl

theorem witness_IdIsConstant : (host session (.read session.cfg.base 4)).hostMoves (.read session.cfg.base 4) ∧
    (host session (.write session.cfg.base 4 5#32)).hostMoves (.write session.cfg.base 4 5#32) :=
  ⟨host_moves _ _ rfl, host_moves _ _ rfl⟩

theorem witness_ResetRestoresEveryRegister :
    ∃ t, step { session with busy := true, inputs := [.reset true] } = .next t := ⟨_, rfl⟩

theorem witness_WindowSilentInReset :
    (host { fresh with rst := true } (.read 0x1000 4)).rst = true ∧
    (host { fresh with rst := true } (.read 0x1000 4)).inputs.head? = some (.access (.read 0x1000 4)) ∧
    ({ fresh with rst := true, inputs := [.reset false, .access (.read 0x1000 4)] } : State).inputs =
      [.reset false, .access (.read 0x1000 4)] := ⟨rfl, rfl, rfl⟩

theorem witness_ParametersNeverChange : ∃ t, step (host fresh (.write 0x1004 4 3#32)) = .next t := ⟨_, rfl⟩

/-! ### The commands -/

theorem witness_NopReportsSuccess : (0x100#32 : Word).toNat % 256 = 0 ∧ (0x100#32 : Word) ≠ 0 ∧
    (pend fresh 0x100#32).engineMoves ∧ (pend fresh 0x100#32).busy = true ∧ (pend fresh 0x100#32).pending = 0x100#32 :=
  ⟨by decide, by decide, pend_moves _ _ rfl, rfl, rfl⟩

theorem witness_WrapLaws : ∃ t, exec (.wrap true) { fresh with opaX := reg (-1) } = .next t := ⟨_, rfl⟩

theorem witness_WrapAgreesWithSourceLoop : (-(-(2 : Int) ^ 255)).toNat < 2 ^ 256 := by decide +kernel

/-- B + B, whose denominators are not 0. -/
theorem witness_PaddWritesSum : ∃ s : State, s.cfg = cfgId ∧ s.opaX.toNat = bx ∧ s.opaY.toNat = byy ∧ s.opbX.toNat = bx ∧
    s.opbY.toNat = byy ∧ bx < P ∧ byy < P ∧
    (-(bx : Int) * bx + byy * byy - 1 - cfgId.D * bx * bx * byy * byy) % P = 0 ∧
    (1 + cfgId.D * bx * bx * byy * byy) % P ≠ 0 ∧ (1 - cfgId.D * bx * bx * byy * byy) % P ≠ 0 :=
  ⟨{ fresh with opaX := reg bx, opaY := reg byy, opbX := reg bx, opbY := reg byy }, rfl, by decide +kernel, by decide +kernel,
    by decide +kernel, by decide +kernel, by decide +kernel, by decide +kernel, by decide +kernel, by decide +kernel,
    by decide +kernel⟩

/-- One state for each of PADD's codes: (P, 1) + ID, (1, 1) + ID, ID + (1, 1), and EX3's (2, 2) + (2, 2). -/
theorem witness_PaddRefuses :
    P ≤ (reg P).toNat ∧
    onCurve cfgId (1#256).toNat (1#256).toNat = false ∧ onCurve cfgId (0#256).toNat (1#256).toNat = true ∧
    onCurve cfgEx3 (2#256).toNat (2#256).toNat = true ∧ (2#256).toNat < P ∧
    (1 + cfgEx3.D * (2#256).toNat * (2#256).toNat * (2#256).toNat * (2#256).toNat) % P = 0 := by decide +kernel

theorem witness_PointAddLaws : cfgId.DNonsquare ∧ 0 < b1.x ∧ b1.x < P ∧ b1.y < P ∧ onCurve cfgId b1.x b1.y = true :=
  ⟨cfgId_nonsquare, by decide +kernel, by decide +kernel, by decide +kernel, by decide +kernel⟩

theorem witness_InverseIsUnique : (2 : Int) % P ≠ 0 ∧ (1 : Int) ≤ (P + 1) / 2 ∧ ((P : Int) + 1) / 2 < P ∧
    2 * (((P : Int) + 1) / 2) % P = 1 ∧ (P : Int) % P = 0 := by decide +kernel

theorem witness_NonsquareMeansComplete : cfgId.DNonsquare ∧ onCurve cfgId b1.x b1.y = true ∧ onCurve cfgId b2.x b2.y = true :=
  ⟨cfgId_nonsquare, by decide +kernel, by decide +kernel⟩

theorem witness_SumStaysOnCurve : pointAdd cfgId b1 b1 = some b2 ∧ onCurve cfgId b1.x b1.y = true := by decide +kernel

theorem witness_BuildTableBuilds :
    fresh.tstate = .empty ∧ validGenerators fresh.cfg = true ∧ (buildTable fresh.cfg).isSome = true :=
  ⟨rfl, cfgId_valid, by rw [show fresh.cfg = cfgId from rfl, cfgId_built]; rfl⟩

theorem witness_BuildTableCannotFailOnCurve : fresh.tstate = .empty ∧ validGenerators fresh.cfg = true ∧ fresh.cfg.DNonsquare :=
  ⟨rfl, cfgId_valid, cfgId_nonsquare⟩

theorem witness_BuildTableRefuses :
    ready.tstate ≠ .empty ∧
    ({ fresh with cfg := cfgInvalid } : State).tstate = .empty ∧ validGenerators cfgInvalid = false ∧
    ({ fresh with cfg := cfgEx3 } : State).tstate = .empty ∧ validGenerators cfgEx3 = true ∧ buildTable cfgEx3 = none :=
  ⟨by decide +kernel, rfl, cfgInvalid_invalid, rfl, cfgEx3_valid, cfgEx3_fails⟩

theorem ready_inv : ready.Inv where
  idle _ := rfl
  running h := by rcases h with h | h <;> cases h
  done h := by cases h
  digest h := by rcases h with h | h <;> cases h
  failed h := by cases h
  ready _ := rfl
  table _ := ⟨cfgId_valid, cfgId_built⟩
  reset h := by cases h

theorem witness_TblReadCopiesEntry : ready.Inv ∧ ready.tstate = .ready := ⟨ready_inv, rfl⟩

theorem witness_TableCommandsRefuse :
    fresh.tstate ≠ .ready ∧ ready.tstate = .ready ∧
    fsToPoint cfgEx3 [[[⟨2, 2⟩, ⟨2, 2⟩], [⟨2, 2⟩]]] ((1#256 : Word256).toNat : Int) 0 = none := by decide +kernel

theorem witness_TableIsWriteOnce :
    (∃ t, step (pend ready 0) = .next t ∧ ready.tstate = .ready) ∧
    (∃ t, step (pend { fresh with tstate := .broken } 3) = .next t) ∧
    ∃ t, step (pend { fresh with cfg := cfgInvalid } 3) = .next t ∧ (t.tstate != .empty) = true :=
  ⟨⟨_, rfl, rfl⟩, ⟨_, rfl⟩, exists_of_meets (by decide +kernel)⟩

theorem witness_FsToPointSumsLookups : ∀ (x : Int) (w : Nat), w < 32 →
    entry ready.table 4 w ((x % ready.cfg.N).toNat / 256 ^ w % 256) = some idPt ∧
    pointAdd ready.cfg idPt idPt = some idPt :=
  fun _ w hw => ⟨entry_idTable 4 w _ (by decide) hw (Nat.mod_lt _ (by decide)), pointAdd_idPt _⟩

theorem witness_FsToPointOfOneIsGenerator : ({ ready with opaX := 1 } : State).Inv ∧ ready.tstate = .ready :=
  ⟨⟨ready_inv.idle, ready_inv.running, ready_inv.done, ready_inv.digest, ready_inv.failed, ready_inv.ready, ready_inv.table,
    fun h => by cases h⟩, rfl⟩

theorem witness_HashInitStartsFresh : ready.tstate = .ready ∧ fresh.tstate ≠ .ready := ⟨rfl, by decide +kernel⟩

/-! ### Sessions -/

theorem lastTriple_inv : SessionInv lastTriple :=
  ⟨by decide, by decide, by decide, by decide +kernel, ⟨List.replicate 61 1, by decide +kernel⟩, by decide,
    by simp [lastTriple, Session.fresh], by decide⟩

theorem witness_AbsorbTripleAddsWeight : session.hstate = .absorb ∧ SessionInv session.session ∧ session.session.bitcnt = 0 ∧
    session.session.triples.toNat < 310 ∧ session.session.rem.toNat ≠ 1 :=
  ⟨rfl, fresh_inv, rfl, by decide +kernel, by decide +kernel⟩

/-- A chunk's last triple, whose flush answers on the table of the identity and fails under EX3. -/
theorem witness_LastTripleFlushesChunk : SessionInv lastTriple ∧ lastTriple.bitcnt = 0 ∧ lastTriple.triples.toNat < 310 ∧
    lastTriple.rem.toNat = 1 ∧
    fsToPoint cfgId idTable (lastTriple.acc.toInt + tripleWeight true true true * lastTriple.cur.toNat) 0 = some idPt ∧
    pointAdd cfgId ⟨lastTriple.hresX.toNat, lastTriple.hresY.toNat⟩ idPt = some idPt ∧
    (fsToPoint cfgEx3 (constTable ⟨2, 2⟩) (lastTriple.acc.toInt + tripleWeight true true true * lastTriple.cur.toNat)
      0).bind (pointAdd cfgEx3 ⟨2, 2⟩) = none :=
  ⟨lastTriple_inv, rfl, by decide, by decide, fsToPoint_idTable _ _ _ (by decide), pointAdd_idPt _, by decide +kernel⟩

/-- The byte 0x90 of 95_test_vectors.md section 8.3, which answers; and a first triple that fails under EX3. -/
theorem witness_AbsorbByteRunsCompleteTriples :
    session.hstate = .absorb ∧ SessionInv session.session ∧ session.session.bitsAbsorbed + 8 ≤ 930 ∧
    (List.range session.session.bitcnt.toNat).map session.session.bitbuf.getLsbD ++ (List.range 8).map (0x90).testBit =
      [(false, false, false), (false, true, false)].flatMap (fun x => [x.1, x.2.1, x.2.2]) ++ [false, true] ∧
    (∃ u, stepTriples session.cfg session.table [(false, false, false), (false, true, false)] session.session = some u) ∧
    SessionInv { lastTriple with hresX := 2, hresY := 2 } ∧
    stepTriples cfgEx3 (constTable ⟨2, 2⟩) [(false, false, false), (false, true, false)]
      { lastTriple with hresX := 2, hresY := 2 } = none :=
  ⟨rfl, fresh_inv, by decide +kernel, by decide +kernel, Option.isSome_iff_exists.mp (by decide +kernel),
    lastTriple_inv.setHres _ _, by decide +kernel⟩

/-- The registers after 116 bytes (95_test_vectors.md section 8.4), and after 310 triples. -/
theorem witness_TooLongInputFailsSession :
    930 < 3 * (309#9).toNat + (1#2).toNat + 8 ∧ ¬ 930 < 3 * (306#9).toNat + (2#2).toNat + 8 ∧
    930 < 3 * (310#9).toNat + 3 ∧ ¬ 930 < 3 * (309#9).toNat + 3 := by decide

theorem witness_SessionCommandsRefuse : ready.hstate ≠ .absorb ∧ session.hstate = .absorb ∧
    ({ Session.fresh with bitcnt := 2 } : Session).bitcnt ≠ 0 := by decide +kernel

theorem witness_Byte117IsTooLong : ∃ t, execAll (.hashInit :: (List.replicate 116 0x90).map .absorbByte) ready = .next t ∧
    (t.hstate == .absorb && t.session.hstat == 0x0026AA0C#32) = true :=
  exists_of_meets (q := fun t => t.hstate == .absorb && t.session.hstat == 0x0026AA0C#32) (by decide +kernel)

/-- The padding of `0x90` (section 8.3) and the flush of the chunk it has begun; a padding triple that ends a chunk, and a
chunk begun and unpadded, whose flushes fail under EX3. -/
theorem witness_HashFinishPadsAndFlushes :
    (∃ u, stepTriple cfgId idTable false true false
      ({ Session.fresh with acc := 49, cur := 256, rem := 60, triples := 2, bitcnt := 2, bitbuf := 2 }) = some u) ∧
    (∃ v, flush cfgId idTable { Session.fresh with acc := 49, cur := 256, rem := 60, triples := 2 } = some v) ∧
    SessionInv { Session.fresh with acc := 49, cur := 256, rem := 60, triples := 2, bitcnt := 2, bitbuf := 2 } ∧
    SessionInv { lastTriple with bitcnt := 1, hresX := 2, hresY := 2 } ∧
    stepTriple cfgEx3 (constTable ⟨2, 2⟩) false false false { lastTriple with bitcnt := 1, hresX := 2, hresY := 2 } = none ∧
    SessionInv { lastTriple with hresX := 2, hresY := 2 } ∧ lastTriple.rem.toNat ≠ 62 ∧
    flush cfgEx3 (constTable ⟨2, 2⟩) { lastTriple with hresX := 2, hresY := 2 } = none :=
  ⟨Option.isSome_iff_exists.mp (by decide +kernel), Option.isSome_iff_exists.mp (by decide +kernel),
    ⟨by decide, by decide, by decide, by decide, ⟨[1, 3], by decide⟩, by decide,
      fun i hi => BitVec.getLsbD_of_ge _ i hi, by decide⟩,
    ⟨by decide, by decide, by decide, by decide +kernel, ⟨List.replicate 61 1, by decide +kernel⟩, by decide,
      by simp [lastTriple, Session.fresh], by decide⟩,
    by decide +kernel, lastTriple_inv.setHres _ _, by decide, by decide +kernel⟩

theorem witness_SessionComputesSourceHash : ready.tstate = .ready ∧ ([0x90] : List Nat).length ≤ 116 ∧
    (∀ b ∈ ([0x90] : List Nat), b < 256) ∧ ∃ u, hashBuffer ready.cfg ready.table [0x90] = some u :=
  ⟨rfl, by decide, by decide, Option.isSome_iff_exists.mp (by decide +kernel)⟩

theorem witness_SessionDependsOnInputAlone :
    ([.nop, .hashInit, .wrap false, .absorbByte 0x90, .padd, .hashFinish] : List Instr).filter (fun i => !standalone i) =
      .hashInit :: [.absorbByte 0x90, .hashFinish] ∧
    ([.hashInit, .absorbByte 0x90, .hashFinish] : List Instr).filter (fun i => !standalone i) =
      .hashInit :: [.absorbByte 0x90, .hashFinish] ∧
    (∃ t, execAll [.nop, .hashInit, .wrap false, .absorbByte 0x90, .padd, .hashFinish] ready = .next t ∧
      (t.hstate == .done) = true) ∧
    ∃ t, execAll [.hashInit, .absorbByte 0x90, .hashFinish] { ready with opaX := 5, hstate := .failed } = .next t ∧
      (t.hstate == .done) = true :=
  ⟨by decide, by decide, exists_of_meets (q := fun t => t.hstate == .done) (by decide +kernel),
    exists_of_meets (q := fun t => t.hstate == .done) (by decide +kernel)⟩

theorem witness_NoInverseNeverOccursOnCurve : session.CurveInv ∧ ∃ t, exec .hashFinish session = .next t where
  left := {
    nonsquare := cfgId_nonsquare
    table := fun _ => ⟨cfgId_valid, cfgId_built⟩
    ready := fun _ => rfl
    result := fun _ => ⟨by decide +kernel, by decide +kernel⟩
    session := fun _ => fresh_inv }
  right := ⟨_, rfl⟩

/-! ### The whole machine -/

theorem witness_StepKeepsInvariant : ({ ready with inputs := [.engine], busy := true, pending := 6 } : State).Inv ∧
    ∃ t, step { ready with inputs := [.engine], busy := true, pending := 6 } = .next t ∧ (t.hstate == .absorb) = true :=
  ⟨⟨ready_inv.idle, ready_inv.running, ready_inv.done, ready_inv.digest, ready_inv.failed, ready_inv.ready, ready_inv.table,
    fun h => by cases h⟩, exists_of_meets (q := fun t => t.hstate == .absorb) (by decide +kernel)⟩

theorem witness_SessionStateTransitions : ∃ t, exec (.absorbTriple true false false)
    { session with cfg := cfgEx3, table := constTable ⟨2, 2⟩, session := { lastTriple with hresX := 2, hresY := 2 } } =
      .next t ∧ (t.hstate == .failed && t.err == .noInverse) = true :=
  exists_of_meets (q := fun t => t.hstate == .failed && t.err == .noInverse) (by decide +kernel)

theorem witness_RegisterWriters : ∃ t, exec (.wrap true) { fresh with opaX := reg (-1) } = .next t ∧ (t.resX != 0) = true :=
  exists_of_meets (q := fun t => t.resX != 0) (by decide +kernel)

/-- A state for each clause of R212's table: INVALID_CURVE_POINT, INPUT_TOO_LONG, a code that changes nothing else, BROKEN and
FAILED that last; NO_INVERSE in a session is `witness_SessionStateTransitions`. -/
theorem witness_CodesChangeOnlyWhatTheyList :
    (∃ t, exec .buildTable { fresh with cfg := cfgInvalid } = .next t ∧ (t.err == .invalidCurvePoint) = true) ∧
    (∃ t, exec .buildTable { fresh with cfg := cfgEx3 } = .next t ∧ (t.err == .noInverse) = true) ∧
    (∃ t, exec (.absorbTriple false false false) { session with session := { Session.fresh with triples := 310 } } = .next t ∧
      (t.err == .inputTooLong) = true) ∧
    (∃ t, exec .hashInit fresh = .next t ∧ (t.err == .tableNotReady) = true) ∧
    (∃ t, exec .hashInit { fresh with tstate := .broken } = .next t) ∧
    ∃ t, exec .hashFinish { ready with hstate := .failed } = .next t :=
  ⟨exists_of_meets (q := fun t => t.err == .invalidCurvePoint) (by decide +kernel),
    exists_of_meets (q := fun t => t.err == .noInverse) (by decide +kernel),
    exists_of_meets (q := fun t => t.err == .inputTooLong) (by decide +kernel),
    exists_of_meets (q := fun t => t.err == .tableNotReady) (by decide +kernel), ⟨_, rfl⟩, ⟨_, rfl⟩⟩

theorem witness_WindowBytesAreDigits : (2 ^ 256 - 1 : Nat) < 2 ^ 256 := by decide

/-- A host that writes a command, waits, writes an operand word and the next command. -/
def waitingProgram : List Input :=
  [.access (.write 0x1004 4 0#32), .access (.read 0x1008 4), .engine, .access (.read 0x1008 4),
    .access (.write 0x1020 4 5#32), .access (.write 0x1004 4 1#32)]

theorem witness_WaitingHostNeverSetsOvr : waits 0x1000 false waitingProgram = true ∧
    ∃ t, Host.Core.run Sys2Proof.core 7 { fresh with inputs := waitingProgram } = .next t ∧ (t.resX.toNat == 5) = true :=
  ⟨by decide +kernel, exists_of_meets (q := fun t => t.resX.toNat == 5) (by decide +kernel)⟩

/-! ### Host programs (30_encoding.md R90) -/

theorem witness_WaitPollsUntilIdle : fresh.rst = false ∧ fresh.busy = false ∧
    ({ fresh with busy := true } : State).busy = true := ⟨rfl, rfl, rfl⟩

theorem witness_DoPerformsItsCommand : fresh.rst = false ∧ fresh.busy = false ∧ Instr.nop.wf = true ∧
    ∀ c ∈ HostProgram.session [0x90], c.wf = true := ⟨rfl, rfl, rfl, by decide⟩

/-- The program ends in a state with the property. -/
def runMeets (os : List HostProgram.Op) (sch : HostProgram.Schedule) (s : State) (q : State → Bool) : Bool :=
  match HostProgram.run os sch s with
  | .next r => q r.state
  | .fault _ => false
  | .refused _ => false

/-- An idle DO that the engine leaves busy for two polls: one read, the write, three reads (section 6's ERR = 6 and NOP). -/
theorem test_do_polls : runMeets (HostProgram.doCmd .nop) [false, false, false, false, true] { fresh with err := .badState }
    (fun t => t.busReads == [0x000#32, 0x601#32, 0x601#32, 0x600#32]) = true := by decide +kernel

/-- Section 6: two CMD writes with no WAIT between, the second dropped. -/
theorem test_write_without_wait : runMeets [.wr 0x004 3#32, .wr 0x004 0#32, .rd 0x008, .wait] [false, false, false] ready
    (fun t => t.busReads == [0x1302#32, 0x1003#32]) = true := by decide +kernel

/-- P2 of section 10: LD256 and RD256 of the same register. -/
theorem test_ld256_rd256 : runMeets (HostProgram.ld256 .opaX (reg bx) ++ HostProgram.rd256 .opaX) [] fresh
    (fun t => HostProgram.assembled t == reg bx) = true := by decide +kernel

end Sys2Proof.Tests
end

section
/-! PROOFS. 00_scope.md R8: D_NONSQUARE makes point addition complete on the curve (42_point_adder.md R123). -/

namespace Sys2Proof.Machine

open Sys2Proof Config

/-- D_NONSQUARE (00_scope.md R8) read in the field. -/
theorem dNonsquare_iff_not_isSquare (p : Params) : p.DNonsquare ↔ ¬ IsSquare (p.D : ZMod P) := by
  refine not_congr ⟨fun ⟨r, hr⟩ => ⟨r, ?_⟩, fun ⟨c, hc⟩ => ?_⟩
  · rw [← Int.cast_mul, eq_comm, cast_eq_cast_iff, hr]
  · obtain ⟨r, rfl⟩ := ZMod.intCast_surjective c
    exact ⟨r, ((cast_eq_cast_iff _ _).mp (hc.trans (Int.cast_mul r r).symm)).symm⟩

section EdwardsIdentity

variable {F : Type*} [Field F] {i d x₁ y₁ x₂ y₂ t : F}

/-- A zero denominator makes `d` times a square a square: the second curve equation, scaled by `d * x₁² * y₁²`, turns into
the first one, and the mixed terms agree because `t * t = 1`. -/
theorem sq_eq_d_mul_sq (hi : i * i = -1) (h₁ : -x₁ ^ 2 + y₁ ^ 2 = 1 + d * x₁ ^ 2 * y₁ ^ 2)
    (h₂ : -x₂ ^ 2 + y₂ ^ 2 = 1 + d * x₂ ^ 2 * y₂ ^ 2) (ht : t = d * x₁ * x₂ * y₁ * y₂) (ht1 : t * t = 1) :
    (y₁ + t * i * x₁) ^ 2 = d * (x₁ * y₁ * (y₂ + i * x₂)) ^ 2 := by
  have hscaled : -x₁ ^ 2 + y₁ ^ 2 = d * x₁ ^ 2 * y₁ ^ 2 * (-x₂ ^ 2 + y₂ ^ 2) := by
    calc -x₁ ^ 2 + y₁ ^ 2 = d * x₁ ^ 2 * y₁ ^ 2 + t * t := by rw [h₁, ht1, add_comm]
      _ = d * x₁ ^ 2 * y₁ ^ 2 * (-x₂ ^ 2 + y₂ ^ 2) := by rw [h₂, ht]; ring
  calc (y₁ + t * i * x₁) ^ 2 = y₁ ^ 2 + (t * t) * (i * i) * x₁ ^ 2 + 2 * i * (x₁ * y₁) * t := by ring
    _ = (-x₁ ^ 2 + y₁ ^ 2) + 2 * i * (x₁ * y₁) * (d * x₁ * x₂ * y₁ * y₂) := by rw [ht1, hi, ht]; ring
    _ = d * (x₁ * y₁) ^ 2 * (y₂ ^ 2 + 2 * i * x₂ * y₂ + -1 * x₂ ^ 2) := by rw [hscaled]; ring
    _ = d * (x₁ * y₁ * (y₂ + i * x₂)) ^ 2 := by rw [← hi]; ring

theorem isSquare_of_sq_eq_mul_sq {z w : F} (h : z ^ 2 = d * w ^ 2) (hw : w ≠ 0) : IsSquare d :=
  ⟨z / w, by rw [← pow_two, div_pow, h, mul_div_cancel_right₀ _ (pow_ne_zero 2 hw)]⟩

/-- Bernstein and Lange's completeness argument: where `-1` is a square, two curve points whose addition meets a zero
denominator show that `d` is a square. One of `y₂ ± i * x₂` is not 0, and `sq_eq_d_mul_sq` holds for both roots `± i`. -/
theorem isSquare_of_zero_denominator (h2 : (2 : F) ≠ 0) (hi : i * i = -1)
    (h₁ : -x₁ ^ 2 + y₁ ^ 2 = 1 + d * x₁ ^ 2 * y₁ ^ 2) (h₂ : -x₂ ^ 2 + y₂ ^ 2 = 1 + d * x₂ ^ 2 * y₂ ^ 2)
    (ht : t = d * x₁ * x₂ * y₁ * y₂) (ht1 : t * t = 1) : IsSquare d := by
  have hne : d * x₁ * x₂ * y₁ * y₂ ≠ 0 := ht ▸ left_ne_zero_of_mul_eq_one ht1
  simp only [mul_ne_zero_iff] at hne
  obtain ⟨⟨⟨⟨-, hx₁⟩, -⟩, hy₁⟩, hy₂⟩ := hne
  have of_root (j : F) (hj : j * j = -1) (hsum : y₂ + j * x₂ ≠ 0) : IsSquare d :=
    isSquare_of_sq_eq_mul_sq (sq_eq_d_mul_sq hj h₁ h₂ ht ht1) (mul_ne_zero (mul_ne_zero hx₁ hy₁) hsum)
  by_cases hplus : y₂ + i * x₂ = 0
  · refine of_root (-i) (by rw [neg_mul_neg, hi]) fun hminus => mul_ne_zero h2 hy₂ ?_
    linear_combination hplus + hminus
  · exact of_root i hi hplus

end EdwardsIdentity

/-- `-1` has a square root mod P, as P is 1 mod 4. -/
theorem exists_root_neg_one : ∃ i : ZMod P, i * i = -1 := by
  have := P_fact
  obtain ⟨i, hi⟩ := ZMod.exists_sq_eq_neg_one_iff.mpr (show P % 4 ≠ 3 by decide)
  exact ⟨i, hi.symm⟩

/-- Settles O30: a NoInverse would make the cross term 1 or -1, and so D a square. -/
theorem nonsquareMeansComplete : Obligations.NonsquareMeansComplete := by
  intro p a b hD ha hb
  have := P_fact
  rw [onCurve_iff] at ha hb
  rw [Option.isSome_iff_ne_none, ne_eq, pointAdd_eq_none_iff]
  intro hzero
  have hcross : crossTerm p a b * crossTerm p a b = 1 := by
    rcases hzero with h | h
    · linear_combination (crossTerm p a b - 1) * h
    · linear_combination -(crossTerm p a b + 1) * h
  have h2 : (2 : ZMod P) ≠ 0 := Ring.two_ne_zero (by rw [ZMod.ringChar_zmod_n]; decide)
  obtain ⟨i, hi⟩ := exists_root_neg_one
  exact (dNonsquare_iff_not_isSquare p).mp hD
    (isSquare_of_zero_denominator h2 hi ha hb (by simp [crossTerm]) hcross)

end Sys2Proof.Machine
end

section
/-! PROOFS. The invariant of the machine (10_state.md R33, R37, R41): it holds right after reset, and every step keeps it. -/

namespace Sys2Proof.Machine

open Sys2Proof Config

/-! ### What the invariant looks at -/

/-- The invariant speaks of the table, the session and the level of RST; the rest of the state is free. -/
theorem State.Inv.congr {s t : State} (hs : s.Inv) (hsession : t.session = s.session) (hhstate : t.hstate = s.hstate)
    (htstate : t.tstate = s.tstate) (htable : t.table = s.table) (hcfg : t.cfg = s.cfg)
    (hreset : t.rst = true → t = t.toReset true) : t.Inv := by
  obtain ⟨idle, running, done, digest, failed, ready, table, -⟩ := hs
  rw [← hsession, ← hhstate] at idle running done digest failed
  rw [← hhstate, ← htstate] at ready
  rw [← htstate, ← hcfg, ← htable] at table
  exact ⟨idle, running, done, digest, failed, ready, table, hreset⟩

/-- The state after either edge of RST meets the invariant (70_reset_and_hazards.md R240). -/
theorem toReset_inv (s : State) (b : Bool) : (s.toReset b).Inv where
  idle _ := rfl
  running h := by simp at h
  done h := by simp at h
  digest h := by simp at h
  failed h := by simp at h
  ready h := by simp at h
  table h := by simp at h
  reset h := by
    obtain rfl : b = true := h
    rfl

/-- Settles O51: the reset state is the state after a release of RST. -/
theorem resetStateMeetsInvariant : Obligations.ResetStateMeetsInvariant := toReset_inv State.reset false

theorem canonical_hres_iff (u : Session) : canonical u.hres = true ↔ u.hresX.toNat < P ∧ u.hresY.toNat < P := by
  rw [canonical, Bool.and_eq_true, decide_eq_true_iff, decide_eq_true_iff]
  rfl

/-! ### What a command may do to a state that meets the invariant

One lemma for each kind of change a command makes, all with RST released. -/

section Changes

variable {s : State} (hs : s.Inv) (hrst : s.rst = false)
include hs hrst

/-- A command that leaves the table and the session alone keeps the invariant. -/
theorem State.Inv.of_untouched {t : State} (hsession : t.session = s.session) (hhstate : t.hstate = s.hstate)
    (htstate : t.tstate = s.tstate) (htable : t.table = s.table) (hcfg : t.cfg = s.cfg) (hrst' : t.rst = s.rst) : t.Inv :=
  hs.congr hsession hhstate htstate htable hcfg fun h => by simp [hrst', hrst] at h

theorem State.Inv.raise (c : Code) : (raise c s).Inv := hs.of_untouched hrst rfl rfl rfl rfl rfl rfl

theorem State.Inv.complete : (complete s).Inv := hs.of_untouched hrst rfl rfl rfl rfl rfl rfl

theorem State.Inv.setResult (a : Point) : (s.setResult a).Inv := hs.of_untouched hrst rfl rfl rfl rfl rfl rfl

/-- With an EMPTY table there is no session, so a BUILD_TABLE that ends with a table `tab` in state `x` keeps the
invariant when a READY `tab` is the built one (43_generator_table.md R143). -/
theorem State.Inv.withTable {tab : Table} {x : TState} {n : Nat} (hempty : s.tstate = .empty)
    (hbuilt : x = .ready → validGenerators s.cfg = true ∧ buildTable s.cfg = some tab) :
    State.Inv { s with tstate := x, table := tab, freeCount := n } := by
  have hidle : s.hstate = .idle := by
    by_contra h
    exact nomatch hempty.symm.trans (hs.ready h)
  exact ⟨hs.idle, hs.running, hs.done, hs.digest, hs.failed, fun h => absurd hidle h, hbuilt,
    fun h => by simp [hrst] at h⟩

theorem State.Inv.breakTable (hempty : s.tstate = .empty) (c : Code) : (breakTable c s).Inv :=
  (hs.withTable hrst (x := .broken) hempty fun h => nomatch h).raise hrst c

/-- A session that runs on with a READY table keeps the invariant when its registers satisfy R41. -/
theorem State.Inv.withRunning {u : Session} (hready : s.tstate = .ready) (hu : SessionInv u)
    (hcan : canonical u.hres = true) : State.Inv { s with session := u, hstate := .absorb } where
  idle h := nomatch h
  running _ := hu
  done h := nomatch h
  digest _ := (canonical_hres_iff u).mp hcan
  failed h := nomatch h
  ready _ := hready
  table := hs.table
  reset h := by simp [hrst] at h

/-- The failure of a running session keeps the invariant (44_hash_core.md R169). -/
theorem State.Inv.failSession (habsorb : s.hstate = .absorb) (c : Code) : (failSession c s).Inv where
  idle h := nomatch h
  running _ := (hs.running (.inl habsorb)).setHres 0 0
  done h := nomatch h
  digest h := by simp at h
  failed _ := ⟨rfl, rfl⟩
  ready _ := hs.ready (by simp [habsorb])
  table := hs.table
  reset h := by simp [hrst] at h

end Changes

/-! ### Every command keeps it -/

/-- A triple of a session with no bit pending keeps R41 (44_hash_core.md R168). -/
theorem stepTriple_inv_aligned {p : Params} {t : Table} {a b c : Bool} {u v : Session} (hu : SessionInv u)
    (hbits : u.bitcnt = 0) (hcap : u.triples.toNat < 310) (h : stepTriple p t a b c u = some v) : SessionInv v := by
  obtain ⟨hcnt, hbuf, -, -⟩ := stepTriple_fields p t a b c u v h
  have hclear : v.clearBits = v :=
    SessionInv.clearBits_eq (hcnt.trans hbits) (by rw [hcnt, hbuf]; exact hu.bitbuf_zero)
  exact hclear ▸ stepTriple_inv p t a b c u v hu hcap h

/-- HASH_FINISH's padding and last flush leave a state that meets the clauses for DONE (44_hash_core.md R170, R171). -/
theorem State.Inv.finish {s : State} {u v : Session} (hs : s.Inv) (hrst : s.rst = false) (habsorb : s.hstate = .absorb)
    (hpad : padTriple s.cfg s.table s.session = some u) (hflush : finalFlush s.cfg s.table u = some v) :
    State.Inv { s with session := v, hstate := .done } := by
  obtain ⟨hu, hcnt, hbuf, hcan⟩ := padTriple_inv _ _ _ _ (hs.running (.inl habsorb)) hpad
  obtain ⟨hgen, hrem, hacc, hcur, hcnt', hbuf', htriples, hcan'⟩ := finalFlush_inv _ _ _ _ hu hflush
  have hdigest := (canonical_hres_iff _).mp (hcan' (hcan ((canonical_hres_iff _).mpr (hs.digest (.inl habsorb)))))
  exact {
    idle := fun h => nomatch h
    running := fun h => by simp at h
    done := fun _ => ⟨hgen, hrem, hacc, hcur, hcnt'.trans hcnt, hbuf'.trans hbuf, htriples⟩
    digest := fun _ => hdigest
    failed := fun h => nomatch h
    ready := fun _ => hs.ready (by simp [habsorb])
    table := hs.table
    reset := fun h => by simp [hrst] at h }

/-- A running session whose registers a command replaces. -/
theorem State.Inv.withSession {s : State} {u : Session} (hs : s.Inv) (hrst : s.rst = false) (habsorb : s.hstate = .absorb)
    (hu : SessionInv u) (hcan : canonical s.session.hres = true → canonical u.hres = true) :
    State.Inv { s with session := u } := by
  have h := hs.withRunning hrst (hs.ready (by simp [habsorb])) hu
    (hcan ((canonical_hres_iff _).mpr (hs.digest (.inl habsorb))))
  rwa [← habsorb] at h

/-- Every command keeps the invariant. -/
theorem exec_inv {i : Instr} {s t : State} (hs : s.Inv) (hrst : s.rst = false) (h : exec i s = .next t) : t.Inv := by
  cases i with
  | nop =>
    obtain rfl := exec_nop h
    exact hs.complete hrst
  | wrap signed =>
    obtain rfl := exec_wrap h
    exact hs.of_untouched hrst rfl rfl rfl rfl rfl rfl
  | padd =>
    obtain ⟨-, rfl⟩ | ⟨-, ⟨-, rfl⟩ | ⟨-, -, ⟨-, rfl⟩ | ⟨r, -, rfl⟩⟩⟩ := exec_padd h
    · exact hs.raise hrst _
    · exact hs.raise hrst _
    · exact hs.raise hrst _
    · exact (hs.setResult hrst r).complete hrst
  | buildTable =>
    obtain ⟨-, rfl⟩ | ⟨hempty, ⟨-, rfl⟩ | ⟨hvalid, ⟨-, rfl⟩ | ⟨tab, hbuild, rfl⟩⟩⟩ := exec_buildTable h
    · exact hs.raise hrst _
    · exact hs.breakTable hrst hempty _
    · exact hs.breakTable hrst hempty _
    · exact (hs.withTable hrst hempty fun _ => ⟨hvalid, hbuild⟩).complete hrst
  | tblRead g w v =>
    obtain ⟨-, rfl⟩ | ⟨-, -, rfl⟩ | ⟨-, -, rfl⟩ := exec_tblRead h
    · exact hs.raise hrst _
    · exact hs.raise hrst _
    · exact (hs.setResult hrst _).complete hrst
  | fsToPoint signed g =>
    obtain ⟨-, rfl⟩ | ⟨-, -, rfl⟩ | ⟨-, -, ⟨-, rfl⟩ | ⟨r, -, rfl⟩⟩ := exec_fsToPoint h
    · exact hs.raise hrst _
    · exact hs.raise hrst _
    · exact hs.raise hrst _
    · exact (hs.setResult hrst r).complete hrst
  | hashInit =>
    obtain ⟨-, rfl⟩ | ⟨hready, rfl⟩ := exec_hashInit h
    · exact hs.raise hrst _
    · exact (hs.withRunning hrst hready fresh_inv (by decide)).complete hrst
  | absorbByte imm8 =>
    obtain ⟨-, rfl⟩ | ⟨habsorb, -, rfl⟩ | ⟨habsorb, hcap, ⟨-, rfl⟩ | ⟨u, hu, rfl⟩⟩ := exec_absorbByte h
    · exact hs.raise hrst _
    · exact hs.failSession hrst habsorb _
    · exact hs.failSession hrst habsorb _
    · obtain ⟨hinv, -, hcan⟩ := absorbBits_inv _ _ _ _ _ (hs.running (.inl habsorb)) hcap hu
      exact (hs.withSession hrst habsorb hinv hcan).complete hrst
  | absorbTriple a b c =>
    obtain ⟨-, rfl⟩ | ⟨-, -, rfl⟩ | ⟨habsorb, -, -, rfl⟩ | ⟨habsorb, hbits, hcap, ⟨-, rfl⟩ | ⟨u, hu, rfl⟩⟩ :=
      exec_absorbTriple h
    · exact hs.raise hrst _
    · exact hs.raise hrst _
    · exact hs.failSession hrst habsorb _
    · exact hs.failSession hrst habsorb _
    · obtain ⟨-, -, -, hcan⟩ := stepTriple_fields _ _ _ _ _ _ _ hu
      have hinv := stepTriple_inv_aligned (hs.running (.inl habsorb)) hbits hcap hu
      exact (hs.withSession hrst habsorb hinv hcan).complete hrst
  | hashFinish =>
    obtain ⟨-, rfl⟩ | ⟨habsorb, ⟨-, rfl⟩ | ⟨u, v, hpad, hflush, rfl⟩⟩ := exec_hashFinish h
    · exact hs.raise hrst _
    · exact hs.failSession hrst habsorb _
    · exact (hs.finish hrst habsorb hpad hflush).complete hrst

/-! ### Every step keeps it -/

theorem State.Inv.rest {s : State} (hs : s.Inv) : s.rest.Inv :=
  hs.congr rfl rfl rfl rfl rfl fun h => congrArg State.rest (hs.reset h)

theorem engineTurn_inv {s t : State} (hs : s.Inv) (h : engineTurn s = .next t) : t.Inv := by
  obtain ⟨-, rfl⟩ | ⟨-, -, rfl⟩ | ⟨hrst, -, hc⟩ := engineTurn_next h
  · exact toReset_inv s true
  · exact hs
  · obtain ⟨i, t', -, he, rfl⟩ | ⟨e, -, rfl⟩ := completion_next hc
    · have ht' := (exec_frame he).rst.trans hrst
      exact (exec_inv hs hrst he).of_untouched ht' rfl rfl rfl rfl rfl rfl
    · exact hs.of_untouched hrst rfl rfl rfl rfl rfl rfl

theorem writeSlot_inv {s : State} (hs : s.Inv) (hrst : s.rst = false) (v : Word) (sl : Slot) :
    (s.writeSlot v sl).Inv := by
  obtain h | ⟨-, h⟩ | ⟨-, -, h⟩ | ⟨-, h⟩ | ⟨r, k, -, -, -, h⟩ := writeSlot_cases s v sl <;> rw [h]
  · exact hs
  · exact hs.of_untouched hrst rfl rfl rfl rfl rfl rfl
  · exact hs.of_untouched hrst rfl rfl rfl rfl rfl rfl
  · exact hs.of_untouched hrst rfl rfl rfl rfl rfl rfl
  · rw [writeData_frame]
    exact hs.of_untouched hrst rfl rfl rfl rfl rfl rfl

theorem hostAccess_inv {a : Access} {s t : State} (hs : s.Inv) (hrst : s.rst = false) (h : hostAccess a s = .next t) :
    t.Inv := by
  obtain ⟨addr, size, -, rfl⟩ | ⟨addr, size, v, -, rfl⟩ := hostAccess_next h
  · exact hs.of_untouched hrst rfl rfl rfl rfl rfl rfl
  · exact writeSlot_inv hs hrst v _

/-- Settles O52: a step is an engine's turn, an edge of RST or a host access; only a command or a reset touches what the
invariant speaks of. -/
theorem stepKeepsInvariant : Obligations.StepKeepsInvariant := by
  intro s t hs h
  obtain ⟨hturn, -⟩ | ⟨b, -, rfl⟩ | ⟨a, -, hrst, haccess⟩ := step_next h
  · exact engineTurn_inv hs.rest hturn
  · exact toReset_inv s.rest b
  · exact hostAccess_inv hs.rest hrst haccess

end Sys2Proof.Machine
end

section
/-! PROOFS. What one step does, by what comes next: the engine's turn (45_control.md R201, R202), and an aligned access of
the register window (20_memory.md R51 to R55). -/

namespace Sys2Proof.Machine

open Sys2Proof Config

/-! ### The engine's turn -/

theorem step_of_engineMoves {s : State} (h : s.engineMoves) : step s = engineTurn s.rest := by
  obtain ⟨-, hin | hin⟩ := h
  · have hrest : s.rest = s := by rw [State.rest, hin, List.tail_nil, ← hin]
    rw [step, hin, hrest]
  · obtain ⟨is, his⟩ := List.head?_eq_some_iff.mp hin
    rw [step, State.rest, his]
    rfl

theorem step_of_pending {s : State} (h : s.engineMoves) (hbusy : s.busy = true) : step s = completion s.rest := by
  rw [step_of_engineMoves h, engineTurn, rest_rst, rest_busy, h.1, hbusy]
  rfl

/-- A pending word that decodes is performed, and BUSY cleared (45_control.md R201). -/
theorem step_of_decode_ok {s : State} {i : Instr} (h : s.engineMoves) (hbusy : s.busy = true)
    (hd : decode s.pending = .ok i) : step s = clearBusy (exec i s.rest) := by
  rw [step_of_pending h hbusy, completion, rest_pending, hd]

/-- A pending ILLEGAL word completes with ILLEGAL_CMD (45_control.md R202). -/
theorem step_of_decode_error {s : State} {e : Illegal} (h : s.engineMoves) (hbusy : s.busy = true)
    (hd : decode s.pending = .error e) : step s = .next { s.rest with err := .illegalCmd, busy := false } := by
  rw [step_of_pending h hbusy, completion, rest_pending, hd]
  rfl

/-- Every command answers a next state (60_exceptions.md R214). -/
theorem exists_exec_next (i : Instr) (s : State) : ∃ t, exec i s = .next t := by
  cases i <;> exact ⟨_, rfl⟩

/-! ### An access of the window -/

theorem step_of_hostMoves {s : State} {a : Access} (h : s.hostMoves a) : step s = hostAccess a s.rest := by
  obtain ⟨hrst, hin⟩ := h
  obtain ⟨is, his⟩ := List.head?_eq_some_iff.mp hin
  rw [step, State.rest, his]
  exact if_neg (by simp [hrst])

theorem alignedWord_base_add (p : Params) {off : Nat} (h4 : off % 4 = 0) : alignedWord (p.base + off) 4 = true := by
  have hbase := p.base_ok
  simp only [alignedWord, decide_true, Bool.true_and, decide_eq_true_eq]
  omega

theorem inWindow_base_add (s : State) {off : Nat} (hoff : off < 512) : s.inWindow (s.cfg.base + off) = true := by
  rw [State.inWindow, Bool.and_eq_true, decide_eq_true_iff, decide_eq_true_iff]
  exact ⟨Nat.le_add_right _ _, Nat.add_lt_add_left hoff _⟩

theorem hostAccess_read (s : State) {off : Nat} (h4 : off % 4 = 0) (hoff : off < 512) :
    hostAccess (.read (s.cfg.base + off) 4) s =
      .next { s with busReads := s.readSlot (slotAt off) :: s.busReads } := by
  rw [hostAccess, if_neg (not_not.mpr (alignedWord_base_add s.cfg h4)),
    if_neg (not_not.mpr (inWindow_base_add s hoff)), Nat.add_sub_cancel_left]

theorem hostAccess_write (s : State) {off : Nat} (v : Word) (h4 : off % 4 = 0) (hoff : off < 512) :
    hostAccess (.write (s.cfg.base + off) 4 v) s = .next (s.writeSlot v (slotAt off)) := by
  rw [hostAccess, if_neg (not_not.mpr (alignedWord_base_add s.cfg h4)),
    if_neg (not_not.mpr (inWindow_base_add s hoff)), Nat.add_sub_cancel_left]

/-- No slot shows what the host still has to do. -/
theorem readSlot_rest (s : State) (sl : Slot) : s.rest.readSlot sl = s.readSlot sl := by
  cases sl with
  | id | cmd | status | hstat | reserved => rfl
  | word r k => cases r <;> rfl

/-- A read of the window returns the slot's value and changes nothing else (20_memory.md R51, R58). -/
theorem step_read {s : State} {off : Nat} (h4 : off % 4 = 0) (hoff : off < 512)
    (h : s.hostMoves (.read (s.cfg.base + off) 4)) :
    step s = .next { s.rest with busReads := s.readSlot (slotAt off) :: s.busReads } := by
  rw [step_of_hostMoves h, ← readSlot_rest]
  exact hostAccess_read s.rest h4 hoff

/-- A write of the window has the slot's effect (20_memory.md R52, R55, R58, R63). -/
theorem step_write {s : State} {off : Nat} {v : Word} (h4 : off % 4 = 0) (hoff : off < 512)
    (h : s.hostMoves (.write (s.cfg.base + off) 4 v)) : step s = .next (s.rest.writeSlot v (slotAt off)) := by
  rw [step_of_hostMoves h]
  exact hostAccess_write s.rest v h4 hoff

/-- Settles O18: slot 0 of the window. -/
theorem idIsConstant : Obligations.IdIsConstant :=
  ⟨fun _ h => step_read (off := 0) rfl (by decide) h, fun _ _ h => step_write (off := 0) rfl (by decide) h⟩

end Sys2Proof.Machine
end

section
/-! PROOFS. The packed views STATUS and HSTAT (10_state.md R22, R23, R31) and the values after reset (10_state.md R40,
70_reset_and_hazards.md R240, R241). -/

namespace Sys2Proof.Machine

open Sys2Proof Config

/-! ### Fields of a packed word -/

/-- The lowest field of a packed word. -/
theorem extractLsb'_append_low {m n : Nat} (x : BitVec m) (y : BitVec n) : (x ++ y).extractLsb' 0 n = y := by
  rw [BitVec.extractLsb'_append_eq_of_add_le (by omega), BitVec.extractLsb'_eq_self]

/-- A field of one bit is that bit. -/
theorem getLsbD_of_extractLsb' {n i : Nat} {w : BitVec n} {b : Bool} (h : w.extractLsb' i 1 = BitVec.ofBool b) :
    w.getLsbD i = b := by
  simpa using congrArg (BitVec.getLsbD · 0) h

/-- The fields of STATUS, each found by dropping the fields below it (10_state.md R22). -/
theorem status_fields (s : State) :
    s.status.extractLsb' 0 1 = BitVec.ofBool s.busy ∧ s.status.extractLsb' 1 2 = s.tstate.bits ∧
    s.status.extractLsb' 3 1 = BitVec.ofBool false ∧ s.status.extractLsb' 4 2 = s.hstate.bits ∧
    s.status.extractLsb' 6 2 = 0 ∧ s.status.extractLsb' 8 4 = s.err.bits ∧
    s.status.extractLsb' 12 1 = BitVec.ofBool s.ovr ∧ s.status.extractLsb' 13 19 = 0 := by
  rw [State.status]
  refine ⟨extractLsb'_append_low _ _, ?_, ?_, ?_, ?_, ?_, ?_, ?_⟩
  all_goals repeat rw [BitVec.extractLsb'_append_eq_of_le (by decide)]
  case refine_7 => exact BitVec.extractLsb'_eq_self
  all_goals exact extractLsb'_append_low _ _

/-- The fields of HSTAT (10_state.md R23). -/
theorem hstat_fields (u : Session) :
    u.hstat.extractLsb' 0 3 = u.genIdx ∧ u.hstat.extractLsb' 3 6 = u.rem ∧ u.hstat.extractLsb' 9 2 = u.bitcnt ∧
    u.hstat.extractLsb' 11 1 = BitVec.ofBool (u.bufBit 0) ∧ u.hstat.extractLsb' 12 1 = BitVec.ofBool (u.bufBit 1) ∧
    u.hstat.extractLsb' 13 9 = u.triples ∧ u.hstat.extractLsb' 22 10 = 0 := by
  rw [Session.hstat]
  refine ⟨extractLsb'_append_low _ _, ?_, ?_, ?_, ?_, ?_, ?_⟩
  all_goals repeat rw [BitVec.extractLsb'_append_eq_of_le (by decide)]
  case refine_6 => exact BitVec.extractLsb'_eq_self
  all_goals exact extractLsb'_append_low _ _

theorem fresh_hstat : Session.fresh.hstat = 0x000001F0#32 := by decide

/-- Settles O17: HSTAT is the packing of its fields, and slot 0x00C of the window. -/
theorem hstatFields : Obligations.HstatFields := by
  refine ⟨fun u => ?_, fun s h => step_read rfl (by decide) h, fresh_hstat⟩
  obtain ⟨hgen, hrem, hcnt, hbuf0, hbuf1, htriples, hzero⟩ := hstat_fields u
  exact ⟨hgen, hrem, hcnt, getLsbD_of_extractLsb' hbuf0, getLsbD_of_extractLsb' hbuf1, htriples, hzero⟩

/-! ### Reset -/

theorem toReset_status (s : State) (b : Bool) : (s.toReset b).status = 0 :=
  show State.reset.status = 0 by decide

theorem step_of_reset {s : State} {b : Bool} {is : List Input} (h : s.inputs = .reset b :: is) :
    step s = .next (s.rest.toReset b) := by
  rw [step, State.rest, h]
  rfl

/-- Settles O19: the state after reset, and the state after either edge of RST, are `toReset` of some state. -/
theorem resetRestoresEveryRegister : Obligations.ResetRestoresEveryRegister := by
  intro t ht
  obtain ⟨s, b, rfl⟩ : ∃ s b, t = State.toReset s b := by
    obtain rfl | ⟨s, b, is, hin, hstep⟩ := ht
    · exact ⟨State.reset, false, rfl⟩
    · exact ⟨s.rest, b, next_inj ((step_of_reset hin).symm.trans hstep)⟩
  have hid : (s.toReset b).readSlot (slotAt 0x000) = 0x50484501#32 := rfl
  simp [toReset_status, fresh_hstat, hid]

end Sys2Proof.Machine
end

section
/-! PROOFS. Which commands change HSTATE and which write which registers (10_state.md R25 to R28, R34, R35, R37, R38). -/

namespace Sys2Proof.Machine

open Sys2Proof Config

/-- The commands whose result is a point: they write RES_X and RES_Y (10_state.md R26). -/
def writesPoint (i : Instr) : Prop := i = .padd ∨ (∃ g w v, i = .tblRead g w v) ∨ ∃ b g, i = .fsToPoint b g

/-- The commands that write session registers (10_state.md R27 to R33). -/
def writesSession (i : Instr) : Prop :=
  i = .hashInit ∨ (∃ b, i = .absorbByte b) ∨ (∃ a b c, i = .absorbTriple a b c) ∨ i = .hashFinish

/-- What a command does to the result registers: nothing, or it answers OK and is WRAP, which keeps RES_Y, or a command
whose result is a point. -/
theorem exec_result {i : Instr} {s t : State} (h : exec i s = .next t) :
    (t.resX = s.resX ∧ t.resY = s.resY) ∨ (t.err = .ok ∧ (∃ b, i = .wrap b) ∧ t.resY = s.resY) ∨
    (t.err = .ok ∧ writesPoint i) := by
  cases i with
  | nop =>
    obtain rfl := exec_nop h
    exact .inl ⟨rfl, rfl⟩
  | wrap signed =>
    obtain rfl := exec_wrap h
    exact .inr (.inl ⟨rfl, ⟨_, rfl⟩, rfl⟩)
  | padd =>
    obtain ⟨-, rfl⟩ | ⟨-, ⟨-, rfl⟩ | ⟨-, -, ⟨-, rfl⟩ | ⟨r, -, rfl⟩⟩⟩ := exec_padd h
    case inr.inr.inr => exact .inr (.inr ⟨rfl, .inl rfl⟩)
    all_goals exact .inl ⟨rfl, rfl⟩
  | buildTable =>
    obtain ⟨-, rfl⟩ | ⟨-, ⟨-, rfl⟩ | ⟨-, ⟨-, rfl⟩ | ⟨r, -, rfl⟩⟩⟩ := exec_buildTable h <;> exact .inl ⟨rfl, rfl⟩
  | tblRead g w v =>
    obtain ⟨-, rfl⟩ | ⟨-, -, rfl⟩ | ⟨-, -, rfl⟩ := exec_tblRead h
    case inr.inr => exact .inr (.inr ⟨rfl, .inr (.inl ⟨_, _, _, rfl⟩)⟩)
    all_goals exact .inl ⟨rfl, rfl⟩
  | fsToPoint signed g =>
    obtain ⟨-, rfl⟩ | ⟨-, -, rfl⟩ | ⟨-, -, ⟨-, rfl⟩ | ⟨r, -, rfl⟩⟩ := exec_fsToPoint h
    case inr.inr.inr => exact .inr (.inr ⟨rfl, .inr (.inr ⟨_, _, rfl⟩)⟩)
    all_goals exact .inl ⟨rfl, rfl⟩
  | hashInit => obtain ⟨-, rfl⟩ | ⟨-, rfl⟩ := exec_hashInit h <;> exact .inl ⟨rfl, rfl⟩
  | absorbByte imm8 =>
    obtain ⟨-, rfl⟩ | ⟨-, -, rfl⟩ | ⟨-, -, ⟨-, rfl⟩ | ⟨r, -, rfl⟩⟩ := exec_absorbByte h <;> exact .inl ⟨rfl, rfl⟩
  | absorbTriple a b c =>
    obtain ⟨-, rfl⟩ | ⟨-, -, rfl⟩ | ⟨-, -, -, rfl⟩ | ⟨-, -, -, ⟨-, rfl⟩ | ⟨r, -, rfl⟩⟩ := exec_absorbTriple h <;>
      exact .inl ⟨rfl, rfl⟩
  | hashFinish =>
    obtain ⟨-, rfl⟩ | ⟨-, ⟨-, rfl⟩ | ⟨u, v, -, -, rfl⟩⟩ := exec_hashFinish h <;> exact .inl ⟨rfl, rfl⟩

/-- Only the four session commands touch the session registers or HSTATE. -/
theorem exec_session {i : Instr} {s t : State} (h : exec i s = .next t) :
    writesSession i ∨ (t.session = s.session ∧ t.hstate = s.hstate) := by
  cases i with
  | hashInit => exact .inl (.inl rfl)
  | absorbByte imm8 => exact .inl (.inr (.inl ⟨_, rfl⟩))
  | absorbTriple a b c => exact .inl (.inr (.inr (.inl ⟨_, _, _, rfl⟩)))
  | hashFinish => exact .inl (.inr (.inr (.inr rfl)))
  | nop =>
    obtain rfl := exec_nop h
    exact .inr ⟨rfl, rfl⟩
  | wrap signed =>
    obtain rfl := exec_wrap h
    exact .inr ⟨rfl, rfl⟩
  | padd =>
    obtain ⟨-, rfl⟩ | ⟨-, ⟨-, rfl⟩ | ⟨-, -, ⟨-, rfl⟩ | ⟨r, -, rfl⟩⟩⟩ := exec_padd h <;> exact .inr ⟨rfl, rfl⟩
  | buildTable =>
    obtain ⟨-, rfl⟩ | ⟨-, ⟨-, rfl⟩ | ⟨-, ⟨-, rfl⟩ | ⟨r, -, rfl⟩⟩⟩ := exec_buildTable h <;> exact .inr ⟨rfl, rfl⟩
  | tblRead g w v => obtain ⟨-, rfl⟩ | ⟨-, -, rfl⟩ | ⟨-, -, rfl⟩ := exec_tblRead h <;> exact .inr ⟨rfl, rfl⟩
  | fsToPoint signed g =>
    obtain ⟨-, rfl⟩ | ⟨-, -, rfl⟩ | ⟨-, -, ⟨-, rfl⟩ | ⟨r, -, rfl⟩⟩ := exec_fsToPoint h <;> exact .inr ⟨rfl, rfl⟩

/-- Settles O53: only a session command can change HSTATE, and each does it in the ways R34 lists. -/
theorem sessionStateTransitions : Obligations.SessionStateTransitions := by
  intro i s t h
  obtain (rfl | ⟨imm8, rfl⟩ | ⟨a, b, c, rfl⟩ | rfl) | ⟨-, hsame⟩ := exec_session h
  · obtain ⟨-, rfl⟩ | ⟨-, rfl⟩ := exec_hashInit h
    · exact .inl rfl
    · exact .inr (.inl ⟨rfl, rfl, rfl⟩)
  · obtain ⟨-, rfl⟩ | ⟨habsorb, -, rfl⟩ | ⟨habsorb, -, ⟨-, rfl⟩ | ⟨r, -, rfl⟩⟩ := exec_absorbByte h
    · exact .inl rfl
    · exact .inr (.inr (.inr ⟨habsorb, rfl, .inl ⟨rfl, .inl ⟨_, rfl⟩⟩⟩))
    · exact .inr (.inr (.inr ⟨habsorb, rfl, .inr ⟨rfl, .inl ⟨_, rfl⟩⟩⟩))
    · exact .inl rfl
  · obtain ⟨-, rfl⟩ | ⟨-, -, rfl⟩ | ⟨habsorb, -, -, rfl⟩ | ⟨habsorb, -, -, ⟨-, rfl⟩ | ⟨r, -, rfl⟩⟩ := exec_absorbTriple h
    · exact .inl rfl
    · exact .inl rfl
    · exact .inr (.inr (.inr ⟨habsorb, rfl, .inl ⟨rfl, .inr ⟨_, _, _, rfl⟩⟩⟩))
    · exact .inr (.inr (.inr ⟨habsorb, rfl, .inr ⟨rfl, .inr (.inl ⟨_, _, _, rfl⟩)⟩⟩))
    · exact .inl rfl
  · obtain ⟨-, rfl⟩ | ⟨habsorb, ⟨-, rfl⟩ | ⟨u, v, -, -, rfl⟩⟩ := exec_hashFinish h
    · exact .inl rfl
    · exact .inr (.inr (.inr ⟨habsorb, rfl, .inr ⟨rfl, .inr (.inr rfl)⟩⟩))
    · exact .inr (.inr (.inl ⟨rfl, habsorb, rfl, rfl⟩))
  · exact .inl hsame

/-- Settles O54: the frame of a command, its effect on RES, and on the session. -/
theorem registerWriters : Obligations.RegisterWriters := by
  intro i s t h
  have hf := exec_frame h
  refine ⟨⟨hf.opaX, hf.opaY, hf.opbX, hf.opbY⟩,
    ⟨hf.busy, hf.pending, hf.ovr, hf.rst, hf.cfg, hf.inputs, hf.busReads⟩, fun hx => ?_, fun hy => ?_,
    fun hu => (exec_session h).resolve_right fun hsame => hu hsame.1, fun htable => ?_⟩
  · obtain ⟨hx', -⟩ | ⟨hok, hwrap, -⟩ | ⟨hok, hpoint⟩ := exec_result h
    · exact absurd hx' hx
    · exact ⟨hok, .inl hwrap⟩
    · exact ⟨hok, .inr hpoint⟩
  · obtain ⟨-, hy'⟩ | ⟨-, -, hy'⟩ | hpoint := exec_result h
    · exact absurd hy' hy
    · exact absurd hy' hy
    · exact hpoint
  · by_contra hne
    obtain ⟨h1, h2, h3⟩ := hf.table hne
    simp [h1, h2, h3] at htable

end Sys2Proof.Machine
end

section
/-! PROOFS. The causes of the result codes, command by command, and STATUS (60_exceptions.md R210, R213, 10_state.md R22). -/

namespace Sys2Proof.Machine

open Sys2Proof Config

/-! ### Which codes have a cause, for each command -/

section Causes

variable {s : State} {e : Code}

theorem not_hasCause_nop : ¬ e.hasCause .nop s := by
  cases e <;> simp [Code.hasCause]

theorem not_hasCause_wrap {signed : Bool} : ¬ e.hasCause (.wrap signed) s := by
  cases e <;> simp [Code.hasCause]

theorem not_canonical_iff (a : Point) : ¬ canonical a = true ↔ P ≤ a.x ∨ P ≤ a.y := by
  rw [canonical, Bool.and_eq_true, decide_eq_true_iff, decide_eq_true_iff]
  omega

theorem hasCause_padd : e.hasCause .padd s ↔
    (e = .operandRange ∧ ¬ (canonical s.opA ∧ canonical s.opB)) ∨
    (e = .notOnCurve ∧ ¬ (onCurve s.cfg s.opA.x s.opA.y ∧ onCurve s.cfg s.opB.x s.opB.y)) ∨
    (e = .noInverse ∧ pointAdd s.cfg s.opA s.opB = none) := by
  have hrange : ¬ (canonical s.opA ∧ canonical s.opB) ↔
      P ≤ s.opaX.toNat ∨ P ≤ s.opaY.toNat ∨ P ≤ s.opbX.toNat ∨ P ≤ s.opbY.toNat := by
    rw [not_and_or, not_canonical_iff, not_canonical_iff, or_assoc]
    rfl
  have hcurve : ¬ (onCurve s.cfg s.opA.x s.opA.y ∧ onCurve s.cfg s.opB.x s.opB.y) ↔
      onCurve s.cfg s.opaX.toNat s.opaY.toNat = false ∨ onCurve s.cfg s.opbX.toNat s.opbY.toNat = false := by
    rw [not_and_or, Bool.not_eq_true, Bool.not_eq_true]
    rfl
  rw [hrange, hcurve]
  cases e <;> simp [Code.hasCause]

theorem not_validGenerators_iff (p : Params) : ¬ validGenerators p = true ↔
    ∃ g ∈ p.gen.toList, onCurve p g.1 g.2 = false ∨ ¬ (0 ≤ g.1 ∧ g.1 < P ∧ 0 ≤ g.2 ∧ g.2 < P) := by
  have hgen (g : Int × Int) : ¬ validGenerator p g = true ↔
      onCurve p g.1 g.2 = false ∨ ¬ (0 ≤ g.1 ∧ g.1 < P ∧ 0 ≤ g.2 ∧ g.2 < P) := by
    rw [validGenerator, Bool.and_eq_true, Bool.and_eq_true, decide_eq_true_iff, decide_eq_true_iff,
      ← Bool.not_eq_true, and_assoc (a := 0 ≤ g.1 ∧ _), not_and_or, not_and_or]
    tauto
  rw [validGenerators, List.all_eq_true]
  simp only [not_forall, exists_prop, hgen]

theorem hasCause_buildTable : e.hasCause .buildTable s ↔
    (e = .tableState ∧ s.tstate ≠ .empty) ∨ (e = .invalidCurvePoint ∧ ¬ validGenerators s.cfg = true) ∨
    (e = .noInverse ∧ buildTable s.cfg = none) := by
  rw [not_validGenerators_iff]
  cases e <;> simp [Code.hasCause]

/-- Of the generators that fit the field G, those that are refused (30_encoding.md R83). -/
theorem refused_generator_iff {g : Nat} (hg : g < 8) : g = 5 ∨ g = 6 ∨ g = 7 ↔ 4 < g := by omega

theorem hasCause_tblRead {g w v : Nat} (hg : g < 8) : e.hasCause (.tblRead g w v) s ↔
    (e = .tableNotReady ∧ s.tstate ≠ .ready) ∨ (e = .badGen ∧ 4 < g) := by
  rw [← refused_generator_iff hg]
  cases e <;> simp [Code.hasCause]

theorem hasCause_fsToPoint {signed : Bool} {g : Nat} (hg : g < 8) : e.hasCause (.fsToPoint signed g) s ↔
    (e = .tableNotReady ∧ s.tstate ≠ .ready) ∨ (e = .badGen ∧ 4 < g) ∨
    (e = .noInverse ∧ fsToPoint s.cfg s.table (scalarOperand signed s.opaX) g = none) := by
  rw [← refused_generator_iff hg]
  cases e <;> simp [Code.hasCause]

theorem hasCause_hashInit : e.hasCause .hashInit s ↔ e = .tableNotReady ∧ s.tstate ≠ .ready := by
  cases e <;> simp [Code.hasCause]

theorem hasCause_absorbByte {imm8 : Nat} : e.hasCause (.absorbByte imm8) s ↔
    (e = .badState ∧ s.hstate ≠ .absorb) ∨ (e = .inputTooLong ∧ 930 < s.session.bitsAbsorbed + 8) ∨
    (e = .noInverse ∧ absorbBits s.cfg s.table imm8 s.session = none) := by
  cases e <;> simp [Code.hasCause, Session.bitsAbsorbed]

theorem hasCause_absorbTriple {a b c : Bool} : e.hasCause (.absorbTriple a b c) s ↔
    (e = .badState ∧ s.hstate ≠ .absorb) ∨ (e = .bitAlign ∧ s.session.bitcnt ≠ 0) ∨
    (e = .inputTooLong ∧ 930 < s.session.bitsAbsorbed + 3) ∨
    (e = .noInverse ∧ stepTriple s.cfg s.table a b c s.session = none) := by
  cases e <;> simp [Code.hasCause, Session.bitsAbsorbed, -Bool.exists_bool]

theorem hasCause_hashFinish : e.hasCause .hashFinish s ↔
    (e = .badState ∧ s.hstate ≠ .absorb) ∨
    (e = .noInverse ∧ (padTriple s.cfg s.table s.session).bind (finalFlush s.cfg s.table) = none) := by
  cases e <;> simp [Code.hasCause]

end Causes

/-! ### Every completion writes a code for its cause -/

theorem Code.causedBy_of_hasCause {c : Code} {i : Instr} {s : State} (h : c.hasCause i s) : c.causedBy i s :=
  ⟨by rintro rfl; exact h.elim, fun _ => h⟩

theorem Code.causedBy_ok {i : Instr} {s : State} (h : ∀ e : Code, ¬ e.hasCause i s) : Code.ok.causedBy i s :=
  ⟨fun _ => h, fun hne => absurd rfl hne⟩

/-- A decoded command's operands fit their fields (30_encoding.md R83). -/
theorem decode_wf {w : Word} {i : Instr} (h : decode w = .ok i) : i.wf = true := by
  have hfield (hi lo : Nat) : field w hi lo < 2 ^ (hi + 1 - lo) := BitVec.isLt _
  obtain ⟨r, -, rfl⟩ := (decode_eq_ok_iff w i).mp h
  cases r with
  | nop | wrap | padd | buildTable | hashInit | absorbTriple | hashFinish => rfl
  | tblRead => simpa [Row.instr, Instr.wf, and_assoc] using ⟨hfield 14 12, hfield 20 16, hfield 31 24⟩
  | fsToPoint => simpa [Row.instr, Instr.wf] using hfield 14 12
  | absorbByte => simpa [Row.instr, Instr.wf] using hfield 15 8

/-- The code a well-formed command writes has its cause, and OK is written only when no code has one
(60_exceptions.md R210, R213). -/
theorem exec_causedBy {i : Instr} {s t : State} (hwf : i.wf = true) (h : exec i s = .next t) : t.err.causedBy i s := by
  cases i with
  | nop =>
    obtain rfl := exec_nop h
    exact Code.causedBy_ok fun e => not_hasCause_nop
  | wrap signed =>
    obtain rfl := exec_wrap h
    exact Code.causedBy_ok fun e => not_hasCause_wrap
  | padd =>
    obtain ⟨hrange, rfl⟩ | ⟨hcan, ⟨hcurve, rfl⟩ | ⟨ha, hb, ⟨hinv, rfl⟩ | ⟨r, hr, rfl⟩⟩⟩ := exec_padd h
    · exact Code.causedBy_of_hasCause (hasCause_padd.mpr (.inl ⟨rfl, hrange⟩))
    · exact Code.causedBy_of_hasCause (hasCause_padd.mpr (.inr (.inl ⟨rfl, hcurve⟩)))
    · exact Code.causedBy_of_hasCause (hasCause_padd.mpr (.inr (.inr ⟨rfl, hinv⟩)))
    · exact Code.causedBy_ok fun e => by simp [hasCause_padd, hcan, ha, hb, hr]
  | buildTable =>
    obtain ⟨hne, rfl⟩ | ⟨hempty, ⟨hgen, rfl⟩ | ⟨hvalid, ⟨hinv, rfl⟩ | ⟨tab, htab, rfl⟩⟩⟩ := exec_buildTable h
    · exact Code.causedBy_of_hasCause (hasCause_buildTable.mpr (.inl ⟨rfl, hne⟩))
    · exact Code.causedBy_of_hasCause (hasCause_buildTable.mpr (.inr (.inl ⟨rfl, hgen⟩)))
    · exact Code.causedBy_of_hasCause (hasCause_buildTable.mpr (.inr (.inr ⟨rfl, hinv⟩)))
    · exact Code.causedBy_ok fun e => by simp [hasCause_buildTable, hempty, hvalid, htab]
  | tblRead g w v =>
    obtain ⟨⟨hg, -⟩, -⟩ : (g < 8 ∧ w < 32) ∧ v < 256 := by simpa [Instr.wf] using hwf
    obtain ⟨hne, rfl⟩ | ⟨-, hbad, rfl⟩ | ⟨hready, hle, rfl⟩ := exec_tblRead h
    · exact Code.causedBy_of_hasCause ((hasCause_tblRead hg).mpr (.inl ⟨rfl, hne⟩))
    · exact Code.causedBy_of_hasCause ((hasCause_tblRead hg).mpr (.inr ⟨rfl, hbad⟩))
    · exact Code.causedBy_ok fun e => by simp [hasCause_tblRead hg, hready, hle]
  | fsToPoint signed g =>
    have hg : g < 8 := by simpa [Instr.wf] using hwf
    obtain ⟨hne, rfl⟩ | ⟨-, hbad, rfl⟩ | ⟨hready, hle, ⟨hinv, rfl⟩ | ⟨pt, hpt, rfl⟩⟩ := exec_fsToPoint h
    · exact Code.causedBy_of_hasCause ((hasCause_fsToPoint hg).mpr (.inl ⟨rfl, hne⟩))
    · exact Code.causedBy_of_hasCause ((hasCause_fsToPoint hg).mpr (.inr (.inl ⟨rfl, hbad⟩)))
    · exact Code.causedBy_of_hasCause ((hasCause_fsToPoint hg).mpr (.inr (.inr ⟨rfl, hinv⟩)))
    · exact Code.causedBy_ok fun e => by simp [hasCause_fsToPoint hg, hready, hle, hpt]
  | hashInit =>
    obtain ⟨hne, rfl⟩ | ⟨hready, rfl⟩ := exec_hashInit h
    · exact Code.causedBy_of_hasCause (hasCause_hashInit.mpr ⟨rfl, hne⟩)
    · exact Code.causedBy_ok fun e => by simp [hasCause_hashInit, hready]
  | absorbByte imm8 =>
    obtain ⟨hne, rfl⟩ | ⟨-, hlong, rfl⟩ | ⟨habsorb, hcap, ⟨hinv, rfl⟩ | ⟨u, hu, rfl⟩⟩ := exec_absorbByte h
    · exact Code.causedBy_of_hasCause (hasCause_absorbByte.mpr (.inl ⟨rfl, hne⟩))
    · exact Code.causedBy_of_hasCause (hasCause_absorbByte.mpr (.inr (.inl ⟨rfl, hlong⟩)))
    · exact Code.causedBy_of_hasCause (hasCause_absorbByte.mpr (.inr (.inr ⟨rfl, hinv⟩)))
    · exact Code.causedBy_ok fun e => by simp [hasCause_absorbByte, habsorb, hcap, hu]
  | absorbTriple a b c =>
    obtain ⟨hne, rfl⟩ | ⟨-, halign, rfl⟩ | ⟨-, -, hlong, rfl⟩ | ⟨habsorb, hbits, hcap, ⟨hinv, rfl⟩ | ⟨u, hu, rfl⟩⟩ :=
      exec_absorbTriple h
    · exact Code.causedBy_of_hasCause (hasCause_absorbTriple.mpr (.inl ⟨rfl, hne⟩))
    · exact Code.causedBy_of_hasCause (hasCause_absorbTriple.mpr (.inr (.inl ⟨rfl, halign⟩)))
    · have hlong' : 930 < s.session.bitsAbsorbed + 3 := by rw [Session.bitsAbsorbed]; omega
      exact Code.causedBy_of_hasCause (hasCause_absorbTriple.mpr (.inr (.inr (.inl ⟨rfl, hlong'⟩))))
    · exact Code.causedBy_of_hasCause (hasCause_absorbTriple.mpr (.inr (.inr (.inr ⟨rfl, hinv⟩))))
    · have hcap' : s.session.bitsAbsorbed + 3 ≤ 930 := by
        rw [Session.bitsAbsorbed, hbits, show (0 : BitVec 2).toNat = 0 from rfl]
        omega
      exact Code.causedBy_ok fun e => by simp [hasCause_absorbTriple, habsorb, hbits, hcap', hu]
  | hashFinish =>
    obtain ⟨hne, rfl⟩ | ⟨habsorb, ⟨hinv, rfl⟩ | ⟨u, v, hu, hv, rfl⟩⟩ := exec_hashFinish h
    · exact Code.causedBy_of_hasCause (hasCause_hashFinish.mpr (.inl ⟨rfl, hne⟩))
    · exact Code.causedBy_of_hasCause (hasCause_hashFinish.mpr (.inr ⟨rfl, hinv⟩))
    · exact Code.causedBy_ok fun e => by simp [hasCause_hashFinish, habsorb, hu, hv]

/-- At the engine's turn a pending command completes: BUSY is cleared and a code is written for its cause. -/
theorem step_writes_code (s : State) (h : s.engineMoves) (hbusy : s.busy = true) :
    ∃ t : State, step s = .next t ∧ t.busy = false ∧
      match decode s.pending with
      | .error _ => t.err = .illegalCmd
      | .ok i => t.err.causedBy i s := by
  cases hd : decode s.pending with
  | error e => exact ⟨_, step_of_decode_error h hbusy hd, rfl, rfl⟩
  | ok i =>
    obtain ⟨t, ht⟩ := exists_exec_next i s.rest
    have hcause : t.err.causedBy i s.rest := exec_causedBy (decode_wf hd) ht
    exact ⟨{ t with busy := false }, by rw [step_of_decode_ok h hbusy hd, ht, clearBusy], rfl, hcause⟩

/-! ### STATUS -/

/-- The codes 12 to 15 are never written (60_exceptions.md R210). -/
theorem Code.bits_lt (c : Code) : c.bits.toNat < 12 := by cases c <;> decide

/-- A write of STATUS acts on OVR alone (10_state.md R22). -/
theorem writeSlot_status (s : State) (v : Word) :
    s.writeSlot v .status = { s with ovr := if v.getLsbD 12 then false else s.ovr } := by
  rw [State.writeSlot]
  split_ifs <;> rfl

/-- Settles O16: STATUS is the packing of its fields and slot 0x008 of the window, and a completion writes a code for its
cause. -/
theorem statusFields : Obligations.StatusFields := by
  refine ⟨fun s => ?_, fun s h => step_read rfl (by decide) h, fun s v h => ?_, by decide, step_writes_code⟩
  · obtain ⟨hbusy, htstate, hbit3, hhstate, hbits6, herr, hovr, hhigh⟩ := status_fields s
    refine ⟨getLsbD_of_extractLsb' hbusy, htstate.trans ?_, getLsbD_of_extractLsb' hbit3, hhstate.trans ?_, hbits6,
      herr.trans ?_, herr ▸ s.err.bits_lt, getLsbD_of_extractLsb' hovr, hhigh⟩
    · cases s.tstate <;> rfl
    · cases s.hstate <;> rfl
    · cases s.err <;> rfl
  · exact (step_write rfl (by decide) h).trans (congrArg Host.Outcome.next (writeSlot_status s.rest v))

end Sys2Proof.Machine
end

section
/-! PROOFS. The register window: what stands at each offset, the words of the 256-bit registers, and the accesses that are
refused, dropped or ignored (20_memory.md R51, R52, R54, R55, R63). -/

namespace Sys2Proof.Machine

open Sys2Proof Config

/-! ### The window map -/

theorem DataReg.mem_all (r : DataReg) : r ∈ DataReg.all := by cases r <;> decide

theorem DataReg.offset_injective : Function.Injective DataReg.offset := by
  intro r q h
  revert h
  cases r <;> cases q <;> decide

/-- The 256-bit registers fill 32-byte blocks between HSTAT's row and the reserved end of the window. -/
theorem DataReg.offset_bounds (r : DataReg) : 0x020 ≤ r.offset ∧ r.offset ≤ 0x140 ∧ r.offset % 32 = 0 := by
  cases r <;> decide

theorem DataReg.exists_offset {n : Nat} (h1 : 1 ≤ n) (h10 : n ≤ 10) : ∃ r : DataReg, r.offset = 32 * n := by
  interval_cases n
  exacts [⟨.opaX, rfl⟩, ⟨.opaY, rfl⟩, ⟨.opbX, rfl⟩, ⟨.opbY, rfl⟩, ⟨.resX, rfl⟩, ⟨.resY, rfl⟩, ⟨.acc, rfl⟩, ⟨.cur, rfl⟩,
    ⟨.hresX, rfl⟩, ⟨.hresY, rfl⟩]

/-- The operand registers stand before the read-only ones (20_memory.md R51). -/
theorem DataReg.isOperand_iff (r : DataReg) : r.isOperand = true ↔ r.offset < 0x0A0 := by cases r <;> decide

/-- An offset in a register's block shows a word of that register, for no other block holds it. -/
theorem slotAt_block {r : DataReg} {off : Nat} (hlo : r.offset ≤ off) (hhi : off < r.offset + 32) :
    slotAt off = .word r ((off - r.offset) / 4) := by
  have hr := r.offset_bounds
  obtain ⟨q, hq⟩ : ∃ q, DataReg.all.find? (fun r => decide (r.offset ≤ off) && decide (off < r.offset + 32)) = some q :=
    Option.isSome_iff_exists.mp (List.find?_isSome.mpr ⟨r, r.mem_all, by simp [hlo, hhi]⟩)
  have hcover := List.find?_some hq
  rw [Bool.and_eq_true, decide_eq_true_iff, decide_eq_true_iff] at hcover
  obtain rfl : q = r := DataReg.offset_injective (by have := q.offset_bounds; omega)
  rw [slotAt, if_neg (by omega), if_neg (by omega), if_neg (by omega), if_neg (by omega), hq]

theorem slotAt_word (r : DataReg) {k : Nat} (hk : k < 8) : slotAt (r.offset + 4 * k) = .word r k := by
  rw [slotAt_block (r := r) (by omega) (by omega), Nat.add_sub_cancel_left, Nat.mul_div_cancel_left _ (by decide)]

/-- From 0x020 to 0x15C stand the words of the 256-bit registers, those of the operands below 0x0A0. -/
theorem slotAt_data {off : Nat} (hlo : 0x020 ≤ off) (hhi : off < 0x160) :
    ∃ r k, slotAt off = .word r k ∧ (r.isOperand = true ↔ off < 0x0A0) := by
  obtain ⟨r, hr⟩ := DataReg.exists_offset (n := off / 32) (by omega) (by omega)
  exact ⟨r, _, slotAt_block (by omega) (by omega), by rw [r.isOperand_iff]; omega⟩

theorem slotAt_reserved {off : Nat} (h : 0x010 ≤ off ∧ off < 0x020 ∨ 0x160 ≤ off) : slotAt off = .reserved := by
  have hnone : DataReg.all.find? (fun r => decide (r.offset ≤ off) && decide (off < r.offset + 32)) = none := by
    refine List.find?_eq_none.mpr fun r _ => ?_
    have hr := r.offset_bounds
    rw [Bool.and_eq_true, decide_eq_true_iff, decide_eq_true_iff]
    omega
  rw [slotAt, if_neg (by omega), if_neg (by omega), if_neg (by omega), if_neg (by omega), hnone]

/-! ### Accesses that are refused -/

theorem hostAccess_of_not_alignedWord {a : Access} {addr size : Nat} (s : State)
    (ha : a = .read addr size ∨ ∃ v, a = .write addr size v) (h : ¬ alignedWord addr size = true) :
    hostAccess a s = .refused .notAlignedWord := by
  obtain rfl | ⟨v, rfl⟩ := ha <;> exact if_pos h

/-- Settles O14: the alignment check comes first, and an aligned address in the window is BASE plus an aligned offset. -/
theorem onlyAlignedWordAccesses : Obligations.OnlyAlignedWordAccesses := by
  intro s addr size a ha h
  refine ⟨fun hbad => ?_, ?_⟩
  · have hnot : ¬ alignedWord addr size = true := by
      rw [alignedWord, Bool.and_eq_true, decide_eq_true_iff, decide_eq_true_iff]
      omega
    exact (step_of_hostMoves h).trans (hostAccess_of_not_alignedWord s.rest ha hnot)
  · rintro rfl haligned hlo hhi
    have hbase := s.cfg.base_ok
    obtain ⟨off, rfl⟩ := Nat.exists_eq_add_of_le hlo
    obtain rfl | ⟨v, rfl⟩ := ha
    · exact ⟨_, step_read (by omega) (by omega) h⟩
    · exact ⟨_, step_write (by omega) (by omega) h⟩

/-! ### Writes that are dropped or ignored -/

theorem writeSlot_cmd_busy {s : State} (hbusy : s.busy = true) (v : Word) : s.writeSlot v .cmd = s.dropWrite :=
  if_pos hbusy

theorem writeSlot_operand_busy {s : State} {r : DataReg} (hr : r.isOperand = true) (hbusy : s.busy = true) (v : Word)
    (k : Nat) : s.writeSlot v (.word r k) = s.dropWrite := if_pos ⟨hr, hbusy⟩

theorem writeSlot_operand_idle {s : State} (hbusy : s.busy = false) (v : Word) (r : DataReg) (k : Nat) :
    s.writeSlot v (.word r k) = s.writeData k v r := if_neg (by simp [hbusy])

theorem writeSlot_readOnly {r : DataReg} (hr : r.isOperand = false) (s : State) (v : Word) (k : Nat) :
    s.writeSlot v (.word r k) = s := by
  rw [State.writeSlot, if_neg (by simp [hr])]
  cases r with
  | opaX | opaY | opbX | opbY => exact nomatch hr
  | resX | resY | acc | cur | hresX | hresY => rfl

/-- Settles O12: CMD and the operand words drop the write, and the other accesses go on as without BUSY. -/
theorem busyDropsWrites : Obligations.BusyDropsWrites := by
  intro s hbusy
  refine ⟨fun off v hoff h => ?_, fun off hoff h4 h => step_read h4 hoff h, fun v h => ?_⟩
  · rw [step_write (by omega) (by omega) h]
    obtain rfl | ⟨hlo, hhi, -⟩ := hoff
    · exact congrArg Host.Outcome.next (writeSlot_cmd_busy (s := s.rest) hbusy v)
    · obtain ⟨r, k, hslot, hr⟩ := slotAt_data hlo (by omega)
      rw [hslot, writeSlot_operand_busy (s := s.rest) (hr.mpr hhi) hbusy]
      rfl
  · have hslot : slotAt 0x008 = .status := rfl
    rw [step_write rfl (by decide) h, hslot, writeSlot_status]
    cases v.getLsbD 12 <;> simp

/-- A write of a reserved or read-only offset is ignored (20_memory.md R55). -/
theorem writeSlot_ignored {off : Nat} (s : State) (v : Word)
    (hoff : off = 0x000 ∨ off = 0x00C ∨ 0x010 ≤ off ∧ off < 0x020 ∨ 0x0A0 ≤ off ∧ off < 0x200) :
    s.writeSlot v (slotAt off) = s := by
  by_cases hdata : 0x0A0 ≤ off ∧ off < 0x160
  · obtain ⟨r, k, hslot, hr⟩ := slotAt_data (off := off) (by omega) hdata.2
    rw [hslot, writeSlot_readOnly (by rw [← Bool.not_eq_true, hr]; omega)]
  · obtain rfl | rfl | hres : off = 0x000 ∨ off = 0x00C ∨ (0x010 ≤ off ∧ off < 0x020 ∨ 0x160 ≤ off) := by omega
    · rfl
    · rfl
    · rw [slotAt_reserved hres]
      rfl

/-- Settles O15: CMD and the reserved slots read 0, and `writeSlot` ignores a write of a reserved or read-only slot. -/
theorem reservedAndReadOnlyOffsets : Obligations.ReservedAndReadOnlyOffsets := by
  refine ⟨fun s off h4 hoff h => ?_, fun s off v h4 hoff h => ?_⟩
  · have hzero : s.readSlot (slotAt off) = 0 := by
      obtain rfl | hres : off = 0x004 ∨ (0x010 ≤ off ∧ off < 0x020 ∨ 0x160 ≤ off) := by omega
      · rfl
      · rw [slotAt_reserved hres]
        rfl
    rw [step_read h4 (by omega) h, hzero]
  · rw [step_write h4 (by omega) h, writeSlot_ignored s.rest v hoff]

/-! ### The words of a 256-bit register -/

theorem getLsbD_withWord (x : Word256) (k : Nat) (v : Word) {i : Nat} (hi : i < 256) :
    (withWord x k v).getLsbD i = if 32 * k ≤ i ∧ i < 32 * k + 32 then v.getLsbD (i - 32 * k) else x.getLsbD i := by
  have hmask : ((BitVec.allOnes 32).setWidth 256 <<< (32 * k)).getLsbD i = decide (32 * k ≤ i ∧ i < 32 * k + 32) := by
    rw [BitVec.getLsbD_shiftLeft, BitVec.getLsbD_setWidth, BitVec.getLsbD_allOnes, Bool.eq_iff_iff]
    simp only [Bool.and_eq_true, Bool.not_eq_true', decide_eq_true_iff, decide_eq_false_iff_not]
    omega
  have hnew : (v.setWidth 256 <<< (32 * k)).getLsbD i = (decide (32 * k ≤ i) && v.getLsbD (i - 32 * k)) := by
    rw [BitVec.getLsbD_shiftLeft, BitVec.getLsbD_setWidth, decide_eq_true hi,
      decide_eq_true (show i - 32 * k < 256 by omega), Bool.true_and, Bool.true_and]
    simp only [← decide_not, Nat.not_lt]
  rw [withWord, BitVec.getLsbD_or, BitVec.getLsbD_and, BitVec.getLsbD_not, hmask, hnew, decide_eq_true hi]
  split_ifs with hword
  · simp [hword]
  · have hout : (decide (32 * k ≤ i) && v.getLsbD (i - 32 * k)) = false := by
      by_cases hlo : 32 * k ≤ i
      · rw [BitVec.getLsbD_of_ge v _ (by omega), Bool.and_false]
      · rw [decide_eq_false hlo, Bool.false_and]
    rw [hout]
    simp [hword]

/-- Replacing word `k` changes that word and no other (20_memory.md R52). -/
theorem wordOf_withWord (x : Word256) (v : Word) {j k : Nat} (hj : j < 8) :
    wordOf (withWord x k v) j = if j = k then v else wordOf x j := by
  apply BitVec.eq_of_getLsbD_eq
  intro i hi
  have hbit (y : Word256) : (wordOf y j).getLsbD i = y.getLsbD (32 * j + i) := by
    rw [wordOf, BitVec.getLsbD_extractLsb', decide_eq_true hi, Bool.true_and]
  rw [hbit, getLsbD_withWord x k v (by omega)]
  by_cases hjk : j = k
  · subst hjk
    rw [if_pos (by omega), if_pos rfl, Nat.add_sub_cancel_left]
  · rw [if_neg (by omega), if_neg hjk, hbit]

theorem dataReg_rest (s : State) (r : DataReg) : s.rest.dataReg r = s.dataReg r := by cases r <;> rfl

/-- A write of an operand register replaces its word (20_memory.md R52). -/
theorem dataReg_writeData_same {r : DataReg} (hr : r.isOperand = true) (s : State) (k : Nat) (v : Word) :
    (s.writeData k v r).dataReg r = withWord (s.dataReg r) k v := by
  cases r with
  | opaX | opaY | opbX | opbY => rfl
  | resX | resY | acc | cur | hresX | hresY => exact nomatch hr

theorem dataReg_writeData_other {r r' : DataReg} (h : r' ≠ r) (s : State) (k : Nat) (v : Word) :
    (s.writeData k v r).dataReg r' = s.dataReg r' := by
  revert h
  cases r <;> cases r' <;> simp [State.writeData, State.dataReg]

/-- Settles O13: a register's word is the slot at its offset, and a write with BUSY = 0 is `writeData`. -/
theorem dataRegisterWords : Obligations.DataRegisterWords := by
  refine ⟨fun s r => by cases r <;> rfl, fun s r k hk h => ?_, fun s r k v hk hr hbusy h => ?_⟩
  · have hoff := r.offset_bounds
    rw [step_read (by omega) (by omega) h, slotAt_word r hk]
    rfl
  · have hoff := r.offset_bounds
    refine ⟨s.rest.writeData k v r, ?_, fun j hj => ?_, fun r' hne => ?_, writeData_frame s.rest k v r⟩
    · rw [step_write (by omega) (by omega) h, slotAt_word r hk, writeSlot_operand_idle (s := s.rest) hbusy]
    · rw [dataReg_writeData_same hr, dataReg_rest]
      exact wordOf_withWord _ v hj
    · rw [dataReg_writeData_other hne, dataReg_rest]

/-! ### Byte order -/

/-- Byte `i` of a 256-bit register is its bits `8i+7` to `8i` (20_memory.md R52, R53). -/
theorem byteOf_wordOf (x : Word256) (i : Nat) : byteOf (wordOf x (i / 4)) (i % 4) = x.extractLsb' (8 * i) 8 := by
  apply BitVec.eq_of_getLsbD_eq
  intro b hb
  have hbit : 32 * (i / 4) + (8 * (i % 4) + b) = 8 * i + b := by omega
  rw [byteOf, wordOf, BitVec.getLsbD_extractLsb', BitVec.getLsbD_extractLsb', BitVec.getLsbD_extractLsb', hbit,
    decide_eq_true (show 8 * (i % 4) + b < 32 by omega), Bool.true_and]

theorem length_bytesOf (x : Word256) : (bytesOf x).length = 32 := by rw [bytesOf, List.length_map, List.length_range]

theorem getElem?_bytesOf (x : Word256) {i : Nat} (hi : i < 32) : (bytesOf x)[i]? = some (x.extractLsb' (8 * i) 8) := by
  rw [bytesOf, List.getElem?_map, List.getElem?_range hi, Option.map_some, byteOf_wordOf]

/-- Settles O57: the bytes of the two coordinates, one after the other. -/
theorem digestBytesAreLittleEndian : Obligations.DigestBytesAreLittleEndian := by
  intro s
  refine ⟨?_, fun i hi => ?_, fun i hi => ?_⟩
  · rw [State.digestBytes, List.length_append, length_bytesOf, length_bytesOf]
  · rw [State.digestBytes, List.getElem?_append_left (by rwa [length_bytesOf]), getElem?_bytesOf _ hi]
  · rw [State.digestBytes, List.getElem?_append_right (by rw [length_bytesOf]; omega), length_bytesOf,
      Nat.add_sub_cancel_left, getElem?_bytesOf _ hi]

theorem windowByte_eq_extractLsb' {s : Nat} (hs : s < 2 ^ 256) (w : Nat) :
    windowByte s w = ((BitVec.ofNat 256 s).extractLsb' (8 * w) 8).toNat := by
  rw [BitVec.extractLsb'_toNat, BitVec.toNat_ofNat, Nat.mod_eq_of_lt hs, Nat.shiftRight_eq_div_pow]
  rfl

theorem windowByte_succ (s w : Nat) : windowByte s (w + 1) = windowByte (s / 256) w := by
  rw [windowByte, windowByte, Nat.div_div_eq_div_mul, Nat.mul_succ, Nat.pow_add, Nat.mul_comm]

/-- The `n` low bytes of a number as base-256 digits make its residue. -/
theorem foldr_windowByte (n : Nat) : ∀ s : Nat,
    ((List.range n).map (windowByte s)).foldr (fun b m => b + 256 * m) 0 = s % 256 ^ n := by
  induction n with
  | zero =>
    intro s
    exact (Nat.mod_one s).symm
  | succ n ih =>
    intro s
    have hshift : windowByte s ∘ Nat.succ = windowByte (s / 256) := funext fun w => windowByte_succ s w
    have hlow : windowByte s 0 = s % 256 := by simp [windowByte]
    rw [List.range_succ_eq_map, List.map_cons, List.map_map, hshift, List.foldr_cons, ih, hlow, Nat.pow_succ',
      Nat.mod_mul]

/-- Settles O56: the bytes are slices of the number, and all 32 of them make it. -/
theorem windowBytesAreDigits : Obligations.WindowBytesAreDigits := by
  intro s hs
  refine ⟨?_, fun w hw => ?_, ?_⟩
  · rw [le32bytes, List.length_map, List.length_range]
  · rw [le32bytes, List.getElem?_map, List.getElem?_range hw, Option.map_some, windowByte_eq_extractLsb' hs]
  · rw [le32bytes, foldr_windowByte, show 256 ^ 32 = 2 ^ 256 from rfl, Nat.mod_eq_of_lt hs]

end Sys2Proof.Machine
end

section
/-! PROOFS. The decoder and the encoder (30_encoding.md R82 to R88): fitting a row is having its opcode and no reserved
bit set, and the fields of a command stand in its word side by side. -/

namespace Sys2Proof

/-! ### The opcode and the reserved bits -/

/-- The bits that a row's format reserves (30_encoding.md R82): those of its mask above the opcode. -/
def Row.reserved (r : Row) : Word := r.mask &&& 0xFFFFFF00#32

theorem toNat_and_opcode (w : Word) : (w &&& 0xFF#32).toNat = w.toNat % 256 := Nat.and_two_pow_sub_one_eq_mod w.toNat 8

theorem opcode_eq_iff (r : Row) (w : Word) : w &&& 0xFF#32 = r.pattern ↔ w.toNat % 256 = r.pattern.toNat := by
  rw [← BitVec.toNat_inj, toNat_and_opcode]

/-- A word fits a row when it has the row's opcode and no reserved bit set (30_encoding.md R84, R87). -/
theorem Row.fits_iff (r : Row) (w : Word) :
    r.fits w = true ↔ w.toNat % 256 = r.pattern.toNat ∧ w &&& r.reserved = 0 := by
  have hmask : r.mask = 0xFF#32 ||| r.reserved := by cases r <;> decide
  have hopcode : r.pattern &&& 0xFF#32 = r.pattern := by cases r <;> decide
  have hzero : r.pattern &&& r.reserved = 0 := by cases r <;> decide
  have hcover : r.mask &&& r.reserved = r.reserved := by cases r <;> decide
  rw [← opcode_eq_iff]
  constructor
  · intro h
    have hw : w &&& r.mask = r.pattern := beq_iff_eq.mp h
    refine ⟨(opcode_of_fits h).trans hopcode, ?_⟩
    rw [← hcover, ← BitVec.and_assoc, hw, hzero]
  · rintro ⟨hop, hres⟩
    rw [fits, beq_iff_eq, hmask, BitVec.and_or_distrib_left, hop, hres]
    exact BitVec.or_zero

/-- The opcode says which row a word fits. -/
theorem Row.pattern_injective {r q : Row} (h : r.pattern.toNat = q.pattern.toNat) : r = q := by
  revert h
  cases r <;> cases q <;> decide

/-- The opcodes of the map are 0 to 9, in the order of its rows (30_encoding.md R84). -/
theorem Row.opcode_of_getElem?_all {r : Row} {n : Nat} (h : Row.all[n]? = some r) : n = r.pattern.toNat := by
  obtain ⟨hn, rfl⟩ := List.getElem?_eq_some_iff.mp h
  change n < 10 at hn
  interval_cases n <;> rfl

theorem Row.opcode_le_nine (r : Row) : r.pattern.toNat ≤ 9 := by cases r <;> decide

theorem opcode_field (w : Word) : field w 7 0 = w.toNat % 256 := BitVec.extractLsb'_toNat 0 8 w

/-! ### ILLEGAL words -/

/-- A word whose opcode is in no row of the map is ILLEGAL (30_encoding.md R86). -/
theorem decode_of_reservedOpcode {w : Word} (h : 0x0A ≤ w.toNat % 256) : decode w = .error .reservedOpcode := by
  have hfits : ∀ r : Row, r.fits w = false := by
    intro r
    rw [← Bool.not_eq_true, Row.fits_iff]
    rintro ⟨hop, -⟩
    have := r.opcode_le_nine
    omega
  rw [decode_of_not_fits hfits, opcode_field, if_neg (by omega)]

/-- A word of a row's opcode with a reserved bit set fits no row (30_encoding.md R87). -/
theorem decode_of_reservedBit {r : Row} {w : Word} (hop : w.toNat % 256 = r.pattern.toNat)
    (hres : w &&& r.reserved ≠ 0) : decode w = .error .reservedBit := by
  have hfits : ∀ q : Row, q.fits w = false := by
    intro q
    rw [← Bool.not_eq_true, Row.fits_iff]
    rintro ⟨hq, hzero⟩
    obtain rfl := Row.pattern_injective (hq.symm.trans hop)
    exact hres hzero
  rw [decode_of_not_fits hfits, opcode_field, hop, if_pos r.opcode_le_nine]

/-! ### Operands that fit their fields -/

theorem wf_tblRead_iff {g w v : Nat} : (Instr.tblRead g w v).wf = true ↔ g < 8 ∧ w < 32 ∧ v < 256 := by
  simp [Instr.wf, and_assoc]

theorem wf_fsToPoint_iff {s : Bool} {g : Nat} : (Instr.fsToPoint s g).wf = true ↔ g < 8 := decide_eq_true_iff

theorem wf_absorbByte_iff {b : Nat} : (Instr.absorbByte b).wf = true ↔ b < 256 := decide_eq_true_iff

/-! ### The word of a command as a number -/

/-- A field above a word of known value. -/
theorem toNat_field_or {w : Word} {n k m : Nat} (hw : w.toNat = m) (hm : m < 2 ^ k) (hn : n * 2 ^ k + m < 2 ^ 32) :
    ((BitVec.ofNat 32 n <<< k) ||| w).toNat = n * 2 ^ k + m := by
  have hn' : n < 2 ^ 32 := by
    have hle : n ≤ n * 2 ^ k := Nat.le_mul_of_pos_right n (Nat.two_pow_pos k)
    omega
  rw [BitVec.toNat_or, BitVec.toNat_shiftLeft, BitVec.toNat_ofNat, Nat.mod_eq_of_lt hn', Nat.shiftLeft_eq,
    Nat.mod_eq_of_lt (by omega), Nat.mul_comm, hw, Nat.two_pow_add_eq_or_of_lt hm]

theorem bit_eq_ofNat (b : Bool) : bit b = BitVec.ofNat 32 b.toNat := by cases b <;> rfl

theorem toNat_encode_wrap (s : Bool) : (encode (.wrap s)).toNat = s.toNat * 2 ^ 8 + 0x01 := by cases s <;> rfl

theorem toNat_encode_tblRead {g w v : Nat} (hg : g < 8) (hw : w < 32) (hv : v < 256) :
    (encode (.tblRead g w v)).toNat = v * 2 ^ 24 + w * 2 ^ 16 + g * 2 ^ 12 + 0x04 := by
  have h₁ := toNat_field_or (w := 0x04#32) (m := 0x04) (n := g) (k := 12) rfl (by decide) (by omega)
  have h₂ := toNat_field_or (n := w) (k := 16) h₁ (by omega) (by omega)
  rw [encode, BitVec.or_assoc, BitVec.or_assoc, toNat_field_or h₂ (by omega) (by omega), Nat.add_assoc, Nat.add_assoc]

theorem toNat_encode_fsToPoint (s : Bool) {g : Nat} (hg : g < 8) :
    (encode (.fsToPoint s g)).toNat = g * 2 ^ 12 + s.toNat * 2 ^ 8 + 0x05 := by
  have hs := s.toNat_lt
  have h₁ := toNat_field_or (w := 0x05#32) (m := 0x05) (n := s.toNat) (k := 8) rfl (by decide) (by omega)
  rw [encode, bit_eq_ofNat, BitVec.or_assoc, toNat_field_or h₁ (by omega) (by omega), Nat.add_assoc]

theorem toNat_encode_absorbByte {b : Nat} (hb : b < 256) : (encode (.absorbByte b)).toNat = b * 2 ^ 8 + 0x07 :=
  toNat_field_or rfl (by decide) (by omega)

theorem toNat_encode_absorbTriple (a b c : Bool) : (encode (.absorbTriple a b c)).toNat =
    c.toNat * 2 ^ 10 + b.toNat * 2 ^ 9 + a.toNat * 2 ^ 8 + 0x08 := by
  cases a <;> cases b <;> cases c <;> rfl

/-! ### Decode after encode -/

theorem field_eq_div_mod (w : Word) (hi lo : Nat) : field w hi lo = w.toNat / 2 ^ lo % 2 ^ (hi + 1 - lo) := by
  rw [field, BitVec.extractLsb'_toNat, Nat.shiftRight_eq_div_pow]

/-- The row of a command's mnemonic (30_encoding.md R84). -/
def Instr.row : Instr → Row
  | .nop => .nop
  | .wrap _ => .wrap
  | .padd => .padd
  | .buildTable => .buildTable
  | .tblRead _ _ _ => .tblRead
  | .fsToPoint _ _ => .fsToPoint
  | .hashInit => .hashInit
  | .absorbByte _ => .absorbByte
  | .absorbTriple _ _ _ => .absorbTriple
  | .hashFinish => .hashFinish

/-- The opcode byte of a command's word. -/
theorem opcode_encode {i : Instr} (h : i.wf = true) : (encode i).toNat % 256 = i.row.pattern.toNat := by
  cases i with
  | nop | padd | buildTable | hashInit | hashFinish => rfl
  | wrap s => rw [toNat_encode_wrap]; exact Nat.mul_add_mod_of_lt (by decide)
  | tblRead g w v =>
    obtain ⟨hg, hw, hv⟩ := wf_tblRead_iff.mp h
    rw [toNat_encode_tblRead hg hw hv]
    change _ % 256 = 0x04
    omega
  | fsToPoint s g =>
    rw [toNat_encode_fsToPoint s (wf_fsToPoint_iff.mp h)]
    change _ % 256 = 0x05
    omega
  | absorbByte b =>
    rw [toNat_encode_absorbByte (wf_absorbByte_iff.mp h)]
    change _ % 256 = 0x07
    omega
  | absorbTriple a b c =>
    rw [toNat_encode_absorbTriple]
    change _ % 256 = 0x08
    omega

/-- The word of a command whose operands fit has the pattern of a row. -/
theorem exists_fits_encode {i : Instr} (h : i.wf = true) : ∃ r : Row, r.fits (encode i) = true := by
  obtain ⟨r, -, hr⟩ : ∃ r ∈ Row.all, r.fits (encode i) = true := by
    cases i with
    | nop => exact Laws.EncodeFits.nop h
    | wrap s => exact Laws.EncodeFits.wrap s h
    | padd => exact Laws.EncodeFits.padd h
    | buildTable => exact Laws.EncodeFits.buildTable h
    | tblRead g w v => exact Laws.EncodeFits.tblRead g w v h
    | fsToPoint s g => exact Laws.EncodeFits.fsToPoint s g h
    | hashInit => exact Laws.EncodeFits.hashInit h
    | absorbByte b => exact Laws.EncodeFits.absorbByte b h
    | absorbTriple a b c => exact Laws.EncodeFits.absorbTriple a b c h
    | hashFinish => exact Laws.EncodeFits.hashFinish h
  exact ⟨r, hr⟩

/-- The fields read from a command's word are its operands (30_encoding.md R83, R88). -/
theorem instr_encode {i : Instr} (h : i.wf = true) : i.row.instr (encode i) = i := by
  cases i with
  | nop | padd | buildTable | hashInit | hashFinish => rfl
  | wrap s => cases s <;> rfl
  | tblRead g w v =>
    obtain ⟨hg, hw, hv⟩ := wf_tblRead_iff.mp h
    rw [Instr.row, Row.instr, field_eq_div_mod, field_eq_div_mod, field_eq_div_mod, toNat_encode_tblRead hg hw hv]
    congr 1 <;> omega
  | fsToPoint s g =>
    have hg := wf_fsToPoint_iff.mp h
    interval_cases g <;> cases s <;> rfl
  | absorbByte b =>
    have hb := wf_absorbByte_iff.mp h
    rw [Instr.row, Row.instr, field_eq_div_mod, toNat_encode_absorbByte hb]
    congr 1
    omega
  | absorbTriple a b c => cases a <;> cases b <;> cases c <;> rfl

/-- Decoding takes an encoded command back (30_encoding.md R88). -/
theorem decode_encode {i : Instr} (h : i.wf = true) : decode (encode i) = .ok i := by
  obtain ⟨r, hr⟩ := exists_fits_encode h
  obtain rfl : r = i.row := Row.pattern_injective (((Row.fits_iff r _).mp hr).1.symm.trans (opcode_encode h))
  rw [decode_of_fits hr, instr_encode h]

/-- Settles O1: a field above a word of known value adds to it, and from the sums the opcode and the fields are read
back. -/
theorem encodeThenDecode : Obligations.EncodeThenDecode :=
  ⟨rfl, toNat_encode_wrap, rfl, rfl, fun _ _ _ => toNat_encode_tblRead, fun s _ => toNat_encode_fsToPoint s, rfl,
    fun _ => toNat_encode_absorbByte, toNat_encode_absorbTriple, rfl, fun _ => decode_encode⟩

/-- Settles O3: each word is the word of its command. -/
theorem sampleWordsDecode : Obligations.SampleWordsDecode :=
  ⟨decode_encode (i := .nop) rfl, decode_encode (i := .wrap true) rfl, decode_encode (i := .padd) rfl,
    decode_encode (i := .buildTable) rfl, decode_encode (i := .tblRead 4 31 15) rfl,
    decode_encode (i := .fsToPoint true 4) rfl, decode_encode (i := .hashInit) rfl,
    decode_encode (i := .absorbByte 0x90) rfl, decode_encode (i := .absorbTriple false true false) rfl,
    decode_encode (i := .hashFinish) rfl⟩

/-! ### Encode after decode -/

/-- A field put back at its place is the word's bits there. -/
theorem field_shiftLeft (w : Word) (hi lo : Nat) : BitVec.ofNat 32 (field w hi lo) <<< lo =
    w &&& (BitVec.ofNat 32 (2 ^ (hi + 1 - lo) - 1) <<< lo) := by
  apply BitVec.eq_of_getLsbD_eq
  intro j hj
  rw [BitVec.getLsbD_and, BitVec.getLsbD_shiftLeft, BitVec.getLsbD_shiftLeft, BitVec.getLsbD_ofNat,
    BitVec.getLsbD_ofNat, Nat.testBit_two_pow_sub_one, field, BitVec.testBit_toNat, BitVec.getLsbD_extractLsb']
  by_cases hlo : j < lo
  · simp [hlo]
  · rw [Nat.add_sub_of_le (not_lt.mp hlo)]
    ac_rfl

theorem field_one_bit (w : Word) (lo : Nat) : field w lo lo = (w.getLsbD lo).toNat := by
  rw [field_eq_div_mod, Nat.add_sub_cancel_left, BitVec.getLsbD, Nat.toNat_testBit, pow_one]

theorem bit_shiftLeft (w : Word) (lo : Nat) : bit (w.getLsbD lo) <<< lo = w &&& (1#32 <<< lo) := by
  rw [bit_eq_ofNat, ← field_one_bit, field_shiftLeft, Nat.add_sub_cancel_left]
  rfl

/-- The word of a row's command read from a fitting word is that word: the fields and the mask cover it
(30_encoding.md R84). -/
theorem encode_instr {r : Row} {w : Word} (h : r.fits w = true) : encode (r.instr w) = w := by
  have hw : w &&& r.mask = r.pattern := beq_iff_eq.mp h
  have hall : w &&& 0xFFFFFFFF#32 = w := BitVec.and_allOnes
  cases r with
  | nop | padd | buildTable | hashInit | hashFinish => exact hw.symm.trans hall
  | wrap =>
    change bit _ <<< 8 ||| Row.wrap.pattern = w
    rw [bit_shiftLeft, ← hw, ← BitVec.and_or_distrib_left]
    exact hall
  | tblRead =>
    change BitVec.ofNat 32 _ <<< 24 ||| BitVec.ofNat 32 _ <<< 16 ||| BitVec.ofNat 32 _ <<< 12 |||
      Row.tblRead.pattern = w
    rw [field_shiftLeft, field_shiftLeft, field_shiftLeft, ← hw, ← BitVec.and_or_distrib_left,
      ← BitVec.and_or_distrib_left, ← BitVec.and_or_distrib_left]
    exact hall
  | fsToPoint =>
    change BitVec.ofNat 32 _ <<< 12 ||| bit _ <<< 8 ||| Row.fsToPoint.pattern = w
    rw [field_shiftLeft, bit_shiftLeft, ← hw, ← BitVec.and_or_distrib_left, ← BitVec.and_or_distrib_left]
    exact hall
  | absorbByte =>
    change BitVec.ofNat 32 _ <<< 8 ||| Row.absorbByte.pattern = w
    rw [field_shiftLeft, ← hw, ← BitVec.and_or_distrib_left]
    exact hall
  | absorbTriple =>
    change bit _ <<< 10 ||| bit _ <<< 9 ||| bit _ <<< 8 ||| Row.absorbTriple.pattern = w
    rw [bit_shiftLeft, bit_shiftLeft, bit_shiftLeft, ← hw, ← BitVec.and_or_distrib_left,
      ← BitVec.and_or_distrib_left, ← BitVec.and_or_distrib_left]
    exact hall

/-- Settles O2: a word that decodes fits a row, and its fields and the row's pattern make it up. -/
theorem decodeThenEncode : Obligations.DecodeThenEncode := by
  intro w i h
  obtain ⟨r, hr, rfl⟩ := (decode_eq_ok_iff w i).mp h
  exact ⟨Machine.decode_wf h, encode_instr hr⟩

end Sys2Proof

namespace Sys2Proof.Machine

/-! ### A command word on the machine: the CMD write, and an ILLEGAL word at the engine's turn -/

theorem writeSlot_cmd_idle {s : State} (hbusy : s.busy = false) (v : Word) :
    s.writeSlot v .cmd = { s with pending := v, busy := true } := if_neg (by simp [hbusy])

/-- Settles O11: slot 0x004 of the window, with and without a command in flight. -/
theorem cmdWriteIssues : Obligations.CmdWriteIssues := by
  intro s word h
  have hstep : step s = .next (s.rest.writeSlot word .cmd) := step_write rfl (by decide) h
  rw [hstep]
  exact ⟨fun hbusy => congrArg _ (writeSlot_cmd_busy (s := s.rest) hbusy word),
    fun hbusy => congrArg _ (writeSlot_cmd_idle (s := s.rest) hbusy word)⟩

/-- Settles O4: no row of the map has a reserved opcode, and NOP is the word 0. -/
theorem reservedOpcodesAreIllegal : Obligations.ReservedOpcodesAreIllegal := by
  refine ⟨fun w hop => ?_, fun w => ⟨fun h => (decodeThenEncode w .nop h).2.symm, ?_⟩⟩
  · have hd := decode_of_reservedOpcode hop
    exact ⟨hd, fun s hmoves hbusy hp => step_of_decode_error hmoves hbusy (hp ▸ hd)⟩
  · rintro rfl
    exact decode_encode (i := .nop) rfl

/-- Settles O5: the masks listed are the rows' reserved bits, and an opcode says which row a word can fit. -/
theorem reservedBitsAreIllegal : Obligations.ReservedBitsAreIllegal := by
  refine ⟨fun w reserved h => ?_, ?_, ?_⟩
  · change (Row.all.map Row.reserved)[w.toNat % 256]? = some reserved at h
    rw [List.getElem?_map, Option.map_eq_some_iff] at h
    obtain ⟨r, hr, rfl⟩ := h
    have hop := Row.opcode_of_getElem?_all hr
    refine ⟨fun hres => ?_, fun hres => ⟨_, decode_of_fits ((r.fits_iff w).mpr ⟨hop, hres⟩)⟩⟩
    have hd := decode_of_reservedBit hop hres
    exact ⟨hd, fun s hmoves hbusy hp => step_of_decode_error hmoves hbusy (hp ▸ hd)⟩
  · exact decode_of_reservedBit (r := .nop) rfl (by decide)
  · exact decode_of_reservedBit (r := .absorbByte) rfl (by decide)

end Sys2Proof.Machine
end

section
/-! PROOFS. What WAIT and DO do under every schedule of the engine's turns (30_encoding.md R90, 45_control.md R201). -/

namespace Sys2Proof.Machine

open Sys2Proof Config

/-! ### A command, the engine's turn and the completion -/

/-- `s` with the part of the state in which the host's polls and its CMD write differ: BUSY, PENDING, and what the host
has read. -/
def State.withBus (s : State) (busy : Bool) (word : Word) (reads : List Word) : State :=
  { s with busy := busy, pending := word, busReads := reads }

theorem withBus_of_busy {s : State} {b : Bool} (h : s.busy = b) (word : Word) (reads : List Word) :
    s.withBus b word reads = { s with pending := word, busReads := reads } := by
  rw [← h]
  rfl

/-- A command does not look at that part, and leaves it alone. -/
theorem exec_withBus {i : Instr} {s t : State} (h : exec i s = .next t) (b : Bool) (w : Word) (reads : List Word) :
    exec i (s.withBus b w reads) = .next (t.withBus b w reads) := by
  have hf := exec_frame h
  have hout := exec_outside (s.withBus b w reads) h
  simpa only [State.outside, State.withBus, ← hf.ovr, ← hf.rst, ← hf.inputs] using hout

theorem engineTurn_of_idle {s : State} (hrst : s.rst = false) (hbusy : s.busy = false) : engineTurn s = .next s := by
  rw [engineTurn, hrst, hbusy]
  rfl

theorem engineTurn_of_busy {s : State} (hrst : s.rst = false) (hbusy : s.busy = true) :
    engineTurn s = completion s := by
  rw [engineTurn, hrst, hbusy]
  rfl

theorem completion_of_decode_ok {s t : State} {i : Instr} (hd : decode s.pending = .ok i) (he : exec i s = .next t) :
    completion s = .next { t with busy := false } := by
  rw [completion, hd]
  exact congrArg clearBusy he

theorem completion_of_decode_error {s : State} {e : Illegal} (hd : decode s.pending = .error e) :
    completion s = .next { s with err := .illegalCmd, busy := false } := by
  rw [completion, hd]
  rfl

/-- Every pending word completes (45_control.md R201, R202). -/
theorem exists_completion_next (s : State) : ∃ t, completion s = .next t := by
  cases hd : decode s.pending with
  | ok i =>
    obtain ⟨t, ht⟩ := exists_exec_next i s
    exact ⟨_, completion_of_decode_ok hd ht⟩
  | error e => exact ⟨_, completion_of_decode_error hd⟩

/-- A completion clears BUSY and leaves RST, the parameters and what the host has read. -/
theorem completion_frame {s t : State} (h : completion s = .next t) :
    t.busy = false ∧ t.rst = s.rst ∧ t.cfg = s.cfg ∧ t.busReads = s.busReads := by
  obtain ⟨i, u, -, he, rfl⟩ | ⟨e, -, rfl⟩ := completion_next h
  · have hf := exec_frame he
    exact ⟨rfl, hf.rst, hf.cfg, hf.busReads⟩
  · exact ⟨rfl, rfl, rfl, rfl⟩

/-- The completion of a decoding word (45_control.md R201). -/
theorem completion_withBus {s t : State} {i : Instr} {w : Word} (hd : decode w = .ok i) (he : exec i s = .next t)
    (reads : List Word) : completion (s.withBus true w reads) = .next (t.withBus false w reads) :=
  completion_of_decode_ok (s := s.withBus true w reads) hd (exec_withBus he true w reads)

/-- A completion does not look at what the host has read. -/
theorem completion_of_busReads {s t : State} (h : completion s = .next t) (reads : List Word) :
    completion { s with busReads := reads } = .next { t with busReads := reads } := by
  obtain ⟨i, u, hd, he, rfl⟩ | ⟨e, hd, rfl⟩ := completion_next h
  · have hout := completion_of_decode_ok (s := s.withBus s.busy s.pending reads) hd (exec_withBus he _ _ reads)
    refine hout.trans ?_
    rw [← (exec_frame he).pending]
    rfl
  · exact completion_of_decode_error (s := { s with busReads := reads }) hd

namespace HostProgram

/-! ### One access -/

theorem perform_access {s : State} (hrst : s.rst = false) (a : Access) : perform (.access a) s = hostAccess a s :=
  if_neg (by simp [hrst])

/-- The state after a read of STATUS (20_memory.md R61). -/
def polled (s : State) : State := { s with busReads := s.status :: s.busReads }

/-- The value of a poll has BUSY in bit 0 (10_state.md R22). -/
theorem lastRead_polled (s : State) : (lastRead (polled s)).getLsbD 0 = s.busy :=
  getLsbD_of_extractLsb' (status_fields s).1

theorem poll_false {s : State} (hrst : s.rst = false) : poll false s = .next (polled s) :=
  (perform_access hrst _).trans (hostAccess_read s (off := 0x008) rfl (by decide))

theorem poll_true {s t : State} (hturn : engineTurn s = .next t) (hrst : t.rst = false) (hcfg : t.cfg = s.cfg) :
    poll true s = .next (polled t) := by
  change andThen (engineTurn s) _ = _
  rw [hturn, ← hcfg]
  exact poll_false hrst

/-- A CMD write on an idle machine, whether the engine has its turn before it or not. -/
theorem access_cmd_of_idle {s : State} (hrst : s.rst = false) (hbusy : s.busy = false) (turn : Bool) (w : Word) :
    access turn (.write (s.cfg.base + 0x004) 4 w) s = .next { s with pending := w, busy := true } := by
  have hturn : (if turn then perform .engine s else .next s) = .next s := by
    cases turn with
    | false => rfl
    | true => exact engineTurn_of_idle hrst hbusy
  rw [access, hturn, andThen_next, perform_access hrst, hostAccess_write s w rfl (by decide)]
  exact congrArg Host.Outcome.next (writeSlot_cmd_idle hbusy w)

/-! ### WAIT -/

/-- A poll that finds the machine idle ends WAIT. -/
theorem wait_of_poll_idle {sch : Schedule} {s t : State} (hpoll : poll (sch.headD true) s = .next (polled t))
    (hbusy : t.busy = false) : wait sch s = .next ⟨sch.tail, polled t⟩ := by
  cases sch with
  | nil => exact congrArg (andThen · _) hpoll
  | cons turn sch =>
    rw [wait, show poll turn s = _ from hpoll, andThen_next, lastRead_polled, hbusy]
    rfl

/-- A poll that finds a command in flight is followed by another. -/
theorem wait_of_poll_busy {turn : Bool} {sch : Schedule} {s t : State} (hpoll : poll turn s = .next (polled t))
    (hbusy : t.busy = true) : wait (turn :: sch) s = wait sch (polled t) := by
  rw [wait, hpoll, andThen_next, lastRead_polled, hbusy, if_pos rfl]

/-- With no command in flight WAIT is one read of STATUS. -/
theorem wait_of_idle {s : State} (hrst : s.rst = false) (hbusy : s.busy = false) (sch : Schedule) :
    wait sch s = .next ⟨sch.tail, polled s⟩ := by
  refine wait_of_poll_idle ?_ hbusy
  cases sch.headD true with
  | false => exact poll_false hrst
  | true => exact poll_true (engineTurn_of_idle hrst hbusy) hrst rfl

/-- With a command in flight and the engine's turn before the first poll, that poll is the last and returns the new
STATUS. -/
theorem wait_of_turn {sch : Schedule} {s t : State} (hturn : sch.headD true = true) (hrst : s.rst = false)
    (hbusy : s.busy = true) (h : completion s = .next t) :
    wait sch s = .next ⟨sch.tail, { t with busReads := t.status :: s.busReads }⟩ := by
  obtain ⟨htbusy, htrst, hcfg, hreads⟩ := completion_frame h
  rw [← hreads]
  refine wait_of_poll_idle ?_ htbusy
  rw [hturn]
  exact poll_true ((engineTurn_of_busy hrst hbusy).trans h) (htrst.trans hrst) hcfg

/-- How many polls come before the engine's turn. -/
def pollsBefore (sch : Schedule) : Nat := (sch.takeWhile fun turn => !turn).length

theorem pollsBefore_false (sch : Schedule) : pollsBefore (false :: sch) = pollsBefore sch + 1 := rfl

/-- With a command in flight WAIT reads the old STATUS until the engine's turn, and the new one after it. -/
theorem wait_of_busy {sch : Schedule} {s t : State} (hrst : s.rst = false) (hbusy : s.busy = true)
    (h : completion s = .next t) : wait sch s = .next ⟨sch.drop (pollsBefore sch + 1),
      { t with busReads := t.status :: (List.replicate (pollsBefore sch) s.status ++ s.busReads) }⟩ := by
  induction sch generalizing s t with
  | nil => exact wait_of_turn rfl hrst hbusy h
  | cons turn sch ih =>
    cases turn with
    | true => exact wait_of_turn rfl hrst hbusy h
    | false =>
      have hlater := ih (s := polled s) hrst hbusy (completion_of_busReads h _)
      have hreads : List.replicate (pollsBefore sch) s.status ++ (polled s).busReads =
          List.replicate (pollsBefore (false :: sch)) s.status ++ s.busReads := by
        rw [pollsBefore_false, List.replicate_succ', List.append_assoc]
        rfl
      rw [wait_of_poll_busy (poll_false hrst) hbusy, hlater, ← hreads]
      rfl

theorem run_wait (sch : Schedule) (s : State) : run [.wait] sch s = wait sch s := by
  change andThen (wait sch s) (fun r => .next r) = wait sch s
  cases wait sch s <;> rfl

/-- Settles O59: WAIT is one poll with no command in flight, and polls around the engine's turn with one. -/
theorem waitPollsUntilIdle : Obligations.WaitPollsUntilIdle := by
  intro s sch hrst
  rw [run_wait]
  refine ⟨fun hbusy => wait_of_idle hrst hbusy sch, ?_⟩
  rintro hbusy k rfl
  obtain ⟨t, ht⟩ := exists_completion_next s
  exact ⟨t, (engineTurn_of_busy hrst hbusy).trans ht, (completion_frame ht).1, wait_of_busy hrst hbusy ht⟩

/-! ### DO -/

/-- `DO c` on an idle machine: the polls and the write end in the state that `c` leaves. -/
theorem run_doCmd {c : Instr} {s u : State} (hwf : c.wf = true) (he : exec c s = .next u) (hrst : s.rst = false)
    (sch : Schedule) (word : Word) (reads : List Word) :
    run (doCmd c) sch (s.withBus false word reads) = .next ⟨sch.drop (pollsBefore (sch.drop 2) + 3),
      u.withBus false (encode c) ((u.withBus false word reads).status ::
        (List.replicate (pollsBefore (sch.drop 2)) (s.withBus true word reads).status ++
          (s.withBus false word reads).status :: reads))⟩ := by
  have hpoll := wait_of_idle (s := s.withBus false word reads) hrst rfl sch
  have hwrite := access_cmd_of_idle (s := polled (s.withBus false word reads)) hrst rfl (sch.tail.headD true) (encode c)
  have hlast := wait_of_busy (sch := sch.drop 2) (s := s.withBus true (encode c) _) hrst rfl
    (completion_withBus (decode_encode hwf) he ((s.withBus false word reads).status :: reads))
  have hskip : sch.tail.tail = sch.drop 2 := by rw [← List.drop_one, ← List.drop_one, List.drop_drop]
  rw [List.drop_drop, Nat.add_comm 2] at hlast
  rw [show doCmd c = [.wait, .wr 0x004 (encode c), .wait] from rfl, run, performOp, hpoll, andThen_next, run, performOp,
    hwrite, andThen_next, andThen_next, run_wait]
  change wait sch.tail.tail _ = _
  rw [hskip]
  exact hlast

theorem exists_execAll_next (cs : List Instr) (s : State) : ∃ t, execAll cs s = .next t := by
  induction cs generalizing s with
  | nil => exact ⟨s, rfl⟩
  | cons c cs ih =>
    obtain ⟨u, hu⟩ := exists_exec_next c s
    rw [execAll, hu]
    exact ih u

/-- A list of `DO`s on an idle machine has the effect of its commands, one after another (10_state.md R24). -/
theorem run_doAll {cs : List Instr} {s u : State} (hwf : ∀ c ∈ cs, c.wf = true) (he : execAll cs s = .next u)
    (hrst : s.rst = false) (sch : Schedule) (word : Word) (reads : List Word) :
    ∃ (left : Schedule) (last : Word) (polls : List Word),
      run (doAll cs) sch (s.withBus false word reads) = .next ⟨left, u.withBus false last (polls ++ reads)⟩ := by
  induction cs generalizing s sch word reads with
  | nil =>
    obtain rfl := next_inj he
    exact ⟨sch, word, [], rfl⟩
  | cons c cs ih =>
    obtain ⟨v, hv, hrest⟩ := andThen_eq_next he
    obtain ⟨sch', polls₁, hdo⟩ : ∃ sch' polls, run (doCmd c) sch (s.withBus false word reads) =
        .next ⟨sch', v.withBus false (encode c) (polls ++ reads)⟩ :=
      ⟨_, _ :: (_ ++ [_]), by simpa using run_doCmd (hwf c List.mem_cons_self) hv hrst sch word reads⟩
    obtain ⟨left, last, polls₂, hcs⟩ := ih (fun d hd => hwf d (List.mem_cons_of_mem c hd)) hrest
      ((exec_frame hv).rst.trans hrst) sch' (encode c) (polls₁ ++ reads)
    refine ⟨left, last, polls₂ ++ polls₁, ?_⟩
    rw [doAll, List.flatMap_cons, run_append, hdo, andThen_next, List.append_assoc]
    exact hcs

/-- Commands leave BUSY alone. -/
theorem execAll_busy {cs : List Instr} {s t : State} (h : execAll cs s = .next t) : t.busy = s.busy := by
  induction cs generalizing s with
  | nil => rw [next_inj h]
  | cons c cs ih =>
    obtain ⟨u, hu, ht⟩ := andThen_eq_next h
    exact (ih ht).trans (exec_frame hu).busy

/-- Settles O60: the three operations of a `DO` in turn, and an induction over the commands of a list of them. -/
theorem doPerformsItsCommand : Obligations.DoPerformsItsCommand := by
  refine ⟨?_, fun s sch cs hrst hbusy hwf => ?_, fun m => rfl⟩
  · rintro s sch c k hrst hbusy hwf rfl
    obtain ⟨u, hu⟩ := exists_exec_next c s
    have hubusy : u.busy = false := (exec_frame hu).busy.trans hbusy
    have hdo := run_doCmd hwf hu hrst sch s.pending s.busReads
    rw [withBus_of_busy hbusy, withBus_of_busy hubusy, withBus_of_busy hubusy] at hdo
    exact ⟨u, hu, hdo⟩
  · obtain ⟨u, hu⟩ := exists_execAll_next cs s
    obtain ⟨left, word, polls, hrun⟩ := run_doAll hwf hu hrst sch s.pending s.busReads
    rw [withBus_of_busy hbusy, withBus_of_busy ((execAll_busy hu).trans hbusy)] at hrun
    exact ⟨u, left, word, polls, hu, hrun⟩

end HostProgram

end Sys2Proof.Machine
end

section
/-! PROOFS. scalar_field_reduce: the residue `wrapFs`, the source's loop and WRAP (41_scalar_reduce.md R100 to R102). -/

namespace Sys2Proof.Machine

open Sys2Proof Config

/-! ### The residue -/

theorem cast_N_pos (p : Params) : (0 : Int) < p.N := by
  have hN := p.N_ok.1
  omega

theorem cast_wrapFs (p : Params) (x : Int) : (wrapFs p x : Int) = x % p.N :=
  Int.toNat_of_nonneg (Int.emod_nonneg x (cast_N_pos p).ne')

theorem wrapFs_lt (p : Params) (x : Int) : wrapFs p x < p.N := by
  have h : (wrapFs p x : Int) < p.N := cast_wrapFs p x ▸ Int.emod_lt_of_pos x (cast_N_pos p)
  exact Int.ofNat_lt.mp h

/-- Every residue fits a 256-bit register (00_scope.md R7). -/
theorem wrapFs_lt_two_pow (p : Params) (x : Int) : wrapFs p x < 2 ^ 256 := (wrapFs_lt p x).trans p.N_ok.2

theorem dvd_sub_wrapFs (p : Params) (x : Int) : (p.N : Int) ∣ x - wrapFs p x :=
  cast_wrapFs p x ▸ Int.dvd_self_sub_emod

theorem wrapFs_wrapFs (p : Params) (x : Int) : wrapFs p (wrapFs p x) = wrapFs p x := by
  rw [← Int.natCast_inj, cast_wrapFs, cast_wrapFs, Int.emod_emod]

/-! ### The source's loop -/

theorem wrapFsSource_of_neg (p : Params) (fuel : Nat) {x : Int} (hx : x < 0) :
    wrapFsSource p (fuel + 1) x = wrapFsSource p fuel (x + p.N) := if_pos hx

/-- Past the loop the source reduces only `x ≥ N`, because a smaller `x` is its own residue. -/
theorem wrapFsSource_of_nonneg (p : Params) (fuel : Nat) {x : Int} (hx : 0 ≤ x) :
    wrapFsSource p (fuel + 1) x = x % p.N := by
  rw [wrapFsSource, if_neg (Int.not_lt.mpr hx)]
  split
  · rfl
  next hlt => exact (Int.emod_eq_of_lt hx (Int.not_le.mp hlt)).symm

/-- Settles O25, by induction on the fuel: a round of the loop adds `N`, which keeps the residue and takes at least 1
off the magnitude of a negative `x`. -/
theorem wrapAgreesWithSourceLoop : Obligations.WrapAgreesWithSourceLoop := by
  intro p x fuel
  induction fuel generalizing x with
  | zero => exact fun hfuel => absurd hfuel (Nat.not_lt_zero _)
  | succ fuel ih =>
    intro hfuel
    by_cases hx : x < 0
    · have hround : (-(x + p.N)).toNat < fuel := by
        have hN := cast_N_pos p
        omega
      rw [wrapFsSource_of_neg p fuel hx, ih _ hround, cast_wrapFs, cast_wrapFs, Int.add_emod_right]
    · rw [wrapFsSource_of_nonneg p fuel (Int.not_lt.mp hx), cast_wrapFs]

/-! ### WRAP -/

/-- Settles O23: the residue WRAP writes is `wrapFs` of the operand. -/
theorem wrapWritesResidue : Obligations.WrapWritesResidue := by
  intro signed s
  exact ⟨wrapFs s.cfg (scalarOperand signed s.opaX), wrapFs_lt _ _, wrapFs_lt_two_pow _ _, dvd_sub_wrapFs _ _, rfl⟩

/-- A residue in RES_X, read as unsigned, is itself. -/
theorem scalarOperand_ofNat_wrapFs (p : Params) (x : Int) :
    scalarOperand false (BitVec.ofNat 256 (wrapFs p x)) = wrapFs p x := by
  rw [scalarOperand, if_neg Bool.false_ne_true, BitVec.toNat_ofNat, Nat.mod_eq_of_lt (wrapFs_lt_two_pow p x)]

/-- WRAP.U of a residue copies it. -/
theorem exec_wrap_false_of_residue {s : State} {x : Int} (h : s.opaX = BitVec.ofNat 256 (wrapFs s.cfg x)) :
    exec (.wrap false) s = .next (complete { s with resX := s.opaX }) := by
  rw [exec, execWrap, h, scalarOperand_ofNat_wrapFs, wrapFs_wrapFs]

/-- Settles O24: WRAP.U of a result reads the residue that WRAP wrote, which is its own residue. -/
theorem wrapLaws : Obligations.WrapLaws := by
  refine ⟨fun p x => ⟨wrapFs_wrapFs p x, Nat.zero_le _, wrapFs_lt p x⟩, fun signed s t h => ?_⟩
  obtain rfl := exec_wrap h
  exact exec_wrap_false_of_residue rfl

end Sys2Proof.Machine
end

section
/-! PROOFS. edwards_point_adder: `inv_P`, the addition law on the curve, and PADD (42_point_adder.md R120 to R124). -/

namespace Sys2Proof.Machine

open Sys2Proof Config

/-! ### The inverse -/

theorem powMod_lt {m acc : Nat} (hm : 0 < m) (hacc : acc < m) (fuel b e : Nat) : powMod m fuel b e acc < m := by
  induction fuel generalizing b e acc with
  | zero => exact hacc
  | succ fuel ih =>
    refine ih ?_ (b * b % m) (e / 2)
    split
    · exact Nat.mod_lt _ hm
    · exact hacc

theorem invP_nonneg (z : Int) : 0 ≤ invP z := Int.natCast_nonneg _

theorem invP_lt (z : Int) : invP z < P := Int.ofNat_lt.mpr (powMod_lt P_prime.pos P_prime.one_lt 254 _ _)

/-- A product is 1 mod P exactly when it is 1 in the field. -/
theorem mul_emod_eq_one_iff (z u : Int) : z * u % (P : Int) = 1 ↔ (z : ZMod P) * u = 1 := by
  rw [← Int.cast_mul, ← Int.cast_one (R := ZMod P), cast_eq_cast_iff, show (1 : Int) % P = 1 by decide]

/-- Two residues that are equal in the field are equal. -/
theorem int_eq_of_cast_eq {u v : Int} (hu : 0 ≤ u ∧ u < P) (hv : 0 ≤ v ∧ v < P) (h : (u : ZMod P) = v) : u = v := by
  rwa [cast_eq_cast_iff, Int.emod_eq_of_lt hu.1 hu.2, Int.emod_eq_of_lt hv.1 hv.2] at h

/-- Settles O29: `inv_P` is the inverse in the field, which is unique, and 0 has none. -/
theorem inverseIsUnique : Obligations.InverseIsUnique := by
  intro z
  have := P_fact
  refine ⟨fun hz => ?_, fun hz ⟨u, hu⟩ => ?_⟩
  · have hz0 : (z : ZMod P) ≠ 0 := mt (cast_eq_zero_iff z).mp hz
    have hinv := invP_cast z hz0
    have hpos : invP z ≠ 0 := fun h0 => inv_ne_zero hz0 (by rw [← hinv, h0, Int.cast_zero])
    refine ⟨(invP_nonneg z).lt_of_ne' hpos, invP_lt z, ?_, fun u h1 hlt hu => ?_⟩
    · rw [mul_emod_eq_one_iff, hinv, mul_inv_cancel₀ hz0]
    · refine int_eq_of_cast_eq ⟨by omega, hlt⟩ ⟨invP_nonneg z, invP_lt z⟩ ?_
      rw [hinv]
      exact eq_inv_of_mul_eq_one_right ((mul_emod_eq_one_iff z u).mp hu)
  · rw [mul_emod_eq_one_iff, (cast_eq_zero_iff z).mpr hz, zero_mul] at hu
    exact zero_ne_one hu

/-! ### The laws of point addition -/

/-- The equations of 42_point_adder.md R122 have one canonical solution. -/
theorem pointAdd_eq_some_of_solution {p : Params} {a b r : Point} (hx : r.x < P) (hy : r.y < P)
    (hsome : pointAdd p a b ≠ none)
    (heqx : (1 + crossTerm p a b) * r.x = (a.x : ZMod P) * b.y + a.y * b.x)
    (heqy : (1 - crossTerm p a b) * r.y = (a.y : ZMod P) * b.y + a.x * b.x) : pointAdd p a b = some r := by
  have := P_fact
  obtain ⟨q, hq⟩ := Option.ne_none_iff_exists'.mp hsome
  obtain ⟨hqx, hqy, hplus, hminus, hqeqx, hqeqy⟩ := pointAdd_eq_some p a b q hq
  have hxx : q.x = r.x := eq_of_cast_eq hqx hx (mul_left_cancel₀ hplus (hqeqx.trans heqx.symm))
  have hyy : q.y = r.y := eq_of_cast_eq hqy hy (mul_left_cancel₀ hminus (hqeqy.trans heqy.symm))
  obtain ⟨rx, ry⟩ := r
  obtain ⟨qx, qy⟩ := q
  obtain rfl : qx = rx := hxx
  obtain rfl : qy = ry := hyy
  exact hq

theorem crossTerm_comm (p : Params) (a b : Point) : crossTerm p a b = crossTerm p b a := by
  rw [crossTerm, crossTerm]
  ring

theorem pointAdd_comm (p : Params) (a b : Point) : pointAdd p a b = pointAdd p b a := by
  cases h : pointAdd p b a with
  | none => rwa [pointAdd_eq_none_iff, crossTerm_comm, ← pointAdd_eq_none_iff]
  | some r =>
    obtain ⟨hx, hy, hplus, hminus, heqx, heqy⟩ := pointAdd_eq_some p b a r h
    rw [crossTerm_comm] at hplus hminus heqx heqy
    refine pointAdd_eq_some_of_solution hx hy ?_ (heqx.trans (by ring)) (heqy.trans (by ring))
    rw [ne_eq, pointAdd_eq_none_iff, not_or]
    exact ⟨hplus, hminus⟩

/-- The mirror image `(P - x, y)` of a point `(x, y)` with `x` below P (42_point_adder.md R124). -/
def mirror (a : Point) : Point := ⟨P - a.x, a.y⟩

@[simp] theorem mirror_y (a : Point) : (mirror a).y = a.y := rfl

theorem mirror_x_cast {a : Point} (hx : a.x < P) : ((mirror a).x : ZMod P) = -a.x := by
  rw [mirror, Nat.cast_sub hx.le, CharP.cast_eq_zero, zero_sub]

theorem onCurve_mirror {p : Params} {a : Point} (hx : a.x < P) (ha : onCurve p a.x a.y = true) :
    onCurve p (mirror a).x (mirror a).y = true := by
  rw [onCurve_iff, Int.cast_natCast, Int.cast_natCast] at ha ⊢
  rw [mirror_x_cast hx, neg_sq]
  exact ha

/-- Settles O28: each sum is the one canonical solution; for a mirror image D_NONSQUARE makes the sum exist, and the curve
equation makes `(0, 1)` the solution. -/
theorem pointAddLaws : Obligations.PointAddLaws := by
  refine ⟨pointAdd_comm, fun p a hx hy => (pointAdd_comm p a idPt).trans (pointAdd_id_left p a hx hy), ?_⟩
  intro p a hD _ hx hy ha
  have hsome := nonsquareMeansComplete p a (mirror a) hD ha (onCurve_mirror hx ha)
  rw [onCurve_iff, Int.cast_natCast, Int.cast_natCast] at ha
  change pointAdd p a (mirror a) = some idPt
  refine pointAdd_eq_some_of_solution (by decide) (by decide) (Option.isSome_iff_ne_none.mp hsome) ?_ ?_
  · rw [mirror_x_cast hx, mirror_y, idPt, Nat.cast_zero]
    ring
  · rw [crossTerm, mirror_x_cast hx, mirror_y, idPt, Nat.cast_one]
    linear_combination -ha

/-! ### The sum of two curve points is on the curve -/

section EdwardsClosure

variable {F : Type*} [Field F] {d x₁ y₁ x₂ y₂ t : F}

/-- The curve equation of the sum with its denominators cleared. With `Sᵢ = -xᵢ² + yᵢ²` and `Aᵢ = d * xᵢ² * yᵢ²` the two
sides differ by `(1 + A₁A₂) * S₁S₂ - (1 - A₁A₂)² - A₁S₂² - A₂S₁²`, which is 0 where `Sᵢ = 1 + Aᵢ`. -/
theorem edwards_sum_numerators (h₁ : -x₁ ^ 2 + y₁ ^ 2 = 1 + d * x₁ ^ 2 * y₁ ^ 2)
    (h₂ : -x₂ ^ 2 + y₂ ^ 2 = 1 + d * x₂ ^ 2 * y₂ ^ 2) (ht : t = d * x₁ * x₂ * y₁ * y₂) :
    -((1 - t) * (x₁ * y₂ + y₁ * x₂)) ^ 2 + ((1 + t) * (y₁ * y₂ + x₁ * x₂)) ^ 2 =
      ((1 + t) * (1 - t)) ^ 2 + d * (x₁ * y₂ + y₁ * x₂) ^ 2 * (y₁ * y₂ + x₁ * x₂) ^ 2 := by
  subst ht
  linear_combination
    ((1 + (d * x₁ * x₂ * y₁ * y₂) ^ 2) * (-x₂ ^ 2 + y₂ ^ 2)
      - d * x₂ ^ 2 * y₂ ^ 2 * (-x₁ ^ 2 + y₁ ^ 2 + 1 + d * x₁ ^ 2 * y₁ ^ 2)) * h₁
    + ((1 + (d * x₁ * x₂ * y₁ * y₂) ^ 2) * (1 + d * x₁ ^ 2 * y₁ ^ 2)
      - d * x₁ ^ 2 * y₁ ^ 2 * (-x₂ ^ 2 + y₂ ^ 2 + 1 + d * x₂ ^ 2 * y₂ ^ 2)) * h₂

/-- The addition law of 42_point_adder.md R122 stays on the curve. -/
theorem edwards_sum_on_curve {x₃ y₃ : F} (h₁ : -x₁ ^ 2 + y₁ ^ 2 = 1 + d * x₁ ^ 2 * y₁ ^ 2)
    (h₂ : -x₂ ^ 2 + y₂ ^ 2 = 1 + d * x₂ ^ 2 * y₂ ^ 2) (ht : t = d * x₁ * x₂ * y₁ * y₂)
    (hplus : 1 + t ≠ 0) (hminus : 1 - t ≠ 0)
    (hx : (1 + t) * x₃ = x₁ * y₂ + y₁ * x₂) (hy : (1 - t) * y₃ = y₁ * y₂ + x₁ * x₂) :
    -x₃ ^ 2 + y₃ ^ 2 = 1 + d * x₃ ^ 2 * y₃ ^ 2 := by
  have hnum := edwards_sum_numerators h₁ h₂ ht
  rw [← hx, ← hy] at hnum
  refine mul_left_cancel₀ (pow_ne_zero 2 (mul_ne_zero hplus hminus)) ?_
  linear_combination hnum

end EdwardsClosure

/-- Settles O31: the sum solves the addition law, which stays on the curve. -/
theorem sumStaysOnCurve : Obligations.SumStaysOnCurve := by
  intro p a b r h
  have := P_fact
  obtain ⟨hx, hy, hplus, hminus, heqx, heqy⟩ := pointAdd_eq_some p a b r h
  refine ⟨hx, hy, fun ha hb => ?_⟩
  rw [onCurve_iff] at ha hb ⊢
  exact edwards_sum_on_curve ha hb (by simp [crossTerm]) hplus hminus (by simpa using heqx) (by simpa using heqy)

/-! ### PADD -/

/-- NoInverse in integers: a denominator of 42_point_adder.md R122 is 0 mod P. -/
theorem pointAdd_eq_none_iff_emod (p : Params) (a b : Point) : pointAdd p a b = none ↔
    (1 + p.D * a.x * b.x * a.y * b.y) % P = 0 ∨ (1 - p.D * a.x * b.x * a.y * b.y) % P = 0 := by
  rw [pointAdd_eq_none_iff, ← cast_eq_zero_iff, ← cast_eq_zero_iff, Int.cast_add, Int.cast_sub, Int.cast_one,
    crossTerm_cast]

/-- The equations of 42_point_adder.md R122 for a sum, in integers. -/
theorem pointAdd_eq_some_emod {p : Params} {a b r : Point} (h : pointAdd p a b = some r) :
    (1 + p.D * a.x * b.x * a.y * b.y) * r.x % P = ((a.x : Int) * b.y + a.y * b.x) % P ∧
    (1 - p.D * a.x * b.x * a.y * b.y) * r.y % P = ((a.y : Int) * b.y + a.x * b.x) % P := by
  obtain ⟨-, -, -, -, heqx, heqy⟩ := pointAdd_eq_some p a b r h
  rw [← cast_eq_cast_iff, ← cast_eq_cast_iff, Int.cast_mul, Int.cast_mul, Int.cast_add, Int.cast_sub, Int.cast_one,
    crossTerm_cast]
  push_cast
  exact ⟨heqx, heqy⟩

section Padd

variable {s : State}

/-- The cause of OPERAND_RANGE (60_exceptions.md R213): some coordinate register is not below P. -/
theorem operands_not_canonical_iff : ¬ (canonical s.opA ∧ canonical s.opB) ↔
    P ≤ s.opaX.toNat ∨ P ≤ s.opaY.toNat ∨ P ≤ s.opbX.toNat ∨ P ≤ s.opbY.toNat := by
  rw [not_and_or, not_canonical_iff, not_canonical_iff, or_assoc]
  rfl

theorem operands_canonical (hax : s.opaX.toNat < P) (hay : s.opaY.toNat < P) (hbx : s.opbX.toNat < P)
    (hby : s.opbY.toNat < P) : canonical s.opA ∧ canonical s.opB := by
  by_contra h
  have hrange := operands_not_canonical_iff.mp h
  omega

theorem exec_padd_of_not_canonical (h : ¬ (canonical s.opA ∧ canonical s.opB)) :
    exec .padd s = .next (raise .operandRange s) := by
  rw [exec, execPadd, if_pos h]

theorem exec_padd_of_not_onCurve (hcan : canonical s.opA ∧ canonical s.opB)
    (h : ¬ (onCurve s.cfg s.opA.x s.opA.y ∧ onCurve s.cfg s.opB.x s.opB.y)) :
    exec .padd s = .next (raise .notOnCurve s) := by
  rw [exec, execPadd, if_neg (not_not.mpr hcan)]
  by_cases ha : onCurve s.cfg s.opA.x s.opA.y
  · rw [if_neg (not_not.mpr ha), if_pos fun hb => h ⟨ha, hb⟩]
  · rw [if_pos ha]

theorem exec_padd_of_pointAdd_none (hcan : canonical s.opA ∧ canonical s.opB)
    (hcurve : onCurve s.cfg s.opA.x s.opA.y ∧ onCurve s.cfg s.opB.x s.opB.y)
    (h : pointAdd s.cfg s.opA s.opB = none) : exec .padd s = .next (raise .noInverse s) := by
  rw [exec, execPadd, if_neg (not_not.mpr hcan), if_neg (not_not.mpr hcurve.1), if_neg (not_not.mpr hcurve.2), h]

theorem exec_padd_of_pointAdd_some (hcan : canonical s.opA ∧ canonical s.opB)
    (hcurve : onCurve s.cfg s.opA.x s.opA.y ∧ onCurve s.cfg s.opB.x s.opB.y) {r : Point}
    (h : pointAdd s.cfg s.opA s.opB = some r) : exec .padd s = .next (complete (s.setResult r)) := by
  rw [exec, execPadd, if_neg (not_not.mpr hcan), if_neg (not_not.mpr hcurve.1), if_neg (not_not.mpr hcurve.2), h]

end Padd

/-- Settles O26: past its checks PADD writes the sum, which solves the addition law. -/
theorem paddWritesSum : Obligations.PaddWritesSum := by
  rintro s _ _ _ _ _ rfl rfl rfl rfl hx1 hy1 hx2 hy2 ha hb rfl hplus hminus
  have hcan := operands_canonical (Int.ofNat_lt.mp hx1) (Int.ofNat_lt.mp hy1) (Int.ofNat_lt.mp hx2) (Int.ofNat_lt.mp hy2)
  have hsome : pointAdd s.cfg s.opA s.opB ≠ none := by
    rw [ne_eq, pointAdd_eq_none_iff_emod, not_or]
    exact ⟨hplus, hminus⟩
  obtain ⟨r, hr⟩ := Option.ne_none_iff_exists'.mp hsome
  obtain ⟨hx, hy, -⟩ := pointAdd_eq_some _ _ _ r hr
  obtain ⟨heqx, heqy⟩ := pointAdd_eq_some_emod hr
  exact ⟨r.x, r.y, hx, hy, heqx, heqy, exec_padd_of_pointAdd_some hcan ⟨beq_iff_eq.mpr ha, beq_iff_eq.mpr hb⟩ hr⟩

/-- Settles O27: PADD's three checks, one after the other. -/
theorem paddRefuses : Obligations.PaddRefuses := by
  refine fun s => ⟨fun hrange => exec_padd_of_not_canonical (operands_not_canonical_iff.mpr hrange),
    fun hax hay hbx hby => ?_⟩
  have hcan := operands_canonical hax hay hbx hby
  refine ⟨fun hoff => ?_, fun ha hb hzero => ?_⟩
  · rw [← Bool.not_eq_true, ← Bool.not_eq_true, ← not_and_or] at hoff
    exact exec_padd_of_not_onCurve hcan hoff
  · exact exec_padd_of_pointAdd_none hcan ⟨ha, hb⟩ ((pointAdd_eq_none_iff_emod _ _ _).mpr hzero)

end Sys2Proof.Machine
end

section
/-! PROOFS. The commands that make and read the generator table: what each answers, case by case, and TBL_READ
(43_generator_table.md R143, R145, 44_hash_core.md R163, R173). -/

namespace Sys2Proof.Machine

open Sys2Proof Config

/-! ### The answers of the commands, case by case -/

section Answers

variable {s : State} {g w v : Nat} {signed : Bool}

theorem exec_buildTable_of_not_empty (h : s.tstate ≠ .empty) : exec .buildTable s = .next (raise .tableState s) := by
  rw [exec, execBuildTable, if_pos h]

theorem exec_buildTable_of_invalid (hempty : s.tstate = .empty) (hinvalid : validGenerators s.cfg = false) :
    exec .buildTable s = .next (breakTable .invalidCurvePoint s) := by
  rw [exec, execBuildTable, if_neg (not_not.mpr hempty), if_pos (Bool.eq_false_iff.mp hinvalid)]

theorem exec_buildTable_of_none (hempty : s.tstate = .empty) (hvalid : validGenerators s.cfg = true)
    (hnone : buildTable s.cfg = none) : exec .buildTable s = .next (breakTable .noInverse s) := by
  rw [exec, execBuildTable, if_neg (not_not.mpr hempty), if_neg (not_not.mpr hvalid), hnone]

theorem exec_buildTable_of_some {t : Table} (hempty : s.tstate = .empty) (hvalid : validGenerators s.cfg = true)
    (ht : buildTable s.cfg = some t) :
    exec .buildTable s = .next (complete { s with table := t, tstate := .ready }) := by
  rw [exec, execBuildTable, if_neg (not_not.mpr hempty), if_neg (not_not.mpr hvalid), ht]

theorem exec_tblRead_of_not_ready (h : s.tstate ≠ .ready) :
    exec (.tblRead g w v) s = .next (raise .tableNotReady s) := by
  rw [exec, execTblRead, if_pos h]

theorem exec_tblRead_of_badGen (hready : s.tstate = .ready) (hg : 4 < g) :
    exec (.tblRead g w v) s = .next (raise .badGen s) := by
  rw [exec, execTblRead, if_neg (not_not.mpr hready), if_pos hg]

theorem exec_tblRead_of_entry {e : Point} (hready : s.tstate = .ready) (hg : g < 5) (he : entry s.table g w v = some e) :
    exec (.tblRead g w v) s = .next (complete (s.setResult e)) := by
  rw [exec, execTblRead, if_neg (not_not.mpr hready), if_neg (by omega), tableRead_of_entry _ _ _ _ _ he]

theorem exec_fsToPoint_of_not_ready (h : s.tstate ≠ .ready) :
    exec (.fsToPoint signed g) s = .next (raise .tableNotReady s) := by
  rw [exec, execFsToPoint, if_pos h]

theorem exec_fsToPoint_of_badGen (hready : s.tstate = .ready) (hg : 4 < g) :
    exec (.fsToPoint signed g) s = .next (raise .badGen s) := by
  rw [exec, execFsToPoint, if_neg (not_not.mpr hready), if_pos hg]

theorem exec_fsToPoint_of_none (hready : s.tstate = .ready) (hg : g ≤ 4)
    (hnone : fsToPoint s.cfg s.table (scalarOperand signed s.opaX) g = none) :
    exec (.fsToPoint signed g) s = .next (raise .noInverse s) := by
  rw [exec, execFsToPoint, if_neg (not_not.mpr hready), if_neg hg.not_gt, hnone]

theorem exec_hashInit_of_not_ready (h : s.tstate ≠ .ready) : exec .hashInit s = .next (raise .tableNotReady s) := by
  rw [exec, execHashInit, if_pos h]

end Answers

/-! ### The codes -/

/-- Settles O34: BUILD_TABLE's three failures, by its checks in their order. -/
theorem buildTableRefuses : Obligations.BuildTableRefuses := fun _ =>
  ⟨exec_buildTable_of_not_empty, fun hempty hinvalid => ⟨_, _, exec_buildTable_of_invalid hempty hinvalid⟩,
    fun hempty hvalid hnone => ⟨_, _, exec_buildTable_of_none hempty hvalid hnone⟩⟩

/-- Settles O36: the checks of the three commands in their order. -/
theorem tableCommandsRefuse : Obligations.TableCommandsRefuse := fun _ _ _ _ _ =>
  ⟨fun h => ⟨exec_tblRead_of_not_ready h, exec_fsToPoint_of_not_ready h, exec_hashInit_of_not_ready h⟩,
    fun hready hg => ⟨exec_tblRead_of_badGen hready hg, exec_fsToPoint_of_badGen hready hg⟩, exec_fsToPoint_of_none⟩

/-! ### TBL_READ -/

theorem canonical_iff (a : Point) : canonical a = true ↔ a.x < P ∧ a.y < P := by
  rw [canonical, Bool.and_eq_true, decide_eq_true_iff, decide_eq_true_iff]

/-- A well-formed table has a canonical entry everywhere in its shape (20_memory.md R56). -/
theorem exists_entry_of_tableWf {t : Table} (ht : tableWf t = true) {g w v : Nat} (hg : g < 5) (hw : w < 32)
    (hv : v < 256) : ∃ e, entry t g w v = some e ∧ canonical e = true := by
  simp only [tableWf, Bool.and_eq_true, beq_iff_eq, List.all_eq_true] at ht
  obtain ⟨hlen, hrows⟩ := ht
  obtain ⟨row, hrow⟩ : ∃ row, t[g]? = some row := ⟨_, List.getElem?_eq_getElem (hg.trans_eq hlen.symm)⟩
  obtain ⟨hrowLen, hwins⟩ := hrows row (List.mem_of_getElem? hrow)
  obtain ⟨win, hwin⟩ : ∃ win, row[w]? = some win := ⟨_, List.getElem?_eq_getElem (hw.trans_eq hrowLen.symm)⟩
  obtain ⟨hwinLen, hcan⟩ := hwins win (List.mem_of_getElem? hwin)
  obtain ⟨e, he⟩ : ∃ e, win[v]? = some e := ⟨_, List.getElem?_eq_getElem (hv.trans_eq hwinLen.symm)⟩
  exact ⟨e, by rw [entry, hrow, Option.bind_some, hwin, Option.bind_some, he], hcan e (List.mem_of_getElem? he)⟩

/-- Settles O35: by the invariant a READY table is a built one, which is well formed. -/
theorem tblReadCopiesEntry : Obligations.TblReadCopiesEntry := by
  intro s g w v hinv hready hg hw hv
  obtain ⟨-, hbuilt⟩ := hinv.table hready
  obtain ⟨e, he, hcan⟩ := exists_entry_of_tableWf (buildTable_wf _ _ hbuilt) hg hw hv
  obtain ⟨hx, hy⟩ := (canonical_iff e).mp hcan
  exact ⟨e, he, hx, hy, exec_tblRead_of_entry hready hg he⟩

end Sys2Proof.Machine
end

section
/-! PROOFS. The construction of the generator table: a built table is the one R142 describes, and under D_NONSQUARE the
construction cannot fail (43_generator_table.md R141 to R143). -/

namespace Sys2Proof.Machine

open Sys2Proof Config

/-! ### The entries of a built table -/

/-- Validated generators are canonical points on the curve (43_generator_table.md R141). -/
theorem generators_valid {p : Params} (hvalid : validGenerators p = true) {a : Point} (ha : a ∈ generators p) :
    canonical a = true ∧ onCurve p a.x a.y = true := by
  obtain ⟨⟨x, y⟩, hmem, rfl⟩ := List.mem_map.mp ha
  have hgen := List.all_eq_true.mp hvalid _ hmem
  simp only [validGenerator, Bool.and_eq_true, decide_eq_true_iff] at hgen
  obtain ⟨⟨⟨hx0, hx⟩, hy0, hy⟩, hcurve⟩ := hgen
  refine ⟨(canonical_iff _).mpr ⟨(Int.toNat_lt hx0).mpr hx, (Int.toNat_lt hy0).mpr hy⟩, ?_⟩
  rwa [Int.toNat_of_nonneg hx0, Int.toNat_of_nonneg hy0]

/-- Entry 1 of a window is its unit step, as the identity plus the step is the step (43_generator_table.md R142). -/
theorem buildWindow_one {p : Params} {step : Point} {win : List Point} (hcan : canonical step = true)
    (h : buildWindow p step = some win) : win[1]? = some step := by
  obtain ⟨-, hzero, hnext⟩ := windowFrom_eq_some p step _ _ _ h
  obtain ⟨a, b, ha, hb, hadd⟩ := hnext 0 (by decide)
  obtain rfl : idPt = a := Option.some.inj (hzero.symm.trans ha)
  obtain ⟨hx, hy⟩ := (canonical_iff step).mp hcan
  rw [hb, ← hadd, pointAdd_id_left p step hx hy]

/-- `256 * step` is the window's last entry plus the step (43_generator_table.md R142; log 10). -/
theorem exists_last_of_advance {p : Params} {step step' : Point} {win : List Point} (h : buildWindow p step = some win)
    (hadv : advance p step = some step') : ∃ e, win[255]? = some e ∧ pointAdd p e step = some step' := by
  obtain ⟨e, he, hgoOn⟩ := addTimes_of_windowFrom p step _ _ _ h
  have hone : advance p step = (pointAdd p e step).bind some := hgoOn 1
  exact ⟨e, he, by rw [← hadv, hone, Option.bind_fun_some]⟩

/-- The windows of generator `g` in a built table, and their unit steps `st`. -/
theorem exists_windows_of_buildTable {p : Params} {t : Table} (h : buildTable p = some t) {g : Nat} (hg : g < 5) :
    ∃ st : Nat → Point, (generators p)[g]? = some (st 0) ∧ ∀ w, w < 32 → ∃ win, (∀ v, entry t g w v = win[v]?) ∧
      buildWindow p (st w) = some win ∧ advance p (st w) = some (st (w + 1)) := by
  have hgen : (generators p)[g]? = some _ := List.getElem?_eq_getElem (by rwa [generators_length])
  obtain ⟨row, hrow, hwins⟩ := (buildRows_eq_some p _ _ h).2 g _ hgen
  obtain ⟨-, st, hst0, hst⟩ := buildWindows_eq_some p _ _ _ hwins
  refine ⟨st, hst0 ▸ hgen, fun w hw => ?_⟩
  obtain ⟨win, hwin, hbuilt, hadv⟩ := hst w hw
  exact ⟨win, fun v => by rw [entry, hrow, Option.bind_some, hwin, Option.bind_some], hbuilt, hadv⟩

/-- The rows of R142 for generator `g` of a built table, with the unit steps `st` of its windows. -/
theorem exists_steps_of_buildTable {p : Params} {t : Table} (hvalid : validGenerators p = true)
    (h : buildTable p = some t) {g : Nat} (hg : g < 5) :
    ∃ st : Nat → Point, (generators p)[g]? = some (st 0) ∧ ∀ w, w < 32 →
      entry t g w 0 = some idPt ∧ entry t g w 1 = some (st w) ∧
      (∀ v, v < 255 → ∃ e e', entry t g w v = some e ∧ entry t g w (v + 1) = some e' ∧
        pointAdd p e (st w) = some e') ∧
      ∃ e, entry t g w 255 = some e ∧ pointAdd p e (st w) = some (st (w + 1)) := by
  obtain ⟨st, hst0, hwins⟩ := exists_windows_of_buildTable h hg
  have hcan (w : Nat) (hw : w < 32) : canonical (st w) = true := by
    cases w with
    | zero => exact (generators_valid hvalid (List.mem_of_getElem? hst0)).1
    | succ w =>
      obtain ⟨win, -, hbuilt, hadv⟩ := hwins w (by omega)
      obtain ⟨e, -, hadd⟩ := exists_last_of_advance hbuilt hadv
      exact pointAdd_canonical p _ _ _ hadd
  refine ⟨st, hst0, fun w hw => ?_⟩
  obtain ⟨win, hentry, hbuilt, hadv⟩ := hwins w hw
  obtain ⟨-, hzero, hnext⟩ := windowFrom_eq_some p _ _ _ _ hbuilt
  simp only [hentry]
  exact ⟨hzero, buildWindow_one (hcan w hw) hbuilt, hnext, exists_last_of_advance hbuilt hadv⟩

/-- A table built from valid generators is the one R142 describes. -/
theorem tableBuilt_of_buildTable {p : Params} {t : Table} (hvalid : validGenerators p = true)
    (h : buildTable p = some t) : TableBuilt p t where
  zero g w hg hw := by
    obtain ⟨st, -, hrow⟩ := exists_steps_of_buildTable hvalid h hg
    exact (hrow w hw).1
  first g hg := by
    obtain ⟨st, hst0, hrow⟩ := exists_steps_of_buildTable hvalid h hg
    obtain ⟨-, hone, -⟩ := hrow 0 (by decide)
    rw [hone, hst0]
  next g w v hg hw hv := by
    obtain ⟨st, -, hrow⟩ := exists_steps_of_buildTable hvalid h hg
    obtain ⟨-, hone, hnext, -⟩ := hrow w hw
    obtain ⟨e, e', he, he', hadd⟩ := hnext v hv
    exact ⟨e, st w, e', he, hone, he', hadd⟩
  window g w hg hw := by
    obtain ⟨st, -, hrow⟩ := exists_steps_of_buildTable hvalid h hg
    obtain ⟨-, hone, -, e, he, hadd⟩ := hrow w (by omega)
    obtain ⟨-, hone', -⟩ := hrow (w + 1) (by omega)
    exact ⟨e, st w, st (w + 1), he, hone, hone', hadd⟩

/-- BUILD_TABLE where the construction answers (43_generator_table.md R143). -/
theorem exec_buildTable_builds {s : State} {t : Table} (hempty : s.tstate = .empty)
    (hvalid : validGenerators s.cfg = true) (ht : buildTable s.cfg = some t) :
    exec .buildTable s = .next { s with table := t, tstate := .ready, err := .ok } ∧ tableWf t = true ∧
      TableBuilt s.cfg t :=
  ⟨exec_buildTable_of_some hempty hvalid ht, buildTable_wf _ _ ht, tableBuilt_of_buildTable hvalid ht⟩

/-- Settles O32: the table the construction answers is the one R142 describes. -/
theorem buildTableBuilds : Obligations.BuildTableBuilds := by
  intro s hempty hvalid hsome
  obtain ⟨t, ht⟩ := Option.isSome_iff_exists.mp hsome
  exact ⟨t, exec_buildTable_builds hempty hvalid ht⟩

/-! ### The construction on the curve -/

theorem idPt_onCurve (p : Params) : onCurve p idPt.x idPt.y = true := by simp [onCurve, idPt]

section OnCurve

variable {p : Params} (hD : p.DNonsquare)

include hD

/-- Under D_NONSQUARE two points on the curve have a sum, and it is on the curve (42_point_adder.md R123). -/
theorem exists_pointAdd_onCurve {a b : Point} (ha : onCurve p a.x a.y = true) (hb : onCurve p b.x b.y = true) :
    ∃ r, pointAdd p a b = some r ∧ onCurve p r.x r.y = true := by
  obtain ⟨r, hr⟩ := Option.isSome_iff_exists.mp (nonsquareMeansComplete p a b hD ha hb)
  obtain ⟨-, -, hcurve⟩ := sumStaysOnCurve p a b r hr
  exact ⟨r, hr, hcurve ha hb⟩

theorem exists_addTimes_onCurve {step : Point} (hstep : onCurve p step.x step.y = true) (n : Nat) {e : Point}
    (he : onCurve p e.x e.y = true) : ∃ r, addTimes p step n e = some r ∧ onCurve p r.x r.y = true := by
  induction n generalizing e with
  | zero => exact ⟨e, rfl, he⟩
  | succ n ih =>
    obtain ⟨e', hadd, he'⟩ := exists_pointAdd_onCurve hD he hstep
    rw [addTimes, hadd, Option.bind_some]
    exact ih he'

theorem exists_windowFrom_onCurve {step : Point} (hstep : onCurve p step.x step.y = true) (n : Nat) {e : Point}
    (he : onCurve p e.x e.y = true) :
    ∃ es, windowFrom p step n e = some es ∧ ∀ a ∈ es, onCurve p a.x a.y = true := by
  induction n generalizing e with
  | zero => exact ⟨[e], rfl, List.forall_mem_singleton.mpr he⟩
  | succ n ih =>
    obtain ⟨e', hadd, he'⟩ := exists_pointAdd_onCurve hD he hstep
    obtain ⟨es, hes, hcurve⟩ := ih he'
    refine ⟨e :: es, ?_, List.forall_mem_cons.mpr ⟨he, hcurve⟩⟩
    rw [windowFrom, hadd, Option.bind_some, hes, Option.map_some]

theorem exists_buildWindows_onCurve (n : Nat) {step : Point} (hstep : onCurve p step.x step.y = true) :
    ∃ ws, buildWindows p n step = some ws ∧ ∀ win ∈ ws, ∀ a ∈ win, onCurve p a.x a.y = true := by
  induction n generalizing step with
  | zero => exact ⟨[], rfl, List.forall_mem_nil _⟩
  | succ n ih =>
    obtain ⟨win, hwin, hcurve⟩ := exists_windowFrom_onCurve hD hstep (windowSize - 1) (idPt_onCurve p)
    obtain ⟨step', hadv, hstep'⟩ := exists_addTimes_onCurve hD hstep windowSize (idPt_onCurve p)
    obtain ⟨ws, hws, hcurves⟩ := ih hstep'
    refine ⟨win :: ws, ?_, List.forall_mem_cons.mpr ⟨hcurve, hcurves⟩⟩
    rw [buildWindows, buildWindow, hwin, Option.bind_some, advance, hadv, Option.bind_some, hws, Option.map_some]

theorem exists_buildRows_onCurve {gs : List Point} (hgs : ∀ a ∈ gs, onCurve p a.x a.y = true) :
    ∃ t, buildRows p gs = some t ∧ ∀ row ∈ t, ∀ win ∈ row, ∀ a ∈ win, onCurve p a.x a.y = true := by
  induction gs with
  | nil => exact ⟨[], rfl, List.forall_mem_nil _⟩
  | cons g gs ih =>
    obtain ⟨hg, hgs⟩ := List.forall_mem_cons.mp hgs
    obtain ⟨row, hrow, hcurve⟩ := exists_buildWindows_onCurve hD numWindows hg
    obtain ⟨t, ht, hcurves⟩ := ih hgs
    refine ⟨row :: t, ?_, List.forall_mem_cons.mpr ⟨hcurve, hcurves⟩⟩
    rw [buildRows, hrow, Option.bind_some, ht, Option.map_some]

end OnCurve

theorem exists_mem_of_entry {t : Table} {g w v : Nat} {e : Point} (h : entry t g w v = some e) :
    ∃ row ∈ t, ∃ win ∈ row, e ∈ win := by
  simp only [entry, Option.bind_eq_some_iff] at h
  obtain ⟨win, ⟨row, hrow, hwin⟩, he⟩ := h
  exact ⟨row, List.mem_of_getElem? hrow, win, List.mem_of_getElem? hwin, List.mem_of_getElem? he⟩

/-- Under D_NONSQUARE the construction from valid generators cannot fail, and stays on the curve (43_generator_table.md
R143). -/
theorem exists_buildTable_onCurve {p : Params} (hD : p.DNonsquare) (hvalid : validGenerators p = true) :
    ∃ t, buildTable p = some t ∧ ∀ g w v e, entry t g w v = some e → onCurve p e.x e.y = true := by
  obtain ⟨t, ht, hcurve⟩ := exists_buildRows_onCurve hD fun a ha => (generators_valid hvalid ha).2
  refine ⟨t, ht, fun g w v e he => ?_⟩
  obtain ⟨row, hrow, win, hwin, hmem⟩ := exists_mem_of_entry he
  exact hcurve row hrow win hwin e hmem

/-- Settles O33: the construction answers, so O32's case is the one that occurs. -/
theorem buildTableCannotFailOnCurve : Obligations.BuildTableCannotFailOnCurve := by
  intro s hempty hvalid hD
  obtain ⟨t, ht, hcurve⟩ := exists_buildTable_onCurve hD hvalid
  obtain ⟨hexec, hwf, hbuilt⟩ := exec_buildTable_builds hempty hvalid ht
  exact ⟨t, hexec, hwf, hbuilt, hcurve⟩

end Sys2Proof.Machine
end

section
/-! PROOFS. The lifetime of the generator table (43_generator_table.md R146, 10_state.md R35). -/

namespace Sys2Proof.Machine

open Sys2Proof Config

/-- A command leaves the table and TSTATE alone, unless it is a BUILD_TABLE from EMPTY. -/
theorem exec_table {i : Instr} {s t : State} (h : exec i s = .next t) :
    (t.tstate = s.tstate ∧ t.table = s.table) ∨ (i = .buildTable ∧ s.tstate = .empty) := by
  by_cases hi : i = .buildTable
  · subst hi
    obtain ⟨-, rfl⟩ | ⟨hempty, -⟩ := exec_buildTable h
    · exact .inl ⟨rfl, rfl⟩
    · exact .inr ⟨rfl, hempty⟩
  · obtain ⟨htable, htstate, -⟩ := (exec_frame h).table hi
    exact .inl ⟨htstate, htable⟩

theorem writeSlot_table (s : State) (v : Word) (sl : Slot) :
    (s.writeSlot v sl).tstate = s.tstate ∧ (s.writeSlot v sl).table = s.table := by
  obtain h | ⟨-, h⟩ | ⟨-, -, h⟩ | ⟨-, h⟩ | ⟨r, k, -, -, -, h⟩ := writeSlot_cases s v sl <;> rw [h]
  case inr.inr.inr.inr =>
    rw [writeData_frame]
    exact ⟨rfl, rfl⟩
  all_goals exact ⟨rfl, rfl⟩

theorem hostAccess_table {a : Access} {s t : State} (h : hostAccess a s = .next t) :
    t.tstate = s.tstate ∧ t.table = s.table := by
  obtain ⟨addr, size, -, rfl⟩ | ⟨addr, size, v, -, rfl⟩ := hostAccess_next h
  · exact ⟨rfl, rfl⟩
  · exact writeSlot_table s v _

/-- A step that is no reset leaves the table and TSTATE alone, unless it performs a BUILD_TABLE from EMPTY. -/
theorem step_table {s t : State} (hrst : s.rst = false) (h : step s = .next t)
    (hreset : ∀ b, s.inputs.head? ≠ some (.reset b)) :
    (t.tstate = s.tstate ∧ t.table = s.table) ∨
    (s.busy = true ∧ decode s.pending = .ok .buildTable ∧ s.tstate = .empty) := by
  obtain ⟨hturn, -⟩ | ⟨b, hb, -⟩ | ⟨a, -, -, haccess⟩ := step_next h
  · obtain ⟨hrst', -⟩ | ⟨-, -, rfl⟩ | ⟨-, hbusy, hc⟩ := engineTurn_next hturn
    · exact absurd (hrst.symm.trans hrst') Bool.false_ne_true
    · exact .inl ⟨rfl, rfl⟩
    · obtain ⟨i, t', hd, he, rfl⟩ | ⟨e, -, rfl⟩ := completion_next hc
      · obtain hsame | ⟨rfl, hempty⟩ := exec_table he
        · exact .inl hsame
        · exact .inr ⟨hbusy, hd, hempty⟩
      · exact .inl ⟨rfl, rfl⟩
  · exact absurd hb (hreset b)
  · have hsame := hostAccess_table haccess
    exact .inl hsame

/-- Settles O37: only a BUILD_TABLE from EMPTY touches the table or TSTATE, and READY and BROKEN are not EMPTY. -/
theorem tableIsWriteOnce : Obligations.TableIsWriteOnce := by
  intro s t hrst h hreset
  obtain ⟨htstate, htable⟩ | ⟨hbusy, hdecode, hempty⟩ := step_table hrst h hreset
  · exact ⟨fun hready => ⟨htstate.trans hready, htable⟩, htstate.trans, fun hne => absurd htstate hne⟩
  · exact ⟨fun hready => (nomatch hempty.symm.trans hready), fun hbroken => (nomatch hempty.symm.trans hbroken),
      fun _ => ⟨hbusy, hdecode, hempty⟩⟩

end Sys2Proof.Machine
end

section
/-! PROOFS. The hash core's commands: what each answers, case by case, and the codes of the session commands
(44_hash_core.md R163, R164, R167, R168, R170). -/

namespace Sys2Proof.Machine

open Sys2Proof Config

/-! ### The answers of the commands, case by case -/

section Answers

variable {s : State} {g imm8 : Nat} {a b c signed : Bool}

theorem exec_fsToPoint_of_some {pt : Point} (hready : s.tstate = .ready) (hg : g ≤ 4)
    (hpt : fsToPoint s.cfg s.table (scalarOperand signed s.opaX) g = some pt) :
    exec (.fsToPoint signed g) s = .next (complete (s.setResult pt)) := by
  rw [exec, execFsToPoint, if_neg (not_not.mpr hready), if_neg hg.not_gt, hpt]

theorem exec_hashInit_of_ready (hready : s.tstate = .ready) :
    exec .hashInit s = .next (complete { s with session := Session.fresh, hstate := .absorb }) := by
  rw [exec, execHashInit, if_neg (not_not.mpr hready)]

theorem exec_absorbByte_of_not_absorb (h : s.hstate ≠ .absorb) :
    exec (.absorbByte imm8) s = .next (raise .badState s) := by
  rw [exec, execAbsorbByte, if_pos h]

theorem exec_absorbByte_of_full (habsorb : s.hstate = .absorb) (hfull : 930 < s.session.bitsAbsorbed + 8) :
    exec (.absorbByte imm8) s = .next (failSession .inputTooLong s) := by
  rw [exec, execAbsorbByte, maxBits, if_neg (not_not.mpr habsorb), if_pos hfull]

theorem exec_absorbByte_of_none (habsorb : s.hstate = .absorb) (hcap : s.session.bitsAbsorbed + 8 ≤ 930)
    (hnone : absorbBits s.cfg s.table imm8 s.session = none) :
    exec (.absorbByte imm8) s = .next (failSession .noInverse s) := by
  rw [exec, execAbsorbByte, maxBits, if_neg (not_not.mpr habsorb), if_neg hcap.not_gt, hnone]

theorem exec_absorbByte_of_some {u : Session} (habsorb : s.hstate = .absorb) (hcap : s.session.bitsAbsorbed + 8 ≤ 930)
    (hu : absorbBits s.cfg s.table imm8 s.session = some u) :
    exec (.absorbByte imm8) s = .next (complete { s with session := u }) := by
  rw [exec, execAbsorbByte, maxBits, if_neg (not_not.mpr habsorb), if_neg hcap.not_gt, hu]

theorem exec_absorbTriple_of_not_absorb (h : s.hstate ≠ .absorb) :
    exec (.absorbTriple a b c) s = .next (raise .badState s) := by
  rw [exec, execAbsorbTriple, if_pos h]

theorem exec_absorbTriple_of_pending (habsorb : s.hstate = .absorb) (hbits : s.session.bitcnt ≠ 0) :
    exec (.absorbTriple a b c) s = .next (raise .bitAlign s) := by
  rw [exec, execAbsorbTriple, if_neg (not_not.mpr habsorb), if_pos hbits]

theorem exec_absorbTriple_of_full (habsorb : s.hstate = .absorb) (hbits : s.session.bitcnt = 0)
    (hfull : 310 ≤ s.session.triples.toNat) :
    exec (.absorbTriple a b c) s = .next (failSession .inputTooLong s) := by
  rw [exec, execAbsorbTriple, maxBits, if_neg (not_not.mpr habsorb), if_neg (not_not.mpr hbits), if_pos (by omega)]

theorem exec_absorbTriple_of_none (habsorb : s.hstate = .absorb) (hbits : s.session.bitcnt = 0)
    (hcap : s.session.triples.toNat < 310) (hnone : stepTriple s.cfg s.table a b c s.session = none) :
    exec (.absorbTriple a b c) s = .next (failSession .noInverse s) := by
  rw [exec, execAbsorbTriple, maxBits, if_neg (not_not.mpr habsorb), if_neg (not_not.mpr hbits), if_neg (by omega),
    hnone]

theorem exec_absorbTriple_of_some {u : Session} (habsorb : s.hstate = .absorb) (hbits : s.session.bitcnt = 0)
    (hcap : s.session.triples.toNat < 310) (hu : stepTriple s.cfg s.table a b c s.session = some u) :
    exec (.absorbTriple a b c) s = .next (complete { s with session := u }) := by
  rw [exec, execAbsorbTriple, maxBits, if_neg (not_not.mpr habsorb), if_neg (not_not.mpr hbits), if_neg (by omega), hu]

theorem exec_hashFinish_of_not_absorb (h : s.hstate ≠ .absorb) : exec .hashFinish s = .next (raise .badState s) := by
  rw [exec, execHashFinish, if_pos h]

theorem exec_hashFinish_of_none (habsorb : s.hstate = .absorb)
    (hnone : (padTriple s.cfg s.table s.session).bind (finalFlush s.cfg s.table) = none) :
    exec .hashFinish s = .next (failSession .noInverse s) := by
  rw [exec, execHashFinish, if_neg (not_not.mpr habsorb), hnone]

theorem exec_hashFinish_of_some {u : Session} (habsorb : s.hstate = .absorb)
    (hu : (padTriple s.cfg s.table s.session).bind (finalFlush s.cfg s.table) = some u) :
    exec .hashFinish s = .next (complete { s with session := u, hstate := .done }) := by
  rw [exec, execHashFinish, if_neg (not_not.mpr habsorb), hu]

end Answers

/-! ### HASH_INIT and the refusals -/

/-- Settles O40: the word is `encode`'s, and the table's state decides the answer. -/
theorem hashInitStartsFresh : Obligations.HashInitStartsFresh := by
  refine ⟨fun w => ⟨fun h => (decodeThenEncode w .hashInit h).2.symm, ?_⟩, fun s => exec_hashInit_of_not_ready,
    fun s => exec_hashInit_of_ready⟩
  rintro rfl
  exact decode_encode (i := .hashInit) rfl

/-- Settles O44: the capacity is checked before any bit is processed. -/
theorem tooLongInputFailsSession : Obligations.TooLongInputFailsSession := fun _ habsorb =>
  ⟨fun _ hfull => exec_absorbByte_of_full habsorb hfull,
    fun _ _ _ hbits hfull => exec_absorbTriple_of_full habsorb hbits (by omega)⟩

/-- Settles O45: HSTATE is checked first, then the alignment. -/
theorem sessionCommandsRefuse : Obligations.SessionCommandsRefuse := fun _ _ _ _ _ =>
  ⟨fun h => ⟨exec_absorbByte_of_not_absorb h, exec_absorbTriple_of_not_absorb h, exec_hashFinish_of_not_absorb h⟩,
    exec_absorbTriple_of_pending⟩

end Sys2Proof.Machine
end

section
/-! PROOFS. `fsToPoint` as a chain of 32 sums, and FS_TO_POINT (44_hash_core.md R172, R173). -/

namespace Sys2Proof.Machine

open Sys2Proof Config

/-- A fold over the first `n` numbers that answers at every one of them ends where the chain of its answers does. -/
theorem foldlM_range_of_chain {α : Type} {f : α → Nat → Option α} {st : Nat → α} (n : Nat)
    (h : ∀ w, w < n → f (st w) w = some (st (w + 1))) : (List.range n).foldlM f (st 0) = some (st n) := by
  induction n with
  | zero => rfl
  | succ n ih =>
    rw [List.range_succ, List.foldlM_append, ih fun w hw => h w (by omega), Option.bind_eq_bind, Option.bind_some,
      List.foldlM_cons, h n (Nat.lt_succ_self n)]
    rfl

/-- `fsToPoint` answers the last of the partial sums of its lookups (44_hash_core.md R172). -/
theorem fsToPoint_of_partialSums {p : Params} {t : Table} {x : Int} {g : Nat} {pt e : Nat → Point} (h0 : pt 0 = idPt)
    (h : ∀ w, w < 32 → entry t g w (windowByte (wrapFs p x) w) = some (e w) ∧
      pointAdd p (pt w) (e w) = some (pt (w + 1))) : fsToPoint p t x g = some (pt 32) := by
  rw [fsToPoint, ← h0]
  refine foldlM_range_of_chain numWindows fun w hw => ?_
  obtain ⟨hentry, hadd⟩ := h w hw
  rw [tableRead_of_entry _ _ _ _ _ hentry, hadd]

theorem windowByte_eq (n w : Nat) : windowByte n w = n / 256 ^ w % 256 := by
  rw [windowByte, pow_mul]
  rfl

/-- Settles O38: the partial sums are the fold's values. -/
theorem fsToPointSumsLookups : Obligations.FsToPointSumsLookups := by
  rintro s signed g x pt e hready hg rfl h0 hsums
  refine exec_fsToPoint_of_some hready hg (fsToPoint_of_partialSums (e := e) h0 fun w hw => ?_)
  rw [windowByte_eq]
  exact hsums w hw

/-! ### The scalar 1 -/

/-- The sequence `a, b, b, …`. -/
def startThen (a b : Point) : Nat → Point
  | 0 => a
  | _ + 1 => b

theorem wrapFs_one (p : Params) : wrapFs p 1 = 1 := by
  have hN := p.N_ok.1
  rw [wrapFs, Int.emod_eq_of_lt (by decide) (by omega)]
  rfl

theorem windowByte_one (w : Nat) : windowByte 1 w = if w = 0 then 1 else 0 := by
  cases w with
  | zero => rfl
  | succ w =>
    rw [windowByte_succ]
    simp [windowByte]

theorem scalarOperand_one (signed : Bool) : scalarOperand signed 1 = 1 := by cases signed <;> rfl

/-- The scalar 1 selects the window's unit step in window 0 and the identity in the others, which adds nothing
(44_hash_core.md R173). -/
theorem fsToPoint_one {p : Params} {t : Table} {g : Nat} {e : Point} (ht : TableBuilt p t) (hg : g < 5)
    (he : entry t g 0 1 = some e) (hcan : canonical e = true) : fsToPoint p t 1 g = some e := by
  obtain ⟨hx, hy⟩ := (canonical_iff e).mp hcan
  have hleft : pointAdd p idPt e = some e := pointAdd_id_left p e hx hy
  refine fsToPoint_of_partialSums (pt := startThen idPt e) (e := startThen e idPt) rfl fun w hw => ?_
  rw [wrapFs_one, windowByte_one]
  cases w with
  | zero => exact ⟨he, hleft⟩
  | succ w => exact ⟨ht.zero g (w + 1) hg hw, (pointAdd_comm p e idPt).trans hleft⟩

/-- Settles O39: a READY table is a built one, so entry `(g, 0, 1)` is the generator, a canonical point. -/
theorem fsToPointOfOneIsGenerator : Obligations.FsToPointOfOneIsGenerator := by
  intro s signed g hinv hready hg hone
  obtain ⟨hvalid, hbuild⟩ := hinv.table hready
  have hbuilt := tableBuilt_of_buildTable hvalid hbuild
  obtain ⟨e, he, hcan⟩ := exists_entry_of_tableWf (buildTable_wf _ _ hbuild) hg (w := 0) (v := 1) (by decide)
    (by decide)
  refine ⟨e, (hbuilt.first g hg).symm.trans he, he, exec_fsToPoint_of_some hready (by omega) ?_⟩
  rw [hone, scalarOperand_one]
  exact fsToPoint_one hbuilt hg he hcan

end Sys2Proof.Machine
end

section
/-! PROOFS. One triple, the flush and the bits of a byte: ABSORB_TRIPLE, ABSORB_BYTE and HASH_FINISH (44_hash_core.md
R165 to R171). -/

namespace Sys2Proof.Machine

open Sys2Proof Config

/-! ### The triple step -/

theorem addTriple_rem_eq_zero_iff (a b c : Bool) (u : Session) : (u.addTriple a b c).rem = 0 ↔ u.rem.toNat = 1 := by
  rw [addTriple_rem, sub_eq_zero, BitVec.toNat_eq]
  rfl

/-- A triple that is not the chunk's last only updates the registers. -/
theorem stepTriple_of_open (p : Params) (t : Table) (a b c : Bool) {u : Session} (h : u.rem.toNat ≠ 1) :
    stepTriple p t a b c u = some (u.addTriple a b c) := by
  rw [stepTriple, if_neg (mt (addTriple_rem_eq_zero_iff a b c u).mp h)]

/-- The chunk's last triple flushes it. -/
theorem stepTriple_of_last (p : Params) (t : Table) (a b c : Bool) {u : Session} (h : u.rem.toNat = 1) :
    stepTriple p t a b c u = flush p t (u.addTriple a b c) := by
  rw [stepTriple, if_pos ((addTriple_rem_eq_zero_iff a b c u).mpr h)]

/-- When a flush meets NoInverse (44_hash_core.md R166). -/
theorem flush_eq_none_iff (p : Params) (t : Table) (u : Session) : flush p t u = none ↔
    (fsToPoint p t u.acc.toInt u.genIdx.toNat).bind (pointAdd p u.hres) = none := by
  simp only [flush, Option.bind_eq_none_iff, Option.map_eq_none_iff]

/-- Settles O41: an open chunk takes the updates of a triple, whose values are exact under R41. -/
theorem absorbTripleAddsWeight : Obligations.AbsorbTripleAddsWeight := by
  intro s a b c habsorb hinv hbits hcap hrem
  obtain ⟨hacc, hcur, hrem', htriples⟩ := addTriple_values a b c s.session hinv hcap
  exact ⟨s.session.addTriple a b c, exec_absorbTriple_of_some habsorb hbits hcap (stepTriple_of_open _ _ a b c hrem),
    hacc, hcur, hrem', htriples, rfl⟩

/-- Settles O42: the last triple's answer is that of the flush, whose scalar is ACC after the triple's updates. -/
theorem lastTripleFlushesChunk : Obligations.LastTripleFlushesChunk := by
  intro s a b c habsorb hinv hbits hcap hrem
  obtain ⟨hacc, -⟩ := addTriple_values a b c s.session hinv hcap
  have hlast := stepTriple_of_last s.cfg s.table a b c hrem
  rw [← hacc]
  refine ⟨fun pt h hpt hsum => ?_, fun hnone => ?_⟩
  · exact exec_absorbTriple_of_some habsorb hbits hcap
      (hlast.trans ((flush_eq_some _ _ _ _).mpr ⟨pt, h, hpt, hsum, rfl⟩))
  · exact exec_absorbTriple_of_none habsorb hbits hcap (hlast.trans ((flush_eq_none_iff _ _ _).mpr hnone))

/-! ### The bits of a byte -/

/-- The pending bits, the oldest first (10_state.md R31). -/
def Session.pending (u : Session) : List Bool := (List.range u.bitcnt.toNat).map u.bitbuf.getLsbD

theorem length_pending (u : Session) : u.pending.length = u.bitcnt.toNat := by
  rw [Session.pending, List.length_map, List.length_range]

theorem SessionInv.length_pending_lt {u : Session} (hu : SessionInv u) : u.pending.length < 3 := by
  rw [length_pending]
  exact Nat.lt_succ_of_le hu.bitcnt_le

/-- Absorbing bits runs the complete triples among the pending and the new ones, and keeps the rest (44_hash_core.md
R167). -/
theorem SessionInv.foldlM_absorbBit_eq {u : Session} (hu : SessionInv u) (p : Params) (t : Table) {bs left : List Bool}
    {ts : List (Bool × Bool × Bool)} (hleft : left.length < 3)
    (h : u.pending ++ bs = ts.flatMap (fun x => [x.1, x.2.1, x.2.2]) ++ left) :
    bs.foldlM (absorbBit p t) u = (stepTriples p t ts u).map (·.withBits left) := by
  have hrun := foldlM_absorbBit p t bs u.pending left ts u hu.length_pending_lt hleft h
  rwa [Session.pending, withBits_pending u hu] at hrun

/-- Settles O43: ABSORB_BYTE's loop is a run over the byte's bits. -/
theorem absorbByteRunsCompleteTriples : Obligations.AbsorbByteRunsCompleteTriples := by
  intro s imm8 ts left habsorb hinv _ hcap hbits hleft
  have hrun : absorbBits s.cfg s.table imm8 s.session =
      (stepTriples s.cfg s.table ts s.session).map (·.withBits left) :=
    hinv.foldlM_absorbBit_eq s.cfg s.table hleft hbits
  refine ⟨fun u hu => ?_, fun hnone => ?_⟩
  · exact exec_absorbByte_of_some habsorb hcap (by rw [hrun, hu, Option.map_some])
  · exact exec_absorbByte_of_none habsorb hcap (by rw [hrun, hnone, Option.map_none])

/-! ### HASH_FINISH -/

theorem flush_clearBits (p : Params) (t : Table) (u : Session) :
    flush p t u.clearBits = (flush p t u).map Session.clearBits := flush_withBits p t u []

theorem stepTriple_clearBits (p : Params) (t : Table) (a b c : Bool) (u : Session) :
    stepTriple p t a b c u.clearBits = (stepTriple p t a b c u).map Session.clearBits :=
  stepTriple_withBits p t a b c u []

theorem finalFlush_eq (p : Params) (t : Table) (u : Session) :
    finalFlush p t u = if u.rem.toNat = 62 then some u else flush p t u := by
  simp only [finalFlush, ne_eq, ite_not, BitVec.toNat_eq]
  rfl

/-- The last flush neither reads nor writes the pending bits. -/
theorem finalFlush_clearBits (p : Params) (t : Table) (u : Session) :
    finalFlush p t u.clearBits = (finalFlush p t u).map Session.clearBits := by
  rw [finalFlush_eq, finalFlush_eq, clearBits_rem, flush_clearBits]
  split_ifs <;> rfl

theorem bufBit_zero {u : Session} (h : u.bitcnt ≠ 0) : u.bufBit 0 = u.bitbuf.getLsbD 0 := by
  have hpos : 0 < u.bitcnt.toNat := Nat.pos_of_ne_zero fun h0 => h (BitVec.eq_of_toNat_eq h0)
  rw [Session.bufBit, decide_eq_true hpos, Bool.true_and]

theorem bufBit_one {u : Session} (h : u.bitcnt.toNat ≤ 2) :
    u.bufBit 1 = (decide (u.bitcnt = 2) && u.bitbuf.getLsbD 1) := by
  have htwo : 1 < u.bitcnt.toNat ↔ u.bitcnt = 2 := by
    rw [BitVec.toNat_eq, show (2 : BitVec 2).toNat = 2 from rfl]
    omega
  rw [Session.bufBit, decide_eq_decide.mpr htwo]

/-- HASH_FINISH's padding: a triple of the pending bits and false, if there is one, and then no bit is pending
(44_hash_core.md R170). -/
theorem SessionInv.padTriple_eq {u : Session} (hu : SessionInv u) (p : Params) (t : Table) : padTriple p t u =
    (if u.bitcnt = 0 then some u
      else stepTriple p t (u.bitbuf.getLsbD 0) (u.bitcnt = 2 && u.bitbuf.getLsbD 1) false u).map Session.clearBits := by
  by_cases h : u.bitcnt = 0
  · rw [padTriple, if_neg (not_not.mpr h), if_pos h, Option.map_some, SessionInv.clearBits_eq h hu.bitbuf_zero]
  · rw [padTriple, if_pos h, if_neg h, bufBit_zero h, bufBit_one hu.bitcnt_le]

/-- Settles O47: clearing the pending bits after the padding triple is clearing them after the flush. -/
theorem hashFinishPadsAndFlushes : Obligations.HashFinishPadsAndFlushes := by
  intro s pad habsorb hinv hpad
  have hfinish : (padTriple s.cfg s.table s.session).bind (finalFlush s.cfg s.table) =
      (pad.bind (finalFlush s.cfg s.table)).map Session.clearBits := by
    rw [hinv.padTriple_eq, ← hpad, Option.bind_map, Option.map_bind]
    exact congrArg pad.bind (funext (finalFlush_clearBits s.cfg s.table))
  refine ⟨fun u v hu hv => ?_, ?_⟩
  · exact exec_hashFinish_of_some habsorb
      (by rw [hfinish, hu, Option.bind_some, finalFlush_eq, hv, Option.map_some]; rfl)
  · rintro (hnone | ⟨u, hu, hrem, hflush⟩)
    · exact exec_hashFinish_of_none habsorb (by rw [hfinish, hnone, Option.bind_none, Option.map_none])
    · exact exec_hashFinish_of_none habsorb
        (by rw [hfinish, hu, Option.bind_some, finalFlush_eq, if_neg hrem, hflush, Option.map_none])

end Sys2Proof.Machine
end

section
/-! PROOFS. Whole sessions: the capacity in bytes, the source's hash, and what a session depends on (44_hash_core.md
R160 to R164, R176). -/

namespace Sys2Proof.Machine

open Sys2Proof Config

/-! ### The capacity in bytes -/

/-- What a session that has been given `n` bytes through ABSORB_BYTE alone looks like: none of them was too long, and
while it runs it has absorbed their bits (10_state.md R32, 44_hash_core.md R164). -/
structure BytesAbsorbed (n : Nat) (s : State) : Prop where
  err : s.err ≠ .inputTooLong
  running : s.hstate = .absorb → SessionInv s.session ∧ s.session.bitsAbsorbed = 8 * n

theorem exec_absorbByte_bytesAbsorbed {n imm8 : Nat} {s t : State} (hs : BytesAbsorbed n s) (hn : n < 116)
    (h : exec (.absorbByte imm8) s = .next t) : BytesAbsorbed (n + 1) t := by
  obtain ⟨hne, rfl⟩ | ⟨habsorb, hfull, -⟩ | ⟨habsorb, hcap, ⟨-, rfl⟩ | ⟨u, hu, rfl⟩⟩ := exec_absorbByte h
  · exact ⟨by simp, fun h => absurd h hne⟩
  · obtain ⟨-, hbits⟩ := hs.running habsorb
    omega
  · exact ⟨by simp, fun h => nomatch h⟩
  · obtain ⟨hinv, hbits⟩ := hs.running habsorb
    obtain ⟨hinv', hbits', -⟩ := absorbBits_inv _ _ _ _ _ hinv hcap hu
    exact ⟨by simp, fun _ => ⟨hinv', by rw [complete_session, hbits', hbits, Nat.mul_succ]⟩⟩

theorem execAll_absorbByte_bytesAbsorbed {n : Nat} {s t : State} {m : List Nat} (hs : BytesAbsorbed n s)
    (hn : n + m.length ≤ 116) (h : execAll (m.map .absorbByte) s = .next t) : BytesAbsorbed (n + m.length) t := by
  induction m generalizing n s with
  | nil =>
    obtain rfl := next_inj h
    exact hs
  | cons b m ih =>
    rw [List.length_cons] at hn ⊢
    obtain ⟨u, hu, ht⟩ := andThen_eq_next h
    have hlen : n + 1 + m.length = n + (m.length + 1) := by omega
    exact hlen ▸ ih (exec_absorbByte_bytesAbsorbed hs (by omega) hu) (by omega) ht

/-- A fresh session has absorbed no byte. -/
theorem exec_hashInit_bytesAbsorbed {s t : State} (hready : s.tstate = .ready) (h : exec .hashInit s = .next t) :
    BytesAbsorbed 0 t := by
  obtain rfl := next_inj ((exec_hashInit_of_ready hready).symm.trans h)
  exact ⟨by simp, fun _ => ⟨fresh_inv, rfl⟩⟩

/-- Settles O46: 116 bytes are 928 bits, and 117 bytes are 936. -/
theorem byte117IsTooLong : Obligations.Byte117IsTooLong := by
  intro s t m imm8 hready _ h
  obtain ⟨u, hu, ht⟩ := andThen_eq_next h
  have habsorbed (hlen : m.length ≤ 116) : BytesAbsorbed (0 + m.length) t :=
    execAll_absorbByte_bytesAbsorbed (exec_hashInit_bytesAbsorbed hready hu) (by omega) ht
  refine ⟨fun hlen => (habsorbed hlen).err, fun hlen habsorb => exec_absorbByte_of_full habsorb ?_⟩
  obtain ⟨-, hbits⟩ := (habsorbed hlen.le).running habsorb
  omega

/-! ### The source's hash -/

theorem execAll_append (is js : List Instr) (s : State) :
    execAll (is ++ js) s = andThen (execAll is s) (execAll js) := by
  induction is generalizing s with
  | nil => rfl
  | cons i is ih =>
    rw [List.cons_append, execAll, execAll, andThen_assoc]
    exact congrArg (andThen (exec i s)) (funext ih)

/-- `s` with a running session `u` and the code of a command that has completed. -/
def State.inSession (s : State) (u : Session) : State := complete { s with session := u, hstate := .absorb }

theorem exec_hashInit_inSession {s : State} (hready : s.tstate = .ready) :
    exec .hashInit s = .next (s.inSession Session.fresh) := exec_hashInit_of_ready hready

/-- Within the capacity ABSORB_BYTEs run the bit loop over the bits of all their bytes. -/
theorem execAll_absorbByte_of_some (s : State) {m : List Nat} {u v : Session} (hinv : SessionInv u)
    (hcap : u.bitsAbsorbed + 8 * m.length ≤ 930)
    (hv : (m.flatMap bitsOfByte).foldlM (absorbBit s.cfg s.table) u = some v) :
    execAll (m.map .absorbByte) (s.inSession u) = .next (s.inSession v) := by
  induction m generalizing u with
  | nil =>
    obtain rfl := Option.some.inj hv
    rfl
  | cons b m ih =>
    rw [List.length_cons] at hcap
    rw [List.flatMap_cons, List.foldlM_append, Option.bind_eq_bind, Option.bind_eq_some_iff] at hv
    obtain ⟨w, hw, hv⟩ := hv
    obtain ⟨hinv', hbits, -⟩ := absorbBits_inv _ _ _ _ _ hinv (by omega) hw
    have hroom : u.bitsAbsorbed + 8 ≤ 930 := by omega
    have hbyte : exec (.absorbByte b) (s.inSession u) = .next (s.inSession w) :=
      exec_absorbByte_of_some (s := s.inSession u) rfl hroom hw
    rw [List.map_cons, execAll, hbyte, andThen_next]
    exact ih hinv' (by omega) hv

theorem length_flatMap_bitsOfByte (m : List Nat) : (m.flatMap bitsOfByte).length = 8 * m.length := by
  induction m with
  | nil => rfl
  | cons b m ih =>
    rw [List.flatMap_cons, List.length_append, ih, bitsOfByte_length, List.length_cons]
    omega

/-- Bits whose number is a multiple of 3 are their triples (44_hash_core.md R161). -/
theorem flatMap_triplesOf : ∀ bs : List Bool, bs.length % 3 = 0 →
    (triplesOf bs).flatMap (fun x => [x.1, x.2.1, x.2.2]) = bs
  | [], _ => rfl
  | [_], h => by simp at h
  | [_, _], h => by simp at h
  | a :: b :: c :: bs, h => by
    rw [triplesOf, List.flatMap_cons, flatMap_triplesOf bs (by simp only [List.length_cons] at h; omega)]
    rfl

theorem stepTriples_clearBits (p : Params) (t : Table) (ts : List (Bool × Bool × Bool)) (u : Session) :
    stepTriples p t ts u.clearBits = (stepTriples p t ts u).map Session.clearBits := by
  induction ts generalizing u with
  | nil => rfl
  | cons x ts ih =>
    rw [stepTriples, stepTriples, List.foldlM_cons, List.foldlM_cons, stepTriple_clearBits]
    cases stepTriple p t x.1 x.2.1 x.2.2 u with
    | none => rfl
    | some v => exact ih v

/-- The padded bits of a buffer, absorbed one at a time, are the source's triples (44_hash_core.md R161). -/
theorem foldlM_absorbBit_paddedBits (p : Params) (t : Table) (m : List Nat) :
    (paddedBits m).foldlM (absorbBit p t) Session.fresh = stepTriples p t (triplesOf (paddedBits m)) Session.fresh := by
  have hlen : (paddedBits m).length % 3 = 0 := by
    rw [paddedBits, List.length_append, length_flatMap_bitsOfByte, List.length_replicate]
    omega
  have hbits := flatMap_triplesOf _ hlen
  rw [fresh_inv.foldlM_absorbBit_eq p t (left := []) (by decide) (by rw [List.append_nil, hbits]; rfl)]
  exact (stepTriples_clearBits p t _ Session.fresh).symm

theorem bufBit_withBits (u : Session) {l : List Bool} (hl : l.length < 3) {i : Nat} (hi : i < 2) :
    (u.withBits l).bufBit i = l.getD i false := by
  change (decide (i < (BitVec.ofNat 2 l.length).toNat) && (packBits l).getLsbD i) = l.getD i false
  match l, hl with
  | [], _ => revert i; decide
  | [x], _ => revert i x; decide
  | [x, y], _ => revert i x y; decide

theorem padTriple_withBits (p : Params) (t : Table) (u : Session) {l : List Bool} (hne : l ≠ [])
    (hl : l.length < 3) : padTriple p t (u.withBits l) =
      (stepTriple p t (l.getD 0 false) (l.getD 1 false) false u).map (·.withBits []) := by
  have hcnt : (u.withBits l).bitcnt ≠ 0 := by
    have hpos := List.length_pos_iff.mpr hne
    rw [ne_eq, BitVec.toNat_eq]
    change ¬ l.length % 4 = 0
    omega
  rw [padTriple, if_pos hcnt, bufBit_withBits u hl (by decide), bufBit_withBits u hl (by decide), stepTriple_withBits,
    Option.map_map]
  rfl

/-- Padding pending bits is absorbing false up to a complete triple. -/
theorem padTriple_withBits_eq_foldlM (p : Params) (t : Table) (u : Session) : ∀ l : List Bool, l.length < 3 →
    padTriple p t (u.withBits l) =
      (List.replicate ((3 - l.length) % 3) false).foldlM (absorbBit p t) (u.withBits l)
  | [], _ => rfl
  | [x], hl => by
    rw [padTriple_withBits p t u (List.cons_ne_nil x []) hl]
    change _ = (absorbBit p t (u.withBits [x]) false).bind fun v => (absorbBit p t v false).bind some
    rw [absorbBit_short p t u [x] false Nat.one_lt_two, Option.bind_some, Option.bind_fun_some]
    exact (absorbBit_pair p t u x false false).symm
  | [x, y], hl => by
    rw [padTriple_withBits p t u (List.cons_ne_nil x [y]) hl]
    change _ = (absorbBit p t (u.withBits [x, y]) false).bind some
    rw [Option.bind_fun_some, absorbBit_pair]
    rfl

/-- HASH_FINISH's padding absorbs the false bits of the buffer's padding (44_hash_core.md R161, R170). -/
theorem SessionInv.padTriple_eq_foldlM {u : Session} (hu : SessionInv u) (p : Params) (t : Table) : padTriple p t u =
    (List.replicate ((3 - u.bitsAbsorbed % 3) % 3) false).foldlM (absorbBit p t) u := by
  have hmod : u.bitsAbsorbed % 3 = u.pending.length := by
    have hle := hu.bitcnt_le
    rw [length_pending, Session.bitsAbsorbed]
    omega
  have hpad := padTriple_withBits_eq_foldlM p t u u.pending hu.length_pending_lt
  rwa [Session.pending, withBits_pending u hu, ← Session.pending, ← hmod] at hpad

/-- Settles O48: the session absorbs the bits of the padded buffer, whose triples the source runs. -/
theorem sessionComputesSourceHash : Obligations.SessionComputesSourceHash := by
  intro s m u hready hlen _ hu
  obtain ⟨w, hw, hflush⟩ := Option.bind_eq_some_iff.mp hu
  rw [← foldlM_absorbBit_paddedBits, paddedBits, List.foldlM_append, Option.bind_eq_bind, Option.bind_eq_some_iff] at hw
  obtain ⟨v, hv, hpad⟩ := hw
  have hcap : Session.fresh.bitsAbsorbed + 8 * m.length ≤ 930 := by
    change 0 + 8 * m.length ≤ 930
    omega
  obtain ⟨hinv, hbits, -⟩ := absorbBit_foldlM_inv _ _ _ _ v fresh_inv (by rwa [length_flatMap_bitsOfByte]) hv
  have hcount : v.bitsAbsorbed = 8 * m.length := by
    rw [hbits, length_flatMap_bitsOfByte]
    exact Nat.zero_add _
  rw [← hcount, ← hinv.padTriple_eq_foldlM] at hpad
  have hfinish : exec .hashFinish (s.inSession v) = .next { s with session := u, hstate := .done, err := .ok } :=
    exec_hashFinish_of_some (s := s.inSession v) rfl (Option.bind_eq_some_iff.mpr ⟨w, hpad, hflush⟩)
  rw [HostProgram.session, execAll, exec_hashInit_inSession hready, andThen_next, execAll_append,
    execAll_absorbByte_of_some s fresh_inv hcap hv, andThen_next, execAll, hfinish]
  rfl

/-! ### What a session depends on -/

/-- What a session reads and writes (44_hash_core.md R176), in a state whose other registers are at reset. -/
def State.sessionPart (s : State) : State :=
  { State.reset with cfg := s.cfg, table := s.table, tstate := s.tstate, session := s.session, hstate := s.hstate }

/-- A session command reads and writes that part alone. -/
theorem exec_sessionPart {i : Instr} {s t : State} (hi : writesSession i) (h : exec i s = .next t) :
    ∃ t', exec i s.sessionPart = .next t' ∧ t'.sessionPart = t.sessionPart := by
  obtain rfl | ⟨imm8, rfl⟩ | ⟨a, b, c, rfl⟩ | rfl := hi
  · obtain ⟨hne, rfl⟩ | ⟨hready, rfl⟩ := exec_hashInit h
    · exact ⟨_, exec_hashInit_of_not_ready (s := s.sessionPart) hne, rfl⟩
    · exact ⟨_, exec_hashInit_of_ready (s := s.sessionPart) hready, rfl⟩
  · obtain ⟨hne, rfl⟩ | ⟨habsorb, hfull, rfl⟩ | ⟨habsorb, hcap, ⟨hnone, rfl⟩ | ⟨u, hu, rfl⟩⟩ := exec_absorbByte h
    · exact ⟨_, exec_absorbByte_of_not_absorb (s := s.sessionPart) hne, rfl⟩
    · exact ⟨_, exec_absorbByte_of_full (s := s.sessionPart) habsorb hfull, rfl⟩
    · exact ⟨_, exec_absorbByte_of_none (s := s.sessionPart) habsorb hcap hnone, rfl⟩
    · exact ⟨_, exec_absorbByte_of_some (s := s.sessionPart) habsorb hcap hu, rfl⟩
  · obtain ⟨hne, rfl⟩ | ⟨habsorb, hbits, rfl⟩ | ⟨habsorb, hbits, hfull, rfl⟩ |
      ⟨habsorb, hbits, hcap, ⟨hnone, rfl⟩ | ⟨u, hu, rfl⟩⟩ := exec_absorbTriple h
    · exact ⟨_, exec_absorbTriple_of_not_absorb (s := s.sessionPart) hne, rfl⟩
    · exact ⟨_, exec_absorbTriple_of_pending (s := s.sessionPart) habsorb hbits, rfl⟩
    · exact ⟨_, exec_absorbTriple_of_full (s := s.sessionPart) habsorb hbits hfull, rfl⟩
    · exact ⟨_, exec_absorbTriple_of_none (s := s.sessionPart) habsorb hbits hcap hnone, rfl⟩
    · exact ⟨_, exec_absorbTriple_of_some (s := s.sessionPart) habsorb hbits hcap hu, rfl⟩
  · obtain ⟨hne, rfl⟩ | ⟨habsorb, ⟨hnone, rfl⟩ | ⟨u, v, hu, hv, rfl⟩⟩ := exec_hashFinish h
    · exact ⟨_, exec_hashFinish_of_not_absorb (s := s.sessionPart) hne, rfl⟩
    · exact ⟨_, exec_hashFinish_of_none (s := s.sessionPart) habsorb hnone, rfl⟩
    · exact ⟨_, exec_hashFinish_of_some (s := s.sessionPart) habsorb (Option.bind_eq_some_iff.mpr ⟨u, hu, hv⟩), rfl⟩

/-- With a READY table the other commands leave that part alone: BUILD_TABLE is refused (43_generator_table.md R143). -/
theorem exec_keeps_sessionPart {i : Instr} {s t : State} (hi : ¬ writesSession i) (hready : s.tstate = .ready)
    (h : exec i s = .next t) : t.sessionPart = s.sessionPart := by
  obtain ⟨hsession, hhstate⟩ := (exec_session h).resolve_left hi
  obtain ⟨htstate, htable⟩ | ⟨-, hempty⟩ := exec_table h
  · simp only [State.sessionPart, hsession, hhstate, htstate, htable, (exec_frame h).cfg]
  · exact nomatch hempty.symm.trans hready

theorem exec_ready {i : Instr} {s t : State} (hready : s.tstate = .ready) (h : exec i s = .next t) :
    t.tstate = .ready := by
  obtain ⟨htstate, -⟩ | ⟨-, hempty⟩ := exec_table h
  · exact htstate.trans hready
  · exact nomatch hempty.symm.trans hready

theorem ready_congr {s₁ s₂ : State} (hready : s₁.tstate = .ready) (hsame : s₁.sessionPart = s₂.sessionPart) :
    s₂.tstate = .ready :=
  (congrArg State.tstate hsame).symm.trans hready

/-- A command takes READY states that agree on that part to states that agree on it. -/
theorem exec_sessionPart_congr {i : Instr} {s₁ s₂ t₁ t₂ : State} (hready : s₁.tstate = .ready)
    (hsame : s₁.sessionPart = s₂.sessionPart) (h₁ : exec i s₁ = .next t₁) (h₂ : exec i s₂ = .next t₂) :
    t₁.sessionPart = t₂.sessionPart := by
  by_cases hi : writesSession i
  · obtain ⟨u₁, hu₁, hpart₁⟩ := exec_sessionPart hi h₁
    obtain ⟨u₂, hu₂, hpart₂⟩ := exec_sessionPart hi h₂
    rw [hsame, hu₂] at hu₁
    rw [← hpart₁, ← hpart₂, next_inj hu₁]
  · rw [exec_keeps_sessionPart hi hready h₁, exec_keeps_sessionPart hi (ready_congr hready hsame) h₂, hsame]

theorem not_writesSession_of_standalone {i : Instr} (h : standalone i = true) : ¬ writesSession i := by
  rintro (rfl | ⟨imm8, rfl⟩ | ⟨a, b, c, rfl⟩ | rfl) <;> exact nomatch h

/-- Leaving out the standalone commands does not change where the session ends. -/
theorem execAll_filter_sessionPart {is : List Instr} {s₁ s₂ t₁ t₂ : State} (hready : s₁.tstate = .ready)
    (hsame : s₁.sessionPart = s₂.sessionPart) (h₁ : execAll is s₁ = .next t₁)
    (h₂ : execAll (is.filter fun i => !standalone i) s₂ = .next t₂) : t₁.sessionPart = t₂.sessionPart := by
  induction is generalizing s₁ s₂ with
  | nil =>
    obtain rfl := next_inj h₁
    obtain rfl := next_inj h₂
    exact hsame
  | cons i is ih =>
    obtain ⟨u₁, hu₁, h₁⟩ := andThen_eq_next h₁
    have hready' := exec_ready hready hu₁
    cases hi : standalone i with
    | true =>
      rw [List.filter_cons_of_neg (by simp [hi])] at h₂
      have hkeep := exec_keeps_sessionPart (not_writesSession_of_standalone hi) hready hu₁
      exact ih hready' (hkeep.trans hsame) h₁ h₂
    | false =>
      rw [List.filter_cons_of_pos (by simp [hi])] at h₂
      obtain ⟨u₂, hu₂, h₂⟩ := andThen_eq_next h₂
      exact ih hready' (exec_sessionPart_congr hready hsame hu₁ hu₂) h₁ h₂

/-- Commands from a HASH_INIT on, none of them standalone, end in the same session whatever the state before them. -/
theorem execAll_hashInit_sessionPart {cs : List Instr} {s₁ s₂ t₁ t₂ : State} (hcfg : s₁.cfg = s₂.cfg)
    (htable : s₁.table = s₂.table) (hready₁ : s₁.tstate = .ready) (hready₂ : s₂.tstate = .ready)
    (hcs : ∀ i ∈ cs, standalone i = false) (h₁ : execAll (.hashInit :: cs) s₁ = .next t₁)
    (h₂ : execAll (.hashInit :: cs) s₂ = .next t₂) : t₁.sessionPart = t₂.sessionPart := by
  obtain ⟨u₁, hu₁, h₁⟩ := andThen_eq_next h₁
  obtain ⟨u₂, hu₂, h₂⟩ := andThen_eq_next h₂
  obtain rfl := next_inj ((exec_hashInit_inSession hready₁).symm.trans hu₁)
  obtain rfl := next_inj ((exec_hashInit_inSession hready₂).symm.trans hu₂)
  have hfresh : (s₁.inSession Session.fresh).sessionPart = (s₂.inSession Session.fresh).sessionPart := by
    simp only [State.sessionPart, State.inSession, complete, hcfg, htable, hready₁, hready₂]
  have hfilter : cs.filter (fun i => !standalone i) = cs := List.filter_eq_self.mpr fun i hi => by simp [hcs i hi]
  exact execAll_filter_sessionPart (exec_ready hready₁ hu₁) hfresh h₁ (hfilter.symm ▸ h₂)

/-- Settles O49: each run ends in the session of its commands without the standalone ones, which both runs share. -/
theorem sessionDependsOnInputAlone : Obligations.SessionDependsOnInputAlone := by
  intro s₁ s₂ t₁ t₂ is₁ is₂ cs hcfg htable hready₁ hready₂ hf₁ hf₂ h₁ h₂
  obtain ⟨v₁, hv₁⟩ := HostProgram.exists_execAll_next (.hashInit :: cs) s₁
  obtain ⟨v₂, hv₂⟩ := HostProgram.exists_execAll_next (.hashInit :: cs) s₂
  have hcs (i : Instr) (hi : i ∈ cs) : standalone i = false := by
    have hmem : i ∈ is₁.filter fun i => !standalone i := hf₁ ▸ List.mem_cons_of_mem _ hi
    simpa using List.of_mem_filter hmem
  have hsame : t₁.sessionPart = t₂.sessionPart :=
    calc t₁.sessionPart = v₁.sessionPart := execAll_filter_sessionPart hready₁ rfl h₁ (hf₁ ▸ hv₁)
      _ = v₂.sessionPart := execAll_hashInit_sessionPart hcfg htable hready₁ hready₂ hcs hv₁ hv₂
      _ = t₂.sessionPart := (execAll_filter_sessionPart hready₂ rfl h₂ (hf₂ ▸ hv₂)).symm
  have hsession : t₁.sessionPart.session = t₂.sessionPart.session := by rw [hsame]
  have hhstate : t₁.sessionPart.hstate = t₂.sessionPart.hstate := by rw [hsame]
  exact ⟨hsession, hhstate⟩

end Sys2Proof.Machine
end

section
/-! PROOFS. Control: the completion of a pending command, ILLEGAL words and NOP (45_control.md R200 to R202). -/

namespace Sys2Proof.Machine

open Sys2Proof Config

/-! ### A command in flight completes -/

/-- What happens outside the engine does not consume the inputs still to come. -/
theorem inputs_of_perform {i : Input} {s t : State} (h : perform i s = .next t) : t.inputs = s.inputs := by
  have hsame : ({ t with inputs := s.inputs } : State) = t := next_inj (h.symm.trans (perform_inputs s.inputs h))
  exact (congrArg State.inputs hsame).symm

theorem step_of_inputs_cons {s : State} {i : Input} {is : List Input} (h : s.inputs = i :: is) :
    step s = perform i s.rest := by
  rw [step, State.rest, h]
  rfl

/-- After the engine's turn no command is in flight, in reset or not (45_control.md R201). -/
theorem busy_of_engineTurn {s t : State} (h : engineTurn s = .next t) : t.busy = false := by
  obtain ⟨-, rfl⟩ | ⟨-, hbusy, rfl⟩ | ⟨-, -, hcompletion⟩ := engineTurn_next h
  · rfl
  · exact hbusy
  · exact (completion_frame hcompletion).1

/-- A run of one step more than there are inputs ends with the engine's turn. -/
theorem busy_of_run_past_inputs {is : List Input} {s t : State} (hin : s.inputs = is)
    (h : Host.Core.run Sys2Proof.core (is.length + 1) s = .next t) : t.busy = false := by
  induction is generalizing s with
  | nil =>
    obtain ⟨r, hstep, hrun⟩ := run_succ_next Sys2Proof.core h
    obtain rfl := run_zero_next Sys2Proof.core hrun
    have hturn : step s = engineTurn s := by rw [step, hin]
    exact busy_of_engineTurn (hturn.symm.trans hstep)
  | cons i is ih =>
    obtain ⟨r, hstep, hrun⟩ := run_succ_next Sys2Proof.core h
    have hr : r.inputs = s.rest.inputs := inputs_of_perform ((step_of_inputs_cons hin).symm.trans hstep)
    exact ih (by rw [hr, rest_inputs, hin, List.tail_cons]) hrun

/-- Settles O9: each step takes one input, and past the last one the engine has its turn. -/
theorem pendingCommandCompletes : Obligations.PendingCommandCompletes := fun _ _ => busy_of_run_past_inputs rfl

/-! ### The pending word at the engine's turn -/

theorem wordOfTable_toNat (w : Word) : wordOfTable 32 w.toNat = w := by
  rw [wordOfTable, Nat.mod_eq_of_lt w.isLt, BitVec.ofNat_toNat, BitVec.setWidth_eq]

theorem engineMoves_withFetchWord (s : State) (nbits w : Nat) : (s.withFetchWord nbits w).engineMoves :=
  ⟨rfl, .inr rfl⟩

theorem rest_withFetchWord (s : State) (nbits w : Nat) : (s.withFetchWord nbits w).rest =
    { s with pending := wordOfTable nbits w, busy := true, rst := false } := rfl

/-- Settles O6: the engine's turn is the completion of the pending word, and `withFetchWord` makes `w` that word. -/
theorem stepRunsDecodedCommand : Obligations.StepRunsDecodedCommand := by
  refine ⟨fun s i => step_of_decode_ok, fun s w i hd => ?_⟩
  have hpending : (s.withFetchWord 32 w.toNat).pending = w := wordOfTable_toNat w
  rw [step_of_decode_ok (engineMoves_withFetchWord s 32 w.toNat) rfl (hpending.symm ▸ hd), rest_withFetchWord,
    wordOfTable_toNat]

/-- Settles O7: the completion of an ILLEGAL word leaves BUSY = 0, and with BUSY = 0 the CMD slot takes a write. -/
theorem illegalWordCompletes : Obligations.IllegalWordCompletes := by
  intro s e hmoves hbusy hd
  refine ⟨step_of_decode_error hmoves hbusy hd, fun v => ?_⟩
  let t : State := { s.rest with err := .illegalCmd, busy := false }
  have hwrite : hostAccess (.write (t.cfg.base + 0x004) 4 v) t = .next (t.writeSlot v .cmd) :=
    hostAccess_write t v rfl (by decide)
  exact hwrite.trans (congrArg _ (writeSlot_cmd_idle (s := t) rfl v))

/-! ### NOP -/

/-- A word of NOP's opcode other than 0 has a reserved bit set (30_encoding.md R87). -/
theorem decode_of_nop_opcode {w : Word} (hop : w.toNat % 256 = 0) (hw : w ≠ 0) : decode w = .error .reservedBit := by
  refine decode_of_reservedBit (r := .nop) hop fun hres => ?_
  have hnop : decode w = .ok .nop := decode_of_fits ((Row.fits_iff .nop w).mpr ⟨hop, hres⟩)
  exact hw ((reservedOpcodesAreIllegal.2 w).mp hnop)

/-- Settles O22: NOP's word is 0 alone, so the other words of its opcode complete as ILLEGAL ones. -/
theorem nopReportsSuccess : Obligations.NopReportsSuccess := by
  refine ⟨decode_encode (i := .nop) rfl, fun _ => rfl, fun w hop hw => ?_⟩
  have hd := decode_of_nop_opcode hop hw
  exact ⟨⟨_, hd⟩, fun s hmoves hbusy hp => step_of_decode_error hmoves hbusy (hp ▸ hd)⟩

end Sys2Proof.Machine
end

section
/-! PROOFS. Reset and hazards: the parameters, the window around a reset, and hosts that wait (70_reset_and_hazards.md R240
to R242, R250 to R253). -/

namespace Sys2Proof.Machine

open Sys2Proof Config

/-! ### The parameters -/

theorem engineTurn_cfg {s t : State} (h : engineTurn s = .next t) : t.cfg = s.cfg := by
  obtain ⟨-, rfl⟩ | ⟨-, -, rfl⟩ | ⟨-, -, hcompletion⟩ := engineTurn_next h
  · rfl
  · rfl
  · obtain ⟨-, -, hcfg, -⟩ := completion_frame hcompletion
    exact hcfg

theorem writeSlot_cfg (s : State) (v : Word) (sl : Slot) : (s.writeSlot v sl).cfg = s.cfg := by
  obtain h | ⟨-, h⟩ | ⟨-, -, h⟩ | ⟨-, h⟩ | ⟨r, k, -, -, -, h⟩ := writeSlot_cases s v sl <;> rw [h]
  case inr.inr.inr.inr => rw [writeData_frame]
  all_goals rfl

theorem hostAccess_cfg {a : Access} {s t : State} (h : hostAccess a s = .next t) : t.cfg = s.cfg := by
  obtain ⟨addr, size, -, rfl⟩ | ⟨addr, size, v, -, rfl⟩ := hostAccess_next h
  · rfl
  · exact writeSlot_cfg s v _

/-- Settles O21: a turn of the engine, an edge of RST and a host access each keep them. -/
theorem parametersNeverChange : Obligations.ParametersNeverChange := by
  intro s t h
  obtain ⟨hturn, -⟩ | ⟨b, -, rfl⟩ | ⟨a, -, -, haccess⟩ := step_next h
  · exact (engineTurn_cfg hturn).trans (rest_cfg s)
  · rfl
  · exact (hostAccess_cfg haccess).trans (rest_cfg s)

/-! ### The window around a reset -/

theorem rest_of_inputs_cons {s : State} {i : Input} {is : List Input} (h : s.inputs = i :: is) :
    s.rest = { s with inputs := is } := by
  rw [State.rest, h, List.tail_cons]

/-- Settles O20: after the release of RST the access comes next, and RST is not asserted. -/
theorem windowSilentInReset : Obligations.WindowSilentInReset := by
  refine ⟨fun s a hrst hin => ?_, fun s a is hin => ⟨s.rest.toReset false, step_of_reset hin, ?_⟩⟩
  · obtain ⟨is, his⟩ := List.head?_eq_some_iff.mp hin
    rw [step_of_inputs_cons his]
    exact if_pos hrst
  · have hnext : (s.rest.toReset false).inputs = .access a :: is := congrArg List.tail hin
    rw [step_of_hostMoves ⟨rfl, congrArg List.head? hnext⟩, rest_of_inputs_cons hnext]

/-! ### What sets OVR and BUSY -/

/-- No command writes OVR (10_state.md R22). -/
theorem completion_ovr {s t : State} (h : completion s = .next t) : t.ovr = s.ovr := by
  obtain ⟨i, u, -, he, rfl⟩ | ⟨e, -, rfl⟩ := completion_next h
  · exact (exec_frame he).ovr
  · rfl

theorem engineTurn_ovr {s t : State} (hovr : s.ovr = false) (h : engineTurn s = .next t) : t.ovr = false := by
  obtain ⟨-, rfl⟩ | ⟨-, -, rfl⟩ | ⟨-, -, hcompletion⟩ := engineTurn_next h
  · rfl
  · exact hovr
  · exact (completion_ovr hcompletion).trans hovr

theorem writeData_ovr (s : State) (k : Nat) (v : Word) (r : DataReg) : (s.writeData k v r).ovr = s.ovr := by
  rw [writeData_frame]

theorem writeData_busy (s : State) (k : Nat) (v : Word) (r : DataReg) : (s.writeData k v r).busy = s.busy := by
  rw [writeData_frame]

/-- A write of CMD leaves BUSY = 1, whether it is accepted or dropped, and no other write touches BUSY (30_encoding.md R80,
20_memory.md R63). -/
theorem writeSlot_busy (s : State) (v : Word) (sl : Slot) : (s.writeSlot v sl).busy = (s.busy || sl == .cmd) := by
  cases sl with
  | cmd => cases hbusy : s.busy <;> simp [State.writeSlot, hbusy]
  | status => simp [writeSlot_status]
  | word r k => by_cases hdrop : r.isOperand ∧ s.busy <;> simp [State.writeSlot, hdrop, writeData_busy]
  | id | hstat | reserved => exact (Bool.or_false s.busy).symm

theorem hostAccess_busy {a : Access} {s t : State} (h : hostAccess a s = .next t) :
    t.busy = (s.busy || issues s.cfg.base a) := by
  obtain ⟨addr, size, rfl, rfl⟩ | ⟨addr, size, v, rfl, rfl⟩ := hostAccess_next h
  · exact (Bool.or_false s.busy).symm
  · exact writeSlot_busy s v _

/-- With BUSY = 0 no write is dropped, so none sets OVR (20_memory.md R63). -/
theorem writeSlot_ovr_of_idle {s : State} (hovr : s.ovr = false) (hbusy : s.busy = false) (v : Word) (sl : Slot) :
    (s.writeSlot v sl).ovr = false := by
  obtain h | ⟨hbusy', -⟩ | ⟨-, -, h⟩ | ⟨-, h⟩ | ⟨r, k, -, -, -, h⟩ := writeSlot_cases s v sl
  · rwa [h]
  · exact absurd (hbusy.symm.trans hbusy') Bool.false_ne_true
  · rwa [h]
  · rw [h]
  · rwa [h, writeData_ovr]

/-- Writes of slots other than CMD and the operand words never set OVR (20_memory.md R63). -/
theorem writeSlot_ovr_of_not_needsIdle {base addr size : Nat} {s : State} {v : Word} (hovr : s.ovr = false)
    (hidle : needsIdle base (.write addr size v) = false) : (s.writeSlot v (slotAt (addr - base))).ovr = false := by
  rw [needsIdle] at hidle
  generalize slotAt (addr - base) = sl at hidle ⊢
  cases sl with
  | cmd => exact nomatch hidle
  | status => simp [writeSlot_status, hovr]
  | word r k => rwa [writeSlot_readOnly hidle]
  | id | hstat | reserved => exact hovr

theorem hostAccess_ovr {a : Access} {s t : State} (hovr : s.ovr = false)
    (hwait : needsIdle s.cfg.base a = false ∨ s.busy = false) (h : hostAccess a s = .next t) : t.ovr = false := by
  obtain ⟨addr, size, rfl, rfl⟩ | ⟨addr, size, v, rfl, rfl⟩ := hostAccess_next h
  · exact hovr
  · obtain hidle | hbusy := hwait
    · exact writeSlot_ovr_of_not_needsIdle hovr hidle
    · exact writeSlot_ovr_of_idle hovr hbusy v _

/-! ### Hosts that wait -/

/-- The invariant of a waiting host's run: OVR is 0, and the inputs to come wait, from BUSY on. -/
structure State.Waiting (s : State) : Prop where
  ovr : s.ovr = false
  waits : waits s.cfg.base s.busy s.inputs = true

theorem waits_access_iff {base : Nat} {busy : Bool} {a : Access} {is : List Input} :
    waits base busy (.access a :: is) = true ↔
      (needsIdle base a = false ∨ busy = false) ∧ waits base (busy || issues base a) is = true := by
  rw [waits, Bool.and_eq_true, Bool.not_eq_true', Bool.and_eq_false_iff]

/-- What happens outside the engine keeps OVR 0 and leaves BUSY as the rest of a waiting host's inputs expects it. -/
theorem perform_waiting {i : Input} {is : List Input} {s t : State} (hovr : s.ovr = false)
    (hwaits : waits s.cfg.base s.busy (i :: is) = true) (h : perform i s = .next t) :
    t.ovr = false ∧ waits s.cfg.base t.busy is = true := by
  cases i with
  | engine => exact ⟨engineTurn_ovr hovr h, by rwa [busy_of_engineTurn h]⟩
  | reset b =>
    obtain rfl := next_inj h
    exact ⟨rfl, hwaits⟩
  | access a =>
    obtain ⟨hwait, hlater⟩ := waits_access_iff.mp hwaits
    rw [perform] at h
    split_ifs at h
    exact ⟨hostAccess_ovr hovr hwait h, by rwa [hostAccess_busy h]⟩

theorem State.Waiting.step {s t : State} (hs : s.Waiting) (h : step s = .next t) : t.Waiting := by
  have hcfg := parametersNeverChange s t h
  cases hin : s.inputs with
  | nil =>
    rw [Machine.step, hin] at h
    have hturn : perform .engine s = .next t := h
    exact ⟨engineTurn_ovr hs.ovr hturn, by rw [inputs_of_perform hturn, hin, Machine.waits]⟩
  | cons i is =>
    rw [step_of_inputs_cons hin] at h
    obtain ⟨hovr, hwaits⟩ := perform_waiting (s := s.rest) hs.ovr (hin ▸ hs.waits) h
    have htin : t.inputs = is := by rw [inputs_of_perform h, rest_inputs, hin, List.tail_cons]
    exact ⟨hovr, by rwa [hcfg, htin]⟩

theorem State.Waiting.run {k : Nat} {s t : State} (hs : s.Waiting)
    (h : Host.Core.run Sys2Proof.core k s = .next t) : t.Waiting := by
  induction k generalizing s with
  | zero =>
    obtain rfl := run_zero_next Sys2Proof.core h
    exact hs
  | succ k ih =>
    obtain ⟨r, hstep, hrun⟩ := run_succ_next Sys2Proof.core h
    exact ih (hs.step hstep) hrun

/-- Settles O58: every step of the run keeps the host waiting. -/
theorem waitingHostNeverSetsOvr : Obligations.WaitingHostNeverSetsOvr := by
  intro s t k hovr hwaits hrun
  have hs : s.Waiting := ⟨hovr, hwaits⟩
  exact (hs.run hrun).ovr

end Sys2Proof.Machine
end

section
/-! PROOFS. The engine on the curve: under D_NONSQUARE every addition a command makes has a sum, and the points stay on the
curve (42_point_adder.md R123, 60_exceptions.md R211). -/

namespace Sys2Proof.Machine

open Sys2Proof Config

/-! ### The additions of the table commands and of a session -/

/-- A fold whose every step answers and keeps `Q` answers, and keeps `Q`. -/
theorem exists_foldlM_of_step {α β : Type} {f : β → α → Option β} {Q : β → Prop} {l : List α} {b : β} (hb : Q b)
    (hstep : ∀ a ∈ l, ∀ b, Q b → ∃ b', f b a = some b' ∧ Q b') : ∃ b', l.foldlM f b = some b' ∧ Q b' := by
  induction l generalizing b with
  | nil => exact ⟨b, rfl, hb⟩
  | cons a l ih =>
    obtain ⟨b₁, hb₁, hQ₁⟩ := hstep a List.mem_cons_self b hb
    obtain ⟨b₂, hb₂, hQ₂⟩ := ih hQ₁ fun a ha => hstep a (List.mem_cons_of_mem _ ha)
    exact ⟨b₂, Option.bind_eq_some_iff.mpr ⟨b₁, hb₁, hb₂⟩, hQ₂⟩

/-- The running result, or the digest, is a canonical point on the curve. -/
def Session.resultOnCurve (p : Params) (u : Session) : Prop :=
  canonical u.hres = true ∧ onCurve p u.hres.x u.hres.y = true

theorem hres_setHres (u : Session) {a : Point} (ha : canonical a = true) : (u.setHres a).hres = a := by
  obtain ⟨hx, hy⟩ := (canonical_iff a).mp ha
  have hP : P < 2 ^ 256 := by decide
  simp only [Session.hres, setHres_hresX, setHres_hresY, BitVec.toNat_ofNat]
  rw [Nat.mod_eq_of_lt (hx.trans hP), Nat.mod_eq_of_lt (hy.trans hP)]

/-- There is a row of the table for a chunk that is not the last: after 310 triples every chunk is flushed (10_state.md
R41). -/
theorem SessionInv.genIdx_lt {u : Session} (hu : SessionInv u) (hcap : u.triples.toNat < 310) : u.genIdx.toNat < 5 := by
  have htriples := hu.triples_eq
  omega

section OnCurve

variable {p : Params} {t : Table} (hD : p.DNonsquare) (ht : validGenerators p = true ∧ buildTable p = some t)

include hD ht

theorem tableRead_onCurve {g w v : Nat} (hg : g < 5) (hw : w < 32) (hv : v < 256) :
    onCurve p (tableRead t g w v).x (tableRead t g w v).y = true := by
  obtain ⟨hvalid, hbuild⟩ := ht
  obtain ⟨t', ht', hcurve⟩ := exists_buildTable_onCurve hD hvalid
  obtain rfl : t = t' := Option.some.inj (hbuild.symm.trans ht')
  obtain ⟨e, he, -⟩ := exists_entry_of_tableWf (buildTable_wf _ _ hbuild) hg hw hv
  rw [tableRead_of_entry _ _ _ _ _ he]
  exact hcurve _ _ _ _ he

/-- The 32 lookups of a scalar have a sum (44_hash_core.md R172). -/
theorem exists_fsToPoint_onCurve (x : Int) {g : Nat} (hg : g < 5) :
    ∃ pt, fsToPoint p t x g = some pt ∧ onCurve p pt.x pt.y = true := by
  refine exists_foldlM_of_step (l := List.range numWindows) (b := idPt)
    (f := fun pt w => pointAdd p pt (tableRead t g w (windowByte (wrapFs p x) w)))
    (Q := fun pt => onCurve p pt.x pt.y = true) (idPt_onCurve p) fun w hw pt hpt => ?_
  have hbyte : windowByte (wrapFs p x) w < 256 := Nat.mod_lt _ (by decide)
  exact exists_pointAdd_onCurve hD hpt (tableRead_onCurve hD ht hg (List.mem_range.mp hw) hbyte)

theorem exists_flush_onCurve {u : Session} (hg : u.genIdx.toNat < 5) (hu : u.resultOnCurve p) :
    ∃ v, flush p t u = some v ∧ v.resultOnCurve p := by
  obtain ⟨pt, hpt, hptCurve⟩ := exists_fsToPoint_onCurve hD ht u.acc.toInt hg
  obtain ⟨h, hadd, hcurve⟩ := exists_pointAdd_onCurve hD hu.2 hptCurve
  refine ⟨_, (flush_eq_some _ _ _ _).mpr ⟨pt, h, hpt, hadd, rfl⟩, ?_⟩
  have hcan := pointAdd_canonical _ _ _ _ hadd
  change canonical (u.setHres h).hres = true ∧ onCurve p (u.setHres h).hres.x (u.setHres h).hres.y = true
  rw [hres_setHres u hcan]
  exact ⟨hcan, hcurve⟩

theorem exists_stepTriple_onCurve (a b c : Bool) {u : Session} (hu : SessionInv u) (hcap : u.triples.toNat < 310)
    (hcurve : u.resultOnCurve p) : ∃ v, stepTriple p t a b c u = some v ∧ v.resultOnCurve p := by
  by_cases hrem : u.rem.toNat = 1
  · rw [stepTriple_of_last p t a b c hrem]
    exact exists_flush_onCurve (u := u.addTriple a b c) hD ht (hu.genIdx_lt hcap) hcurve
  · exact ⟨_, stepTriple_of_open p t a b c hrem, hcurve⟩

theorem exists_absorbBit_onCurve (b : Bool) {u : Session} (hu : SessionInv u) (hcap : u.bitsAbsorbed < 930)
    (hcurve : u.resultOnCurve p) : ∃ v, absorbBit p t u b = some v ∧ v.resultOnCurve p := by
  rw [absorbBit]
  split_ifs with htwo
  · have htriples : u.triples.toNat < 310 := by
      have htwo' : u.bitcnt.toNat = 2 := by rw [htwo]; rfl
      rw [Session.bitsAbsorbed] at hcap
      omega
    obtain ⟨v, hv, hvCurve⟩ := exists_stepTriple_onCurve hD ht (u.bufBit 0) (u.bufBit 1) b hu htriples hcurve
    exact ⟨v.clearBits, by rw [hv, Option.map_some], hvCurve⟩
  · exact ⟨u.pushBit b, rfl, hcurve⟩

/-- A run of bits within the capacity meets no NoInverse (44_hash_core.md R164, R167). -/
theorem exists_foldlM_absorbBit_onCurve (bs : List Bool) {u : Session} (hu : SessionInv u)
    (hcap : u.bitsAbsorbed + bs.length ≤ 930) (hcurve : u.resultOnCurve p) :
    ∃ v, bs.foldlM (absorbBit p t) u = some v ∧ v.resultOnCurve p := by
  induction bs generalizing u with
  | nil => exact ⟨u, rfl, hcurve⟩
  | cons b bs ih =>
    rw [List.length_cons] at hcap
    obtain ⟨w, hw, hwCurve⟩ := exists_absorbBit_onCurve hD ht b hu (by omega) hcurve
    obtain ⟨hwInv, hwBits, -⟩ := absorbBit_inv p t b u w hu (by omega) hw
    obtain ⟨v, hv, hvCurve⟩ := ih hwInv (by omega) hwCurve
    exact ⟨v, Option.bind_eq_some_iff.mpr ⟨w, hw, hv⟩, hvCurve⟩

theorem exists_absorbBits_onCurve (imm8 : Nat) {u : Session} (hu : SessionInv u) (hcap : u.bitsAbsorbed + 8 ≤ 930)
    (hcurve : u.resultOnCurve p) : ∃ v, absorbBits p t imm8 u = some v ∧ v.resultOnCurve p :=
  exists_foldlM_absorbBit_onCurve hD ht (bitsOfByte imm8) hu (by rwa [bitsOfByte_length]) hcurve

theorem exists_padTriple_onCurve {u : Session} (hu : SessionInv u) (hcurve : u.resultOnCurve p) :
    ∃ v, padTriple p t u = some v ∧ v.resultOnCurve p := by
  rw [padTriple]
  split_ifs with hbits
  · have htriples : u.triples.toNat < 310 := by
      have hle := hu.bits_le
      have hpos : u.bitcnt.toNat ≠ 0 := fun h => hbits (BitVec.eq_of_toNat_eq h)
      rw [Session.bitsAbsorbed] at hle
      omega
    obtain ⟨v, hv, hvCurve⟩ := exists_stepTriple_onCurve hD ht (u.bufBit 0) (u.bufBit 1) false hu htriples hcurve
    exact ⟨v.clearBits, by rw [hv, Option.map_some], hvCurve⟩
  · exact ⟨u, rfl, hcurve⟩

theorem exists_finalFlush_onCurve {u : Session} (hu : SessionInv u) (hcurve : u.resultOnCurve p) :
    ∃ v, finalFlush p t u = some v ∧ v.resultOnCurve p := by
  rw [finalFlush_eq]
  split_ifs with hrem
  · exact ⟨u, rfl, hcurve⟩
  · have hg : u.genIdx.toNat < 5 := by
      have hle := hu.bits_le
      have htriples := hu.triples_eq
      have hrange := hu.rem_range
      rw [Session.bitsAbsorbed] at hle
      omega
    exact exists_flush_onCurve hD ht hg hcurve

/-- HASH_FINISH meets no NoInverse (44_hash_core.md R170, R171). -/
theorem exists_finish_onCurve {u : Session} (hu : SessionInv u) (hcurve : u.resultOnCurve p) :
    ∃ v, (padTriple p t u).bind (finalFlush p t) = some v ∧ v.resultOnCurve p := by
  obtain ⟨v, hv, hvCurve⟩ := exists_padTriple_onCurve hD ht hu hcurve
  obtain ⟨hvInv, -⟩ := padTriple_inv p t u v hu hv
  rw [hv, Option.bind_some]
  exact exists_finalFlush_onCurve hD ht hvInv hvCurve

end OnCurve

/-! ### What a command may do to a state on the curve -/

section Changes

variable {s : State} (hs : s.CurveInv)

include hs

/-- A command that leaves the table and the session alone keeps the points on the curve. -/
theorem State.CurveInv.of_untouched {t : State} (hsession : t.session = s.session) (hhstate : t.hstate = s.hstate)
    (htstate : t.tstate = s.tstate) (htable : t.table = s.table) (hcfg : t.cfg = s.cfg) : t.CurveInv := by
  obtain ⟨nonsquare, table, ready, result, session⟩ := hs
  rw [← hcfg] at nonsquare
  rw [← htstate, ← hcfg, ← htable] at table
  rw [← hhstate, ← htstate] at ready
  rw [← hhstate, ← hsession, ← hcfg] at result
  rw [← hhstate, ← hsession] at session
  exact ⟨nonsquare, table, ready, result, session⟩

theorem State.CurveInv.raise {c : Code} (hc : c ≠ .noInverse) : (raise c s).CurveInv ∧ (raise c s).err ≠ .noInverse :=
  ⟨hs.of_untouched rfl rfl rfl rfl rfl, hc⟩

theorem State.CurveInv.complete : (complete s).CurveInv ∧ (complete s).err ≠ .noInverse :=
  ⟨hs.of_untouched rfl rfl rfl rfl rfl, nofun⟩

theorem State.CurveInv.setResult (a : Point) : (s.setResult a).CurveInv := hs.of_untouched rfl rfl rfl rfl rfl

/-- With an EMPTY table no session runs, so BUILD_TABLE may write any table in a state other than READY, and the built one
(43_generator_table.md R143). -/
theorem State.CurveInv.withTable {tab : Table} {x : TState} {n : Nat} (hempty : s.tstate = .empty)
    (hbuilt : x = .ready → validGenerators s.cfg = true ∧ buildTable s.cfg = some tab) :
    State.CurveInv { s with tstate := x, table := tab, freeCount := n } where
  nonsquare := hs.nonsquare
  table := hbuilt
  ready habsorb := nomatch hempty.symm.trans (hs.ready habsorb)
  result := hs.result
  session := hs.session

/-- A session that runs on with a READY table. -/
theorem State.CurveInv.withRunning {u : Session} (hready : s.tstate = .ready) (hu : SessionInv u)
    (hcurve : u.resultOnCurve s.cfg) : State.CurveInv { s with session := u, hstate := .absorb } :=
  ⟨hs.nonsquare, hs.table, fun _ => hready, fun _ => hcurve, fun _ => hu⟩

/-- A running session whose registers a command replaces. -/
theorem State.CurveInv.withSession {u : Session} (habsorb : s.hstate = .absorb) (hu : SessionInv u)
    (hcurve : u.resultOnCurve s.cfg) : State.CurveInv { s with session := u } := by
  have h := hs.withRunning (hs.ready habsorb) hu hcurve
  rwa [← habsorb] at h

theorem State.CurveInv.withDigest {v : Session} (hcurve : v.resultOnCurve s.cfg) :
    State.CurveInv { s with session := v, hstate := .done } :=
  ⟨hs.nonsquare, hs.table, nofun, fun _ => hcurve, nofun⟩

theorem State.CurveInv.failSession {c : Code} (hc : c ≠ .noInverse) :
    (failSession c s).CurveInv ∧ (failSession c s).err ≠ .noInverse :=
  ⟨⟨hs.nonsquare, hs.table, nofun, fun h => by simp at h, nofun⟩, hc⟩

/-- The table of a running session. -/
theorem State.CurveInv.sessionTable (habsorb : s.hstate = .absorb) :
    validGenerators s.cfg = true ∧ buildTable s.cfg = some s.table := hs.table (hs.ready habsorb)

theorem State.CurveInv.resultOnCurve (habsorb : s.hstate = .absorb) : s.session.resultOnCurve s.cfg :=
  hs.result (.inl habsorb)

end Changes

/-! ### Every command -/

theorem not_none_of_exists {α : Type} {o : Option α} {Q : α → Prop} (h : ∃ a, o = some a ∧ Q a) : o ≠ none := by
  obtain ⟨a, rfl, -⟩ := h
  exact Option.some_ne_none a

/-- Settles O50: where a command would meet NoInverse the additions have sums, and their sums are on the curve. -/
theorem noInverseNeverOccursOnCurve : Obligations.NoInverseNeverOccursOnCurve := by
  intro i s t hs h
  have hD := hs.nonsquare
  cases i with
  | nop =>
    obtain rfl := exec_nop h
    exact hs.complete
  | wrap signed =>
    obtain rfl := exec_wrap h
    exact ⟨hs.of_untouched rfl rfl rfl rfl rfl, nofun⟩
  | padd =>
    obtain ⟨-, rfl⟩ | ⟨-, ⟨-, rfl⟩ | ⟨ha, hb, ⟨hnone, -⟩ | ⟨r, -, rfl⟩⟩⟩ := exec_padd h
    · exact hs.raise nofun
    · exact hs.raise nofun
    · exact absurd hnone (not_none_of_exists (exists_pointAdd_onCurve hD ha hb))
    · exact (hs.setResult r).complete
  | buildTable =>
    obtain ⟨-, rfl⟩ | ⟨hempty, ⟨-, rfl⟩ | ⟨hvalid, ⟨hnone, -⟩ | ⟨tab, hbuild, rfl⟩⟩⟩ := exec_buildTable h
    · exact hs.raise nofun
    · exact (hs.withTable (x := .broken) hempty nofun).raise nofun
    · exact absurd hnone (not_none_of_exists (exists_buildTable_onCurve hD hvalid))
    · exact (hs.withTable hempty fun _ => ⟨hvalid, hbuild⟩).complete
  | tblRead g w v =>
    obtain ⟨-, rfl⟩ | ⟨-, -, rfl⟩ | ⟨-, -, rfl⟩ := exec_tblRead h
    · exact hs.raise nofun
    · exact hs.raise nofun
    · exact (hs.setResult _).complete
  | fsToPoint signed g =>
    obtain ⟨-, rfl⟩ | ⟨-, -, rfl⟩ | ⟨hready, hg, ⟨hnone, -⟩ | ⟨r, -, rfl⟩⟩ := exec_fsToPoint h
    · exact hs.raise nofun
    · exact hs.raise nofun
    · have hsum := exists_fsToPoint_onCurve hD (hs.table hready) (scalarOperand signed s.opaX) (Nat.lt_succ_of_le hg)
      exact absurd hnone (not_none_of_exists hsum)
    · exact (hs.setResult r).complete
  | hashInit =>
    obtain ⟨-, rfl⟩ | ⟨hready, rfl⟩ := exec_hashInit h
    · exact hs.raise nofun
    · exact (hs.withRunning hready fresh_inv ⟨by decide, idPt_onCurve s.cfg⟩).complete
  | absorbByte imm8 =>
    obtain ⟨-, rfl⟩ | ⟨-, -, rfl⟩ | ⟨habsorb, hcap, hrun⟩ := exec_absorbByte h
    · exact hs.raise nofun
    · exact hs.failSession nofun
    have hinv := hs.session habsorb
    obtain ⟨v, hv, hcurve⟩ :=
      exists_absorbBits_onCurve hD (hs.sessionTable habsorb) imm8 hinv hcap (hs.resultOnCurve habsorb)
    obtain ⟨hnone, -⟩ | ⟨u, hu, rfl⟩ := hrun
    · exact nomatch hnone.symm.trans hv
    · obtain rfl : u = v := Option.some.inj (hu.symm.trans hv)
      obtain ⟨huInv, -⟩ := absorbBits_inv _ _ _ _ _ hinv hcap hu
      exact (hs.withSession habsorb huInv hcurve).complete
  | absorbTriple a b c =>
    obtain ⟨-, rfl⟩ | ⟨-, -, rfl⟩ | ⟨-, -, -, rfl⟩ | ⟨habsorb, hbits, hcap, hrun⟩ := exec_absorbTriple h
    · exact hs.raise nofun
    · exact hs.raise nofun
    · exact hs.failSession nofun
    have hinv := hs.session habsorb
    obtain ⟨v, hv, hcurve⟩ :=
      exists_stepTriple_onCurve hD (hs.sessionTable habsorb) a b c hinv hcap (hs.resultOnCurve habsorb)
    obtain ⟨hnone, -⟩ | ⟨u, hu, rfl⟩ := hrun
    · exact nomatch hnone.symm.trans hv
    · obtain rfl : u = v := Option.some.inj (hu.symm.trans hv)
      exact (hs.withSession habsorb (stepTriple_inv_aligned hinv hbits hcap hu) hcurve).complete
  | hashFinish =>
    obtain ⟨-, rfl⟩ | ⟨habsorb, hrun⟩ := exec_hashFinish h
    · exact hs.raise nofun
    have hinv := hs.session habsorb
    obtain ⟨w, hw, hcurve⟩ := exists_finish_onCurve hD (hs.sessionTable habsorb) hinv (hs.resultOnCurve habsorb)
    obtain ⟨hnone, -⟩ | ⟨u, v, hpad, hflush, rfl⟩ := hrun
    · exact nomatch hnone.symm.trans hw
    · obtain rfl : v = w := Option.some.inj ((Option.bind_eq_some_iff.mpr ⟨u, hpad, hflush⟩).symm.trans hw)
      exact (hs.withDigest hcurve).complete

end Sys2Proof.Machine
end

section
/-! PROOFS. What an idle turn does, which steps stop, and what a raised code changes (20_memory.md R54, 60_exceptions.md
R212, R214, R225). -/

namespace Sys2Proof.Machine

open Sys2Proof Config

/-! ### Idle turns and steps that stop -/

/-- Settles O8: the turn comes to an idle engine, which keeps the state. -/
theorem idleEngineKeepsState : Obligations.IdleEngineKeepsState := fun s hmoves hbusy =>
  (step_of_engineMoves hmoves).trans (engineTurn_of_idle (s := s.rest) hmoves.1 hbusy)

/-- The engine's turn never stops (60_exceptions.md R214). -/
theorem exists_engineTurn_next (s : State) : ∃ t, engineTurn s = .next t := by
  rw [engineTurn]
  split_ifs
  · exact ⟨_, rfl⟩
  · exact exists_completion_next s
  · exact ⟨_, rfl⟩

theorem exists_addr_size (a : Access) : ∃ addr size, a = .read addr size ∨ ∃ v, a = .write addr size v := by
  cases a with
  | read addr size => exact ⟨addr, size, .inl rfl⟩
  | write addr size v => exact ⟨addr, size, .inr ⟨v, rfl⟩⟩

/-- The window answers every aligned word access inside it (20_memory.md R50, R54). -/
theorem exists_hostAccess_next {a : Access} {addr size : Nat} {s : State}
    (ha : a = .read addr size ∨ ∃ v, a = .write addr size v) (haligned : alignedWord addr size = true)
    (hwindow : s.inWindow addr = true) : ∃ t, hostAccess a s = .next t := by
  obtain rfl | ⟨v, rfl⟩ := ha <;>
    exact ⟨_, (if_neg (not_not.mpr haligned)).trans (if_neg (not_not.mpr hwindow))⟩

/-- Settles O10: of what can come next only an access can stop, and the window answers an aligned one in it. -/
theorem onlyHostAccessesStop : Obligations.OnlyHostAccessesStop := by
  refine ⟨exists_exec_next, fun s => ?_⟩
  match hin : s.inputs with
  | [] =>
    rw [step, hin]
    exact .inl (exists_engineTurn_next s)
  | .engine :: is =>
    rw [step_of_inputs_cons hin]
    exact .inl (exists_engineTurn_next s.rest)
  | .reset b :: is => exact .inl ⟨_, step_of_reset hin⟩
  | .access a :: is =>
    obtain ⟨addr, size, ha⟩ := exists_addr_size a
    by_cases hstop : s.rst = true ∨ size ≠ 4 ∨ addr % 4 ≠ 0 ∨ addr < s.cfg.base ∨ s.cfg.base + 512 ≤ addr
    · exact .inr ⟨a, rfl, addr, size, ha, hstop⟩
    · simp only [not_or, not_not, Bool.not_eq_true, not_lt, not_le] at hstop
      obtain ⟨hrst, hsize, haddr, hlo, hhi⟩ := hstop
      have haligned : alignedWord addr size = true := by simp [alignedWord, hsize, haddr]
      have hwindow : s.rest.inWindow addr = true := by simp [State.inWindow, windowBytes, hlo, hhi]
      rw [step_of_hostMoves ⟨hrst, congrArg List.head? hin⟩]
      exact .inl (exists_hostAccess_next ha haligned hwindow)

/-! ### What a raised code changes -/

/-- The four ways a command ends (60_exceptions.md R212): OK; a code that changes nothing else, which is a NO_INVERSE only
in PADD and FS_TO_POINT; a failed BUILD_TABLE; a failed session. -/
inductive Ends (i : Instr) (s t : State) : Prop where
  | completed (hok : t.err = .ok)
  | refused (c : Code) (ht : t = raise c s) (hcurve : c ≠ .invalidCurvePoint) (hlong : c ≠ .inputTooLong)
    (hnoInverse : c = .noInverse → i = .padd ∨ ∃ b g, i = .fsToPoint b g)
  | broke (c : Code) (ht : t = breakTable c s) (hc : c = .invalidCurvePoint ∨ c = .noInverse) (hi : i = .buildTable)
  | failed (c : Code) (ht : t = failSession c s) (hc : c = .inputTooLong ∨ c = .noInverse) (hi : writesSession i)

theorem exec_ends {i : Instr} {s t : State} (h : exec i s = .next t) : Ends i s t := by
  cases i with
  | nop =>
    obtain rfl := exec_nop h
    exact .completed rfl
  | wrap signed =>
    obtain rfl := exec_wrap h
    exact .completed rfl
  | padd =>
    obtain ⟨-, rfl⟩ | ⟨-, ⟨-, rfl⟩ | ⟨-, -, ⟨-, rfl⟩ | ⟨r, -, rfl⟩⟩⟩ := exec_padd h
    · exact .refused _ rfl nofun nofun nofun
    · exact .refused _ rfl nofun nofun nofun
    · exact .refused _ rfl nofun nofun fun _ => .inl rfl
    · exact .completed rfl
  | buildTable =>
    obtain ⟨-, rfl⟩ | ⟨-, ⟨-, rfl⟩ | ⟨-, ⟨-, rfl⟩ | ⟨tab, -, rfl⟩⟩⟩ := exec_buildTable h
    · exact .refused _ rfl nofun nofun nofun
    · exact .broke _ rfl (.inl rfl) rfl
    · exact .broke _ rfl (.inr rfl) rfl
    · exact .completed rfl
  | tblRead g w v =>
    obtain ⟨-, rfl⟩ | ⟨-, -, rfl⟩ | ⟨-, -, rfl⟩ := exec_tblRead h
    · exact .refused _ rfl nofun nofun nofun
    · exact .refused _ rfl nofun nofun nofun
    · exact .completed rfl
  | fsToPoint signed g =>
    obtain ⟨-, rfl⟩ | ⟨-, -, rfl⟩ | ⟨-, -, ⟨-, rfl⟩ | ⟨pt, -, rfl⟩⟩ := exec_fsToPoint h
    · exact .refused _ rfl nofun nofun nofun
    · exact .refused _ rfl nofun nofun nofun
    · exact .refused _ rfl nofun nofun fun _ => .inr ⟨_, _, rfl⟩
    · exact .completed rfl
  | hashInit =>
    obtain ⟨-, rfl⟩ | ⟨-, rfl⟩ := exec_hashInit h
    · exact .refused _ rfl nofun nofun nofun
    · exact .completed rfl
  | absorbByte imm8 =>
    have hi : writesSession (.absorbByte imm8) := .inr (.inl ⟨_, rfl⟩)
    obtain ⟨-, rfl⟩ | ⟨-, -, rfl⟩ | ⟨-, -, ⟨-, rfl⟩ | ⟨u, -, rfl⟩⟩ := exec_absorbByte h
    · exact .refused _ rfl nofun nofun nofun
    · exact .failed _ rfl (.inl rfl) hi
    · exact .failed _ rfl (.inr rfl) hi
    · exact .completed rfl
  | absorbTriple a b c =>
    have hi : writesSession (.absorbTriple a b c) := .inr (.inr (.inl ⟨_, _, _, rfl⟩))
    obtain ⟨-, rfl⟩ | ⟨-, -, rfl⟩ | ⟨-, -, -, rfl⟩ | ⟨-, -, -, ⟨-, rfl⟩ | ⟨u, -, rfl⟩⟩ := exec_absorbTriple h
    · exact .refused _ rfl nofun nofun nofun
    · exact .refused _ rfl nofun nofun nofun
    · exact .failed _ rfl (.inl rfl) hi
    · exact .failed _ rfl (.inr rfl) hi
    · exact .completed rfl
  | hashFinish =>
    obtain ⟨-, rfl⟩ | ⟨-, ⟨-, rfl⟩ | ⟨u, v, -, -, rfl⟩⟩ := exec_hashFinish h
    · exact .refused _ rfl nofun nofun nofun
    · exact .failed _ rfl (.inr rfl) (.inr (.inr (.inr rfl)))
    · exact .completed rfl

/-- BROKEN lasts whatever is issued: only EMPTY can be left (43_generator_table.md R143). -/
theorem exec_broken {i : Instr} {s t : State} (hbroken : s.tstate = .broken) (h : exec i s = .next t) :
    t.tstate = .broken := by
  obtain ⟨htstate, -⟩ | ⟨-, hempty⟩ := exec_table h
  · exact htstate.trans hbroken
  · exact nomatch hempty.symm.trans hbroken

/-- FAILED lasts until HASH_INIT (10_state.md R34). -/
theorem exec_failed {i : Instr} {s t : State} (hfailed : s.hstate = .failed) (hi : i ≠ .hashInit)
    (h : exec i s = .next t) : t.hstate = .failed := by
  obtain hsame | ⟨rfl, -⟩ | ⟨-, habsorb, -⟩ | ⟨habsorb, -⟩ := sessionStateTransitions i s t h
  · exact hsame.trans hfailed
  · exact absurd rfl hi
  · exact nomatch habsorb.symm.trans hfailed
  · exact nomatch habsorb.symm.trans hfailed

/-- Settles O55: a command that does not end with OK is refused, or breaks the table, or fails the session, and the code
and the command together say which. -/
theorem codesChangeOnlyWhatTheyList : Obligations.CodesChangeOnlyWhatTheyList := by
  refine ⟨fun i s t h herr => ?_, fun i s t h hbroken => exec_broken hbroken h,
    fun i s t h hfailed hi => exec_failed hfailed hi h⟩
  cases exec_ends h with
  | completed hok => exact absurd hok herr
  | refused c ht hcurve hlong hnoInverse =>
    subst ht
    refine ⟨?_, ?_, fun _ _ _ => rfl⟩
    · rintro (hc | ⟨hc, rfl⟩)
      · exact absurd hc hcurve
      · simpa using hnoInverse hc
    · rintro (hc | ⟨hc, hi⟩)
      · exact absurd hc hlong
      · obtain rfl | ⟨b, g, rfl⟩ := hnoInverse hc <;> simp at hi
  | broke c ht hc hi =>
    subst ht hi
    refine ⟨fun _ => rfl, ?_, fun hcurve _ hother => ?_⟩
    · rintro (hlong | ⟨-, hi⟩)
      · obtain rfl | rfl := hc <;> exact nomatch hlong
      · simp at hi
    · obtain hne | hi := hother
      · exact absurd (hc.resolve_left hcurve) hne
      · simp at hi
  | failed c ht hc hi =>
    subst ht
    refine ⟨?_, fun _ => rfl, fun _ hlong hother => ?_⟩
    · rintro (hcurve | ⟨-, rfl⟩)
      · obtain rfl | rfl := hc <;> exact nomatch hcurve
      · simp [writesSession] at hi
    · obtain hne | rfl | ⟨b, g, rfl⟩ := hother
      · exact absurd (hc.resolve_left hlong) hne
      · simp [writesSession] at hi
      · simp [writesSession] at hi

end Sys2Proof.Machine
end
